-- ==== Sys2Proof/Word.lean ====
section
/-! DEFINITION. The word types of the block: bytes, 16-bit fields, host addresses and host words. -/

namespace Sys2Proof

/-- A u8 (R17). -/
abbrev Byte := BitVec 8

/-- A u16 (R17): a checksum, `PARAM2`, `FRAME_LEN`. -/
abbrev Half := BitVec 16

/-- A 10-bit host address (R60). -/
abbrev HostAddr := BitVec 10

/-- A 19-bit `HOST` transaction word (R80). -/
abbrev HostWord := BitVec 19

end Sys2Proof
end

