-- ==== Sys2Proof/Syntax.lean ====
section
/-! DEFINITION. The instructions: one constructor per row of spec/opcode_table.json, in the table's order. -/

namespace Sys2Proof

/-- The ten command codes of R81, by the operation they start. -/
inductive Command where
  | crcGen
  | crcCheck
  | frame
  | setup
  | teardown
  | wake
  | sleep
  | idle
  | sendRecv
  | sendGetRsp
deriving DecidableEq, Repr

/-- The `CMD8` code of a command (R81). -/
def Command.code : Command → Byte
  | .crcGen => 0x01#8
  | .crcCheck => 0x02#8
  | .frame => 0x10#8
  | .setup => 0x20#8
  | .teardown => 0x21#8
  | .wake => 0x22#8
  | .sleep => 0x23#8
  | .idle => 0x24#8
  | .sendRecv => 0x30#8
  | .sendGetRsp => 0x31#8

/-- Every command, in the order of R81. -/
def Command.all : List Command :=
  [.crcGen, .crcCheck, .frame, .setup, .teardown, .wake, .sleep, .idle, .sendRecv, .sendGetRsp]

/-- The fields of an outbound command frame (R86), in wire order. -/
structure CmdFrame where
  marker : Byte
  count : Byte
  opcode : Byte
  param1 : Byte
  param2Lo : Byte
  param2Hi : Byte
  data : List Byte
  crcLo : Byte
  crcHi : Byte
deriving DecidableEq, Repr

/-- The 21 rows of the opcode table. The first fifteen are host transaction words (R80), the next four
the outbound wire sequences (R84 to R86), the last two the inbound frames (R89, R90). An operand named
`ignored` is a field of the encoding that the spec says is ignored; it is kept so that no bit is dropped. -/
inductive Instr where
  /-- `CMD_CRC_GEN`, R117. -/
  | cmdCrcGen
  /-- `CMD_CRC_CHECK`, R118. -/
  | cmdCrcCheck
  /-- `CMD_FRAME`, R144. -/
  | cmdFrame
  /-- `CMD_SETUP`, R128. -/
  | cmdSetup
  /-- `CMD_TEARDOWN`, R129. -/
  | cmdTeardown
  /-- `CMD_WAKE`, R130. -/
  | cmdWake
  /-- `CMD_SLEEP`, R131. -/
  | cmdSleep
  /-- `CMD_IDLE`, R132. -/
  | cmdIdle
  /-- `CMD_SEND_RECV`, R153. -/
  | cmdSendRecv
  /-- `CMD_SEND_GET_RSP`, R160. -/
  | cmdSendGetRsp
  /-- `CMD_RESERVED`, R82: a `CMD` write of a code outside R81. -/
  | cmdReserved (code : Byte)
  /-- `CLEAR`, R106: bits 7:1 of the data byte are ignored (R83). -/
  | clear (ignored : BitVec 7)
  /-- `CLEAR_NOP`, R83. -/
  | clearNop (ignored : BitVec 7)
  /-- `REG_WRITE`, R100: every remaining write. -/
  | regWrite (addr : HostAddr) (data : Byte)
  /-- `REG_READ`, R99: the data byte is ignored (R80). -/
  | regRead (addr : HostAddr) (ignored : Byte)
  /-- `WIRE_WAKE`, R84. -/
  | wireWake
  /-- `WIRE_SLEEP`, R85. -/
  | wireSleep
  /-- `WIRE_IDLE`, R85. -/
  | wireIdle
  /-- `WIRE_CMD`, R86. -/
  | wireCmd (f : CmdFrame)
  /-- `IN_STATUS`, R89. `trailing` holds the bytes that follow the status frame in a longer Mode A read
  (R172); it is empty for the 4-byte frame itself. -/
  | inStatus (status crcLo crcHi : Byte) (trailing : List Byte)
  /-- `IN_DATA`, R90: the length byte N, the payload and the checksum bytes. -/
  | inData (total : Byte) (payload : List Byte) (crcLo crcHi : Byte)
deriving DecidableEq, Repr

end Sys2Proof
end

