-- ==== Sys2Proof/WellFormed.lean ====
section
/-! DEFINITION. Which terms of `Instr` stand for an encoding: the side conditions of the opcode table's rows. -/

namespace Sys2Proof

/-- Whether a `CMD8` value is reserved: none of the codes of R81 (R82). -/
def isReservedCode (code : Byte) : Bool :=
  !(Command.all.any fun c => c.code == code)

/-- Whether a term stands for an encoding of its row.
- `cmdReserved`: the code is reserved (R82).
- `regWrite`: the address is neither `CMD` nor `CLEAR`, whose writes are the rows above it (R80).
- `wireCmd`: at most 248 data bytes, and `count = 7 + n` (R10, R87).
- `inStatus`: the answer holds at most 255 bytes (R16, R40).
- `inData`: the first byte is the total length, and it is not 4, which is a status frame (R90, R93). -/
def Instr.wellFormed : Instr → Bool
  | .cmdCrcGen => true
  | .cmdCrcCheck => true
  | .cmdFrame => true
  | .cmdSetup => true
  | .cmdTeardown => true
  | .cmdWake => true
  | .cmdSleep => true
  | .cmdIdle => true
  | .cmdSendRecv => true
  | .cmdSendGetRsp => true
  | .cmdReserved code => isReservedCode code
  | .clear _ => true
  | .clearNop _ => true
  | .regWrite addr _ => addr != 0x000#10 && addr != 0x002#10
  | .regRead _ _ => true
  | .wireWake => true
  | .wireSleep => true
  | .wireIdle => true
  | .wireCmd f => decide (f.data.length ≤ 248) && decide (f.count.toNat = 7 + f.data.length)
  | .inStatus _ _ _ trailing => decide (trailing.length ≤ 251)
  | .inData total payload _ _ => decide (total.toNat = payload.length + 3) && total != 0x04#8

end Sys2Proof
end

