-- ==== Sys2Proof/Decode.lean ====
section
/-! DEFINITION. The decoders (30_encoding.md): host words (R80), outbound wire sequences (R84 to R86) and
inbound frames (R89, R90); then the encoder, written from the same tables. -/

namespace Sys2Proof

/-! ### Host words -/

/-- The command a `CMD8` code selects, if it is one of R81. -/
def commandOfCode (code : Byte) : Option Command :=
  Command.all.find? fun c => c.code == code

/-- The opcode table's row of a command. -/
def Command.instr : Command → Instr
  | .crcGen => .cmdCrcGen
  | .crcCheck => .cmdCrcCheck
  | .frame => .cmdFrame
  | .setup => .cmdSetup
  | .teardown => .cmdTeardown
  | .wake => .cmdWake
  | .sleep => .cmdSleep
  | .idle => .cmdIdle
  | .sendRecv => .cmdSendRecv
  | .sendGetRsp => .cmdSendGetRsp

/-- The `W` field, bit 18 (R80). -/
def hostIsWrite (w : HostWord) : Bool := w.extractLsb' 18 1 == 1#1

/-- The `ADDR` field, bits 17:8 (R80). -/
def hostAddrOf (w : HostWord) : HostAddr := w.extractLsb' 8 10

/-- The `DATA` field, bits 7:0 (R80). -/
def hostDataOf (w : HostWord) : Byte := w.extractLsb' 0 8

/-- A write to `CMD`: the row of the code, or `CMD_RESERVED` (R81, R82). -/
def decodeCmd (code : Byte) : Instr :=
  match commandOfCode code with
  | some c => c.instr
  | none => .cmdReserved code

/-- A write to `CLEAR`: bit 0 selects the row, bits 7:1 are ignored (R83). -/
def decodeClear (v : Byte) : Instr :=
  if v.extractLsb' 0 1 = 1#1 then .clear (v.extractLsb' 1 7) else .clearNop (v.extractLsb' 1 7)

/-- Every 19-bit word decodes (R80). -/
def decodeHost (w : HostWord) : Instr :=
  if hostIsWrite w then
    if hostAddrOf w = 0x000#10 then decodeCmd (hostDataOf w)
    else if hostAddrOf w = 0x002#10 then decodeClear (hostDataOf w)
    else .regWrite (hostAddrOf w) (hostDataOf w)
  else .regRead (hostAddrOf w) (hostDataOf w)

/-- A `HOST` row of the opcode table: a word matches when its bits under `mask` are `pattern`. -/
structure HostRow where
  mask : HostWord
  pattern : HostWord
deriving DecidableEq, Repr

/-- Whether a word matches a row. -/
def HostRow.matches (r : HostRow) (w : HostWord) : Bool := w &&& r.mask == r.pattern

/-- The fifteen `HOST` rows in table order; the first match decides (R80). -/
def hostTable : List HostRow :=
  [⟨0x7FFFF, 0x40001⟩, ⟨0x7FFFF, 0x40002⟩, ⟨0x7FFFF, 0x40010⟩, ⟨0x7FFFF, 0x40020⟩, ⟨0x7FFFF, 0x40021⟩,
   ⟨0x7FFFF, 0x40022⟩, ⟨0x7FFFF, 0x40023⟩, ⟨0x7FFFF, 0x40024⟩, ⟨0x7FFFF, 0x40030⟩, ⟨0x7FFFF, 0x40031⟩,
   ⟨0x7FF00, 0x40000⟩, ⟨0x7FF01, 0x40201⟩, ⟨0x7FF01, 0x40200⟩, ⟨0x40000, 0x40000⟩, ⟨0x40000, 0x00000⟩]

/-- The place of an instruction's row among the `HOST` rows; `none` for the wire rows. -/
def Instr.hostRow : Instr → Option Nat
  | .cmdCrcGen => some 0
  | .cmdCrcCheck => some 1
  | .cmdFrame => some 2
  | .cmdSetup => some 3
  | .cmdTeardown => some 4
  | .cmdWake => some 5
  | .cmdSleep => some 6
  | .cmdIdle => some 7
  | .cmdSendRecv => some 8
  | .cmdSendGetRsp => some 9
  | .cmdReserved _ => some 10
  | .clear _ => some 11
  | .clearNop _ => some 12
  | .regWrite _ _ => some 13
  | .regRead _ _ => some 14
  | .wireWake => none
  | .wireSleep => none
  | .wireIdle => none
  | .wireCmd _ => none
  | .inStatus _ _ _ _ => none
  | .inData _ _ _ _ => none

/-! ### Wire sequences -/

/-- A command frame read by its `count` byte, which is the length minus the marker (R86, R87, R94). -/
def decodeCmdFrame : List Byte → Option Instr
  | marker :: count :: opcode :: param1 :: lo :: hi :: rest =>
    if 2 ≤ rest.length ∧ rest.length ≤ 250 ∧ count.toNat = rest.length + 5 then
      some (.wireCmd
        { marker := marker, count := count, opcode := opcode, param1 := param1, param2Lo := lo, param2Hi := hi,
          data := rest.take (rest.length - 2), crcLo := rest.getD (rest.length - 2) 0#8, crcHi := rest.getD (rest.length - 1) 0#8 })
    else none
  | _ => none

/-- An outbound sequence (R84 to R86). No other outbound sequence exists (R95). -/
def decodeOutbound (bytes : List Byte) : Option Instr :=
  if bytes = [0x00#8, 0x00#8] then some .wireWake
  else if bytes = [0x01#8] then some .wireSleep
  else if bytes = [0x02#8] then some .wireIdle
  else decodeCmdFrame bytes

/-- An inbound byte sequence read by its first byte (R89 to R91, R94): 4 is a status frame, and what follows
its four bytes is `trailing`; the sequence's own length is a data frame; anything else has no shape. -/
def decodeInbound : List Byte → Option Instr
  | first :: rest =>
    if first = 0x04#8 then
      match rest with
      | status :: lo :: hi :: trailing => if trailing.length ≤ 251 then some (.inStatus status lo hi trailing) else none
      | _ => none
    else if 2 ≤ rest.length ∧ first.toNat = rest.length + 1 then
      some (.inData first (rest.take (rest.length - 2)) (rest.getD (rest.length - 2) 0#8) (rest.getD (rest.length - 1) 0#8))
    else none
  | [] => none

/-! ### The opcode table's numbering -/

/-- The `n` bytes of a number, the first byte on the wire in the highest bits: so the table numbers the bits
of a wire row (`IN_STATUS`: its first byte `0x04` is bits 31:24). Log 9. -/
def wireBytes : Nat → Nat → List Byte
  | 0, _ => []
  | n + 1, w => BitVec.ofNat 8 (w / 256 ^ n) :: wireBytes n w

/-- The instruction the decoder reads from a table word: a host word in 19 to 24 bits, otherwise a wire
sequence of whole bytes, tried as outbound and then as inbound. -/
def decodeTableWord (nbits w : Nat) : Option Instr :=
  if 19 ≤ nbits ∧ nbits ≤ 24 then
    if w < 2 ^ 19 then some (decodeHost (BitVec.ofNat 19 w)) else none
  else if nbits % 8 = 0 ∧ w < 2 ^ nbits then
    match decodeOutbound (wireBytes (nbits / 8) w) with
    | some i => some i
    | none => decodeInbound (wireBytes (nbits / 8) w)
  else none

/-! ### The encoder -/

/-- An encoded instruction: a host word, or a byte sequence on the bus in one of its two directions. -/
inductive Encoded where
  | host (w : HostWord)
  | outbound (bytes : List Byte)
  | inbound (bytes : List Byte)
deriving DecidableEq, Repr

/-- The decoder of each kind of encoding. -/
def decode : Encoded → Option Instr
  | .host w => some (decodeHost w)
  | .outbound bytes => decodeOutbound bytes
  | .inbound bytes => decodeInbound bytes

/-- A `HOST` word from its fields (R80). -/
def hostWord (write : BitVec 1) (addr : HostAddr) (data : Byte) : HostWord := write ++ addr ++ data

/-- The bytes of a command frame (R86). -/
def CmdFrame.bytes (f : CmdFrame) : List Byte :=
  [f.marker, f.count, f.opcode, f.param1, f.param2Lo, f.param2Hi] ++ f.data ++ [f.crcLo, f.crcHi]

/-- The bytes of an inbound status frame and of what follows it in the same read (R89). -/
def statusFrameBytes (status crcLo crcHi : Byte) (trailing : List Byte) : List Byte :=
  [0x04#8, status, crcLo, crcHi] ++ trailing

/-- The bytes of an inbound data frame (R90). -/
def dataFrameBytes (total : Byte) (payload : List Byte) (crcLo crcHi : Byte) : List Byte :=
  [total] ++ payload ++ [crcLo, crcHi]

/-- The encoding of an instruction. -/
def encode : Instr → Encoded
  | .cmdCrcGen => .host (hostWord 1#1 0x000#10 Command.crcGen.code)
  | .cmdCrcCheck => .host (hostWord 1#1 0x000#10 Command.crcCheck.code)
  | .cmdFrame => .host (hostWord 1#1 0x000#10 Command.frame.code)
  | .cmdSetup => .host (hostWord 1#1 0x000#10 Command.setup.code)
  | .cmdTeardown => .host (hostWord 1#1 0x000#10 Command.teardown.code)
  | .cmdWake => .host (hostWord 1#1 0x000#10 Command.wake.code)
  | .cmdSleep => .host (hostWord 1#1 0x000#10 Command.sleep.code)
  | .cmdIdle => .host (hostWord 1#1 0x000#10 Command.idle.code)
  | .cmdSendRecv => .host (hostWord 1#1 0x000#10 Command.sendRecv.code)
  | .cmdSendGetRsp => .host (hostWord 1#1 0x000#10 Command.sendGetRsp.code)
  | .cmdReserved code => .host (hostWord 1#1 0x000#10 code)
  | .clear ignored => .host (hostWord 1#1 0x002#10 (ignored ++ 1#1))
  | .clearNop ignored => .host (hostWord 1#1 0x002#10 (ignored ++ 0#1))
  | .regWrite addr data => .host (hostWord 1#1 addr data)
  | .regRead addr ignored => .host (hostWord 0#1 addr ignored)
  | .wireWake => .outbound [0x00#8, 0x00#8]
  | .wireSleep => .outbound [0x01#8]
  | .wireIdle => .outbound [0x02#8]
  | .wireCmd f => .outbound f.bytes
  | .inStatus status crcLo crcHi trailing => .inbound (statusFrameBytes status crcLo crcHi trailing)
  | .inData total payload crcLo crcHi => .inbound (dataFrameBytes total payload crcLo crcHi)

end Sys2Proof
end

