-- ==== Sys2Proof/Machine/Bits.lean ====
section
/-! DEFINITION. Bit fields, byte order and byte-sequence slices (R17, R18, R63, R64). -/

namespace Sys2Proof.Machine

/-- `lo8(v)`, bits 7:0 (R17). -/
def lo8 (v : Half) : Byte := v.extractLsb' 0 8

/-- `hi8(v)`, bits 15:8 (R17). -/
def hi8 (v : Half) : Byte := v.extractLsb' 8 8

/-- `le16(lo, hi)` (R17): the byte order of every 16-bit field (R63, R64). -/
def le16 (lo hi : Byte) : Half := hi ++ lo

/-- `v` with its bits 7:0 replaced (R64). -/
def setLo8 (v : Half) (b : Byte) : Half := le16 b (hi8 v)

/-- `v` with its bits 15:8 replaced (R64). -/
def setHi8 (v : Half) (b : Byte) : Half := le16 (lo8 v) b

/-- Byte `i` of a 32-bit register, byte 0 the least significant (R64). -/
def byte32 (v : BitVec 32) (i : Nat) : Byte := v.extractLsb' (8 * i) 8

/-- A 32-bit register from its bytes, least significant first (R64). -/
def le32 (b0 b1 b2 b3 : Byte) : BitVec 32 := b3 ++ b2 ++ b1 ++ b0

/-- `v` with its byte `i` replaced, for `i` from 0 to 3 (R64). -/
def setByte32 (v : BitVec 32) (i : Nat) (b : Byte) : BitVec 32 :=
  match i with
  | 0 => le32 b (byte32 v 1) (byte32 v 2) (byte32 v 3)
  | 1 => le32 (byte32 v 0) b (byte32 v 2) (byte32 v 3)
  | 2 => le32 (byte32 v 0) (byte32 v 1) b (byte32 v 3)
  | _ => le32 (byte32 v 0) (byte32 v 1) (byte32 v 2) b

/-- `s[i]` (R18); the operations read it only below the length. -/
def byteAt (s : List Byte) (i : Nat) : Byte := s.getD i 0#8

/-- The inclusive slice `s[i..j]` (R18), empty when `j < i`. -/
def slice (s : List Byte) (i j : Nat) : List Byte := (s.drop i).take (j + 1 - i)

end Sys2Proof.Machine
end

