-- ==== Sys2Proof/Config.lean ====
section
/-! DEFINITION. What an implementation fixes (the parameters of 00_scope.md R10 to R15) and the oracle draws
of 42_transport.md R123 and R124. Every one that the spec leaves open is an opaque constant: nothing in Lean
can evaluate it, so a theorem holds for every value of it. -/

namespace Sys2Proof

/-- The closed enumeration of R24, in the order of its indices. -/
inductive StatusCode where
  | success
  | checkMacMiscompare
  | parseError
  | executionError
  | awake
  | communicationError
  | nak
  | eccFault
deriving DecidableEq, Repr, Inhabited

/-- The answer of a `BusRead` (R22, R123): `Err`, or a byte sequence. -/
inductive ReadAnswer where
  | err
  | data (bytes : List Byte)
deriving DecidableEq, Repr, Inhabited

/-- The parameters of the block (R10, R12, R13, R15). "A model must take `P_CRC16` as an argument and not
assume this default" (R114): the machine's operations take a `Params`. -/
structure Params where
  /-- `P_CRC16` (R13, R113): a total function of the byte sequence. -/
  crc16 : List Byte → Half
  /-- `P_STATUS_MAP` (R15). -/
  statusMap : Byte → Option StatusCode
  /-- `P_MARKER` (R12). -/
  marker : Byte
  /-- `MAX_DATA_LEN`, 0 to 248 (R10). -/
  maxDataLen : Fin 249

/-- `P_CRC16` of the machine: open (R13, D8). Log 1. -/
opaque Config.crc16 : List Byte → Half

/-- `P_STATUS_MAP` of the machine: open (R15, D11). Log 1. -/
opaque Config.statusMap : Byte → Option StatusCode

/-- `P_MARKER` of the machine: open (R12, D10). Log 1. -/
opaque Config.marker : Byte

/-- `MAX_DATA_LEN` of the machine: open, 0 to 248 (R10, D12). Log 1. -/
opaque Config.maxDataLen : Fin 249

/-- The machine's parameters, all four open. -/
def Config.params : Params where
  crc16 := Config.crc16
  statusMap := Config.statusMap
  marker := Config.marker
  maxDataLen := Config.maxDataLen

/-- The free draw answered to a `BusWrite` when no answer is listed in State (R123). Log 3. -/
opaque Config.writeDraw : Nat → Int

/-- The free draw answered to a `BusRead` when no answer is listed in State (R123). Log 3. -/
opaque Config.readDraw : Nat → ReadAnswer

/-- The free draw answered to a `BusOpen` when no answer is listed in State (R124). Log 3. -/
opaque Config.openDraw : Nat → Bool

/-- `NUM_RETRIES` (R8), fixed. -/
def Config.numRetries : Nat := 10

/-- `READ_MAX_ATTEMPTS` (R9), fixed. -/
def Config.readMaxAttempts : Nat := 3

end Sys2Proof
end

