-- ==== Sys2Proof/Machine/State.lean ====
section
/-! DEFINITION. The block's state (10_state.md) as plain data, the reasons a step can stop, and reset. -/

namespace Sys2Proof.Machine

/-! ### Memory -/

/-- Bytes by address, in one canonical form (`Memory.wf`). -/
abbrev Memory := List Host.Cell

/-- What an address with no entry reads as: the reset contents of every buffer (R50, R53, R58). -/
def unlistedByte : Byte := 0x00#8

/-- The canonical form: addresses strictly rising, and no entry that equals what an unlisted address reads as. -/
abbrev Memory.wf (m : Memory) : Prop := m.Pairwise (fun c d => c.1 < d.1) ∧ ∀ c ∈ m, c.2 ≠ unlistedByte

/-- A scratch buffer (R53): its bytes by index, and its logical length. -/
structure Buffer where
  cells : Memory
  len : Nat
deriving DecidableEq, Repr

/-- A wiped buffer: every byte zero and length 0 (R21). -/
def Buffer.wiped : Buffer := { cells := [], len := 0 }

/-! ### Registers -/

/-- The codes of `RESULT_KIND` (R174). -/
inductive ResultKind where
  | none
  | ok
  | fail
  | status
  | payload
  | null
  | fatalErr
  | internalErr
  | rejected
deriving DecidableEq, Repr

/-- The codes of `FAIL_REASON` (R175). -/
inductive FailReason where
  | none
  | writeCount
  | readError
  | badLength
  | reassembly
  | checksum
  | wakeTimeout
  | openFail
  | fatalSend
  | unmappedStatus
  | badOpcode
  | noSession
  | sessionOpen
  | fatalLock
  | range
deriving DecidableEq, Repr

/-- The result registers that `finish` writes (R105): `RESULT_KIND` (R30), `RESULT_STATUS` bits 2:0 (R31),
`RESULT_LEN` (R32) and `FAIL_REASON` (R33). -/
structure Result where
  kind : ResultKind
  status : BitVec 3
  len : Byte
  reason : FailReason
deriving DecidableEq, Repr

/-- The result registers after `start_common`, `CLEAR` and reset: all 0 (R104, R106, R58). -/
def Result.cleared : Result := { kind := .none, status := 0#3, len := 0#8, reason := .none }

/-- The read/write registers: the operands a host program sets (R34 to R43, R46). The block never writes one. -/
structure Regs where
  /-- `OPCODE`, R34. -/
  opcode : Byte
  /-- `PARAM1`, R35. -/
  param1 : Byte
  /-- `PARAM2`, R36. -/
  param2 : Half
  /-- `DATA_LEN`, R37. -/
  dataLen : Byte
  /-- `RX_EXPECT_LEN`, R40. -/
  rxExpectLen : Byte
  /-- `RX_MAX_LEN`, R41. -/
  rxMaxLen : Byte
  /-- `BUS_ADDR` bits 6:0, R42; bit 7 has no storage. -/
  busAddr : BitVec 7
  /-- `EXEC_TIME`, R38, in microseconds. -/
  execTime : BitVec 32
  /-- `WAKE_CAP`, R43. -/
  wakeCap : Byte
  /-- `NAK_CAP`, R43. -/
  nakCap : Byte
  /-- `CRC_LEN`, R46. -/
  crcLen : Byte
  /-- `CRC_EXPECT`, R46. -/
  crcExpect : Half
deriving DecidableEq, Repr

/-- `SESSION` (R48). -/
inductive Session where
  | closed
  | opened (addr : BitVec 7)
deriving DecidableEq, Repr

/-- The labels of R52: the next port call the FSM issues. -/
inductive Label where
  | sOpen
  | wWrite
  | wRead
  | tSleep
  | tClose
  | cWrite
  | aWrite
  | aDelay
  | aRead
  | bWrite
  | bRead1
  | bDelay
  | bRead2
deriving DecidableEq, Repr

/-- `FSM` (R52). -/
inductive Fsm where
  | idle
  | run (op : Command) (label : Label)
deriving DecidableEq, Repr

/-- The hidden counters (R54 to R56). -/
structure Counters where
  /-- `OUTER_LEFT`, 0 to 10; the host reads it as `RETRY_LEFT` (R44, R54). -/
  outerLeft : Nat
  /-- `NAK_CNT`, saturating at 255 (R54). -/
  nakCnt : Nat
  /-- `RECV_LEN`, 3 to 255 (R54). -/
  recvLen : Nat
  /-- `WAKE_CNT`, saturating at 255 (R55). -/
  wakeCnt : Nat
  /-- `RD_ATTEMPT`, 1 to 3 (R56). -/
  rdAttempt : Nat
  /-- `N`, 4 to 255 (R56). -/
  frameTotal : Nat
deriving DecidableEq, Repr

/-- The counters after reset (R58). -/
def Counters.zero : Counters :=
  { outerLeft := 0, nakCnt := 0, recvLen := 0, wakeCnt := 0, rdAttempt := 0, frameTotal := 0 }

/-! ### The agents outside the block (the model's own fields, logs 2 to 4) -/

/-- One turn of the agents (R3): the host issues a transaction (R59), the block FSM makes its port call, or
the block is reset (R191). -/
inductive Turn where
  | host (word : HostWord)
  | port
  | reset
deriving DecidableEq, Repr

/-- A port primitive with its arguments (R22). -/
inductive PortCall where
  | busOpen (addr : BitVec 7)
  | busWrite (bytes : List Byte)
  | busRead (n : Nat)
  | busClose
  | delay (t : BitVec 32)
deriving DecidableEq, Repr

/-- What is outside the block: whose turn comes next, the answers the ports will give (R123, R124), the byte
the host was last given (R59), and the port calls issued so far. No field of it is state of the block. -/
structure Env where
  /-- The turns to come; when it is empty, the block FSM moves. Log 2. -/
  agenda : List Turn
  /-- Answers to the coming `BusWrite` calls, each bounded by `boundCount`; when it is empty, `Config.writeDraw draws`
  answers. Log 3. -/
  writeAnswers : List Int
  /-- Answers to the coming `BusRead` calls; when it is empty, `Config.readDraw draws` answers. Log 3. -/
  readAnswers : List ReadAnswer
  /-- Answers to the coming `BusOpen` calls; when it is empty, `Config.openDraw draws` answers. Log 3. -/
  openAnswers : List Bool
  /-- How many opaque draws have been taken. Log 3. -/
  draws : Nat
  /-- The port calls issued so far, newest first: an observation that no step reads. Log 4. -/
  calls : List PortCall
  /-- The byte the last `MemRead` returned to the host (R59). Log 4. -/
  hostData : Byte
deriving DecidableEq, Repr

/-- The environment beside `State.reset`: nothing is to come, nothing has been observed. Log 2, 3, 4. -/
def Env.empty : Env :=
  { agenda := [], writeAnswers := [], readAnswers := [], openAnswers := [], draws := 0, calls := [], hostData := 0x00 }

/-! ### The machine -/

/-- The state of the block (R26) and of what surrounds it. `STATUS.BUSY` and `STATUS.OPEN` are read off `fsm`
and `session` (R28). -/
structure State where
  /-- `LAST_OP`, read at `CMD` (R27). -/
  lastOp : Byte
  /-- `STATUS.DONE` (R28, R49). -/
  done : Bool
  /-- `STATUS.FATAL` (R28, R49). -/
  fatal : Bool
  /-- `STATUS.REJECT` (R28, R49). -/
  reject : Bool
  /-- The result registers (R30 to R33). -/
  result : Result
  /-- The operand registers (R34 to R43, R46). -/
  regs : Regs
  /-- `FRAME_LEN` (R45). -/
  frameLen : Half
  /-- `CRC_VALID` bit 0 (R46). -/
  crcValid : Bool
  /-- `CRC_RESULT` (R46). -/
  crcResult : Half
  /-- The host-visible buffers (R50): `DATA` at 0x100, `RESULT` at 0x200, `FRAME` at 0x300. -/
  mem : Memory
  /-- `SESSION` (R48). -/
  session : Session
  /-- `FSM` (R52). -/
  fsm : Fsm
  /-- `TXBUF` (R53). -/
  txbuf : Buffer
  /-- `RXBUF` (R53). -/
  rxbuf : Buffer
  /-- The hidden counters (R54 to R56). -/
  ctr : Counters
  /-- What is outside the block. -/
  env : Env
deriving DecidableEq, Repr

/-- The operand registers after reset (R58). -/
def Regs.zero : Regs :=
  { opcode := 0, param1 := 0, param2 := 0, dataLen := 0, rxExpectLen := 0, rxMaxLen := 0, busAddr := 0,
    execTime := 0, wakeCap := 0, nakCap := 0, crcLen := 0, crcExpect := 0 }

/-- The block right after reset (R58, R191). -/
def State.reset : State :=
  { lastOp := 0x00, done := false, fatal := false, reject := false, result := Result.cleared, regs := Regs.zero,
    frameLen := 0, crcValid := false, crcResult := 0, mem := [], session := .closed, fsm := .idle,
    txbuf := Buffer.wiped, rxbuf := Buffer.wiped, ctr := Counters.zero, env := Env.empty }

/-- Why the machine stops. -/
inductive Fault where
  /-- Raised by the step when the FSM holds an operation with a label that no rule of that operation defines
  (R52). Safe: no run from reset reaches such a state (log 8). -/
  | undefinedLabel
deriving DecidableEq, Repr

/-- Why an instruction has no meaning. -/
inductive Refusal where
  /-- Raised by no instruction of this model: every row of the opcode table has its meaning. Safe. -/
  | notModelled (mnemonic : String)
deriving DecidableEq, Repr

end Sys2Proof.Machine
end

