-- ==== Sys2Proof/Machine/Ops.lean ====
section
/-! DEFINITION. The named operations over memory, buffers, ports and result registers, that every meaning is
built from. Ending an operation, with or without an error, is `finish` (R105, R182); releasing its result is
`clearResult` or the start of the next command (R183). -/

namespace Sys2Proof.Machine

/-! ### Bytes of memory -/

/-- The byte at an address; an unlisted address reads the reset contents (R50, R58). -/
def loadByte : Memory → Nat → Byte
  | [], _ => unlistedByte
  | c :: rest, a => if c.1 = a then c.2 else loadByte rest a

/-- An entry put in front, unless it equals what an unlisted address reads as. -/
def consByte (a : Nat) (v : Byte) (m : Memory) : Memory :=
  if v = unlistedByte then m else (a, v) :: m

/-- One byte stored, in canonical form. -/
def storeByte : Memory → Nat → Byte → Memory
  | [], a, v => consByte a v []
  | c :: rest, a, v =>
    if a < c.1 then consByte a v (c :: rest)
    else if a = c.1 then consByte a v rest
    else c :: storeByte rest a v

/-- `n` bytes from address `a` upward. -/
def loadBytes (m : Memory) (a : Nat) : Nat → List Byte
  | 0 => []
  | n + 1 => loadByte m a :: loadBytes m (a + 1) n

/-- Bytes stored from address `a` upward. -/
def storeBytes (m : Memory) (a : Nat) : List Byte → Memory
  | [] => m
  | b :: bs => storeBytes (storeByte m a b) (a + 1) bs

/-- Zero written to the `n` bytes from address `a` upward (R21). -/
def wipeBytes (m : Memory) (a n : Nat) : Memory :=
  m.filter fun c => decide (c.1 < a) || decide (a + n ≤ c.1)

/-- The first address of `DATA` (R50). -/
def dataBase : Nat := 0x100

/-- The first address of `RESULT` (R50). -/
def resultBase : Nat := 0x200

/-- The first address of `FRAME` (R50). -/
def frameBase : Nat := 0x300

/-- The size of each host-visible buffer (R50). -/
def bufferSize : Nat := 256

/-- `wipe(RESULT); wipe(FRAME)` (R21, R104, R106). -/
def wipeResultAndFrame (m : Memory) : Memory :=
  wipeBytes (wipeBytes m resultBase bufferSize) frameBase bufferSize

/-! ### Scratch buffers -/

/-- A wiped buffer that is then given the bytes `bs` (R53). -/
def Buffer.ofBytes (bs : List Byte) : Buffer := { cells := storeBytes [] 0 bs, len := bs.length }

/-- The logical contents of a buffer (R53). -/
def Buffer.bytes (b : Buffer) : List Byte := loadBytes b.cells 0 b.len

/-- `wipe(TXBUF)` (R21, R73). -/
def wipeTx (s : State) : State := { s with txbuf := Buffer.wiped }

/-- `wipe(RXBUF)` (R21, R74). -/
def wipeRx (s : State) : State := { s with rxbuf := Buffer.wiped }

/-- `RXBUF <- (r == Err) ? [] : r` (R127, R153, R160). -/
def loadRx (r : ReadAnswer) (s : State) : State :=
  { s with rxbuf := match r with
                    | .err => Buffer.ofBytes []
                    | .data bytes => Buffer.ofBytes bytes }

/-! ### Ports (R22, R123, R124) -/

/-- A port call is issued. -/
def logCall (c : PortCall) (s : State) : State := { s with env := { s.env with calls := c :: s.env.calls } }

/-- A `BusWrite` of `n` bytes answers `w < 0` or `0 <= w <= n` (R123, D35): a listed or drawn integer above
`n` is no count, and is taken as an error. Log 3. -/
def boundCount (n : Nat) (w : Int) : Int := if w ≤ n then w else -1

/-- The answer the next `BusWrite` of `n` bytes receives: the next listed one, or a free draw (R123). -/
def writeAnswer (n : Nat) (s : State) : Int :=
  match s.env.writeAnswers with
  | w :: _ => boundCount n w
  | [] => boundCount n (Config.writeDraw s.env.draws)

/-- The next `BusWrite` answer is consumed. -/
def dropWrite (s : State) : State :=
  match s.env.writeAnswers with
  | _ :: rest => { s with env := { s.env with writeAnswers := rest } }
  | [] => { s with env := { s.env with draws := s.env.draws + 1 } }

/-- A `BusRead(n)` answers at most `n` bytes (R123). -/
def clipAnswer (n : Nat) : ReadAnswer → ReadAnswer
  | .err => .err
  | .data bytes => .data (bytes.take n)

/-- The answer the next `BusRead(n)` receives: the next listed one, or a free draw (R123). -/
def readAnswer (n : Nat) (s : State) : ReadAnswer :=
  match s.env.readAnswers with
  | r :: _ => clipAnswer n r
  | [] => clipAnswer n (Config.readDraw s.env.draws)

/-- The next `BusRead` answer is consumed. -/
def dropRead (s : State) : State :=
  match s.env.readAnswers with
  | _ :: rest => { s with env := { s.env with readAnswers := rest } }
  | [] => { s with env := { s.env with draws := s.env.draws + 1 } }

/-- The answer the next `BusOpen` receives: the next listed one, or a free draw (R124). -/
def openAnswer (s : State) : Bool :=
  match s.env.openAnswers with
  | ok :: _ => ok
  | [] => Config.openDraw s.env.draws

/-- The next `BusOpen` answer is consumed. -/
def dropOpen (s : State) : State :=
  match s.env.openAnswers with
  | _ :: rest => { s with env := { s.env with openAnswers := rest } }
  | [] => { s with env := { s.env with draws := s.env.draws + 1 } }

/-! ### The sequencer (R52) -/

/-- The labels of an operation (R52): those that its own rule defines (R127 to R132, R153, R160). -/
def labelsOf : Command → List Label
  | .crcGen => []
  | .crcCheck => []
  | .frame => []
  | .setup => [.sOpen, .wWrite, .wRead]
  | .teardown => [.tSleep, .tClose]
  | .wake => [.wWrite, .wRead]
  | .sleep => [.cWrite]
  | .idle => [.cWrite]
  | .sendRecv => [.aWrite, .aDelay, .aRead]
  | .sendGetRsp => [.bWrite, .bRead1, .bDelay, .bRead2]

/-- `goto label` within the operation `op`. -/
def gotoLabel (op : Command) (l : Label) (s : State) : State := { s with fsm := .run op l }

/-- `FSM != IDLE` (R52). -/
def isBusy (s : State) : Bool := s.fsm != .idle

/-! ### Results and errors -/

/-- `finish(K, status, len, reason)` (R105): the end of every operation, and the block's "trap entry" (R182). -/
def finish (kind : ResultKind) (status : BitVec 3) (len : Byte) (reason : FailReason) (s : State) : State :=
  { s with result := { kind := kind, status := status, len := len, reason := reason }, fsm := .idle, done := true }

/-- `raise K(reason)` (R20, R105). -/
def raise (kind : ResultKind) (reason : FailReason) (s : State) : State := finish kind 0#3 0#8 reason s

/-- `reject(reason)` (R102). -/
def rejectCommand (reason : FailReason) (s : State) : State :=
  finish .rejected 0#3 0#8 reason { s with reject := true }

/-- `ignored_under_busy()` (R103). -/
def ignoredUnderBusy (s : State) : State := { s with reject := true }

/-- A host write's effect, which the BUSY rule comes before (R100, R103, R180). -/
def whenIdle (effect : State → State) (s : State) : State :=
  if isBusy s then ignoredUnderBusy s else effect s

/-- `start_common(v)` (R104). -/
def startCommon (v : Byte) (s : State) : State :=
  { s with lastOp := v, done := false, result := Result.cleared, mem := wipeResultAndFrame s.mem, frameLen := 0#16 }

/-- `clear()` (R106): the host's release of a result, the block's "trap return" (R183). -/
def clearResult (s : State) : State :=
  { s with done := false, reject := false, result := Result.cleared, mem := wipeResultAndFrame s.mem, frameLen := 0#16 }

/-! ### Reset (R191 to R193) -/

/-- The port call that is in flight is abandoned, and its answer is never consumed by a later one (R192). -/
def abandonCall (s : State) : State :=
  match s.fsm with
  | .idle => s
  | .run _ .sOpen => dropOpen s
  | .run _ .wWrite => dropWrite s
  | .run _ .wRead => dropRead s
  | .run _ .tSleep => dropWrite s
  | .run _ .tClose => s
  | .run _ .cWrite => dropWrite s
  | .run _ .aWrite => dropWrite s
  | .run _ .aDelay => s
  | .run _ .aRead => dropRead s
  | .run _ .bWrite => dropWrite s
  | .run _ .bRead1 => dropRead s
  | .run _ .bDelay => s
  | .run _ .bRead2 => dropRead s

/-- A reset event: every piece of the block's state takes its reset value, and no port call is issued (R191,
R193). The agents outside the block go on. -/
def resetBlock (s : State) : State := { State.reset with env := (abandonCall s).env }

end Sys2Proof.Machine
end

