-- ==== Sys2Proof/Machine/Flags.lean ====
section
/-! DEFINITION. The codes and flag bytes the host reads: `STATUS` (R28), `RESULT_KIND` (R174), `FAIL_REASON`
(R175), the status index (R24) and `CRC_VALID` (R46). -/

namespace Sys2Proof.Machine

/-- `STATUS.OPEN` (R28, R48). -/
def isOpen (s : State) : Bool :=
  match s.session with
  | .closed => false
  | .opened _ => true

/-- `STATUS` (R28): bits 7:5 zero, then OPEN, REJECT, FATAL, DONE, BUSY. -/
def statusByte (s : State) : Byte :=
  0#3 ++ BitVec.ofBool (isOpen s) ++ BitVec.ofBool s.reject ++ BitVec.ofBool s.fatal ++ BitVec.ofBool s.done
    ++ BitVec.ofBool (isBusy s)

/-- A flag as a register byte whose bits 7:1 read 0 (R46). -/
def flagByte (b : Bool) : Byte := 0#7 ++ BitVec.ofBool b

/-- The index of a status code (R24). -/
def statusIndex : StatusCode → BitVec 3
  | .success => 0#3
  | .checkMacMiscompare => 1#3
  | .parseError => 2#3
  | .executionError => 3#3
  | .awake => 4#3
  | .communicationError => 5#3
  | .nak => 6#3
  | .eccFault => 7#3

/-- The `RESULT_KIND` codes (R174). -/
def kindCode : ResultKind → Byte
  | .none => 0#8
  | .ok => 1#8
  | .fail => 2#8
  | .status => 3#8
  | .payload => 4#8
  | .null => 5#8
  | .fatalErr => 6#8
  | .internalErr => 7#8
  | .rejected => 8#8

/-- The `FAIL_REASON` codes (R175). -/
def reasonCode : FailReason → Byte
  | .none => 0#8
  | .writeCount => 1#8
  | .readError => 2#8
  | .badLength => 3#8
  | .reassembly => 4#8
  | .checksum => 5#8
  | .wakeTimeout => 6#8
  | .openFail => 7#8
  | .fatalSend => 8#8
  | .unmappedStatus => 9#8
  | .badOpcode => 10#8
  | .noSession => 11#8
  | .sessionOpen => 12#8
  | .fatalLock => 13#8
  | .range => 14#8

end Sys2Proof.Machine
end

