-- ==== Sys2Proof/Machine/Operands.lean ====
section
/-! DEFINITION. The host register space (R61): which byte each address names, what it reads, what a write to it
stores; and the operand ranges of the commands. -/

namespace Sys2Proof.Machine

/-- The register bytes, in address order (R61). -/
inductive RegByte where
  | cmd
  | status
  | clear
  | resultKind
  | resultStatus
  | resultLen
  | failReason
  | retryLeft
  | opcode
  | param1
  | param2Lo
  | param2Hi
  | dataLen
  | rxExpectLen
  | rxMaxLen
  | busAddr
  | execTime0
  | execTime1
  | execTime2
  | execTime3
  | wakeCap
  | nakCap
  | frameLenLo
  | frameLenHi
  | crcLen
  | crcValid
  | crcResultLo
  | crcResultHi
  | crcExpectLo
  | crcExpectHi
deriving DecidableEq, Repr

/-- The host address map from 0x000 to 0x01D (R61). -/
def registerMap : List RegByte :=
  [.cmd, .status, .clear, .resultKind, .resultStatus, .resultLen, .failReason, .retryLeft,
   .opcode, .param1, .param2Lo, .param2Hi, .dataLen, .rxExpectLen, .rxMaxLen, .busAddr,
   .execTime0, .execTime1, .execTime2, .execTime3, .wakeCap, .nakCap, .frameLenLo, .frameLenHi,
   .crcLen, .crcValid, .crcResultLo, .crcResultHi, .crcExpectLo, .crcExpectHi]

/-- The register byte at an address below 0x100; none at a reserved address (R51). -/
def regAt (a : Nat) : Option RegByte := registerMap[a]?

/-- What a register byte reads (R99), with reserved bits 0; `CLEAR` reads 0 (R29). -/
def readReg (s : State) : RegByte → Byte
  | .cmd => s.lastOp
  | .status => statusByte s
  | .clear => 0
  | .resultKind => kindCode s.result.kind
  | .resultStatus => s.result.status.zeroExtend 8
  | .resultLen => s.result.len
  | .failReason => reasonCode s.result.reason
  | .retryLeft => BitVec.ofNat 8 s.ctr.outerLeft
  | .opcode => s.regs.opcode
  | .param1 => s.regs.param1
  | .param2Lo => lo8 s.regs.param2
  | .param2Hi => hi8 s.regs.param2
  | .dataLen => s.regs.dataLen
  | .rxExpectLen => s.regs.rxExpectLen
  | .rxMaxLen => s.regs.rxMaxLen
  | .busAddr => s.regs.busAddr.zeroExtend 8
  | .execTime0 => byte32 s.regs.execTime 0
  | .execTime1 => byte32 s.regs.execTime 1
  | .execTime2 => byte32 s.regs.execTime 2
  | .execTime3 => byte32 s.regs.execTime 3
  | .wakeCap => s.regs.wakeCap
  | .nakCap => s.regs.nakCap
  | .frameLenLo => lo8 s.frameLen
  | .frameLenHi => hi8 s.frameLen
  | .crcLen => s.regs.crcLen
  | .crcValid => flagByte s.crcValid
  | .crcResultLo => lo8 s.crcResult
  | .crcResultHi => hi8 s.crcResult
  | .crcExpectLo => lo8 s.regs.crcExpect
  | .crcExpectHi => hi8 s.regs.crcExpect

/-- What a write to a register byte stores (R100): a read/write register takes the byte, with its reserved
bits dropped; a read-only one and the two strobes keep nothing (R108). -/
def writeReg (g : Regs) (v : Byte) : RegByte → Regs
  | .cmd => g
  | .status => g
  | .clear => g
  | .resultKind => g
  | .resultStatus => g
  | .resultLen => g
  | .failReason => g
  | .retryLeft => g
  | .opcode => { g with opcode := v }
  | .param1 => { g with param1 := v }
  | .param2Lo => { g with param2 := setLo8 g.param2 v }
  | .param2Hi => { g with param2 := setHi8 g.param2 v }
  | .dataLen => { g with dataLen := v }
  | .rxExpectLen => { g with rxExpectLen := v }
  | .rxMaxLen => { g with rxMaxLen := v }
  | .busAddr => { g with busAddr := v.extractLsb' 0 7 }
  | .execTime0 => { g with execTime := setByte32 g.execTime 0 v }
  | .execTime1 => { g with execTime := setByte32 g.execTime 1 v }
  | .execTime2 => { g with execTime := setByte32 g.execTime 2 v }
  | .execTime3 => { g with execTime := setByte32 g.execTime 3 v }
  | .wakeCap => { g with wakeCap := v }
  | .nakCap => { g with nakCap := v }
  | .frameLenLo => g
  | .frameLenHi => g
  | .crcLen => { g with crcLen := v }
  | .crcValid => g
  | .crcResultLo => g
  | .crcResultHi => g
  | .crcExpectLo => { g with crcExpect := setLo8 g.crcExpect v }
  | .crcExpectHi => { g with crcExpect := setHi8 g.crcExpect v }

/-- `MemRead(a, 1)` (R99): the buffers at 0x100 and above, the registers below, 0 at a reserved address. -/
def readByte (a : HostAddr) (s : State) : Byte :=
  if dataBase ≤ a.toNat then loadByte s.mem a.toNat
  else match regAt a.toNat with
    | some r => readReg s r
    | none => 0x00

/-- The storing part of `MemWrite(a, 1, v)` (R100): `DATA` and the read/write registers take the byte;
`RESULT`, `FRAME`, read-only registers and reserved addresses ignore it (R108). -/
def writeByte (a : HostAddr) (v : Byte) (s : State) : State :=
  if dataBase ≤ a.toNat then
    if a.toNat < resultBase then { s with mem := storeByte s.mem a.toNat v } else s
  else match regAt a.toNat with
    | some r => { s with regs := writeReg s.regs v r }
    | none => s

/-- `DATA[0..<n]` (R37, R46). -/
def dataBytes (n : Nat) (s : State) : List Byte := loadBytes s.mem dataBase n

/-- The command payload, `DATA[0..<DATA_LEN]` (R37). -/
def commandData (s : State) : List Byte := dataBytes s.regs.dataLen.toNat s

/-- The checksum operand, `DATA[0..<CRC_LEN]` (R46). -/
def crcData (s : State) : List Byte := dataBytes s.regs.crcLen.toNat s

end Sys2Proof.Machine
end

