-- ==== Sys2Proof/Machine/Commands.lean ====
section
/-! DEFINITION. Acceptance of a command (R101, R102, R111). -/

namespace Sys2Proof.Machine

/-- The operations that need an open session (R101, R111). -/
def needsSession : Command → Bool
  | .crcGen => false
  | .crcCheck => false
  | .frame => false
  | .setup => false
  | .teardown => true
  | .wake => true
  | .sleep => true
  | .idle => true
  | .sendRecv => true
  | .sendGetRsp => true

/-- The operations refused while `FATAL = 1` (R101, R111). -/
def refusedWhileFatal : Command → Bool
  | .crcGen => false
  | .crcCheck => false
  | .frame => false
  | .setup => false
  | .teardown => false
  | .wake => true
  | .sleep => true
  | .idle => true
  | .sendRecv => true
  | .sendGetRsp => true

/-- The operations that serialize the descriptor, so that `DATA_LEN` is range-checked (R101, R111). -/
def usesDescriptor : Command → Bool
  | .crcGen => false
  | .crcCheck => false
  | .frame => true
  | .setup => false
  | .teardown => false
  | .wake => false
  | .sleep => false
  | .idle => false
  | .sendRecv => true
  | .sendGetRsp => true

/-- The first check of R101 that a command fails, in the order given there (R180). -/
def rejectReason (P : Params) (op : Command) (s : State) : Option FailReason :=
  if needsSession op ∧ isOpen s = false then some .noSession
  else if op = .setup ∧ isOpen s = true then some .sessionOpen
  else if s.fatal = true ∧ refusedWhileFatal op then some .fatalLock
  else if usesDescriptor op ∧ P.maxDataLen.val < s.regs.dataLen.toNat then some .range
  else if op = .sendRecv ∧ 252 < s.regs.rxExpectLen.toNat then some .range
  else none

/-- `issue_command` for a code of R81 (R101): `accept` is the acceptance step of the operation's rule. -/
def issue (P : Params) (op : Command) (accept : State → State) (s : State) : State :=
  match rejectReason P op (startCommon op.code s) with
  | some reason => rejectCommand reason (startCommon op.code s)
  | none => accept (startCommon op.code s)

/-- `issue_command` for a reserved code (R82, R101, R102). -/
def issueReserved (code : Byte) (s : State) : State := rejectCommand .badOpcode (startCommon code s)

end Sys2Proof.Machine
end

