-- ==== Sys2Proof/Machine/Framer.lean ====
section
/-! DEFINITION. The command framer (43_framer.md). -/

namespace Sys2Proof.Machine

/-- The bytes of an outbound frame that its checksum covers: offsets 1 to 5 + n (R86, R142, R143). -/
def frameBody (s : State) : List Byte :=
  [BitVec.ofNat 8 (7 + s.regs.dataLen.toNat), s.regs.opcode, s.regs.param1, lo8 s.regs.param2, hi8 s.regs.param2]
    ++ commandData s

/-- `Serialize()` (R142): marker, checked bytes, checksum low byte first. -/
def serialize (P : Params) (s : State) : List Byte :=
  [P.marker] ++ frameBody s ++ [lo8 (P.crc16 (frameBody s)), hi8 (P.crc16 (frameBody s))]

/-- The acceptance step of `FRAME` (R144). -/
def acceptFrame (P : Params) (s : State) : State :=
  finish .ok 0#3 0#8 .none
    { s with mem := storeBytes s.mem frameBase (serialize P s),
             frameLen := BitVec.ofNat 16 (serialize P s).length }

/-- `CMD_FRAME` (R144). -/
def execCmdFrame (s : State) : Host.Outcome State Fault Refusal :=
  .next (whenIdle (issue Config.params .frame (acceptFrame Config.params)) s)

end Sys2Proof.Machine
end

