-- ==== Sys2Proof/Machine/Checksum.lean ====
section
/-! DEFINITION. The CRC-16 unit (41_checksum.md): the validator, the default algorithm and status map, and the
commands `CRC_GEN` and `CRC_CHECK`. -/

namespace Sys2Proof.Machine

/-- `P_CRC16_VALID(s, expected)` (R14, R115). -/
def crcMatches (P : Params) (s : List Byte) (expected : Half) : Bool := P.crc16 s == expected

/-- The checksum a frame carries in its last two bytes, low byte first (R116). -/
def carriedChecksum (f : List Byte) : Half := le16 (byteAt f (f.length - 2)) (byteAt f (f.length - 1))

/-- Whether an inbound frame of length L carries the checksum of its bytes 0 to L-3 (R89, R90, R116). -/
def frameChecks (P : Params) (f : List Byte) : Bool :=
  crcMatches P (slice f 0 (f.length - 3)) (carriedChecksum f)

/-! ### The defaults (R114, R176, R12), for tests and for claims that name them as a premise -/

/-- One data bit into the default checksum's register (R114). -/
def crcBit (crc : Half) (d : Bool) : Half :=
  if d == crc.getLsbD 15 then crc <<< 1 else (crc <<< 1) ^^^ 0x8005

/-- One byte into the register, least significant bit first (R114). -/
def crcByte (crc : Half) (b : Byte) : Half :=
  [0, 1, 2, 3, 4, 5, 6, 7].foldl (fun c i => crcBit c (b.getLsbD i)) crc

/-- `CRC16_DEFAULT` (R114). -/
def crc16Default (s : List Byte) : Half := s.foldl crcByte 0x0000

/-- The default `P_STATUS_MAP` (R176). -/
def statusMapDefault (b : Byte) : Option StatusCode :=
  if b = 0x00 then some .success
  else if b = 0x01 then some .checkMacMiscompare
  else if b = 0x03 then some .parseError
  else if b = 0x05 then some .eccFault
  else if b = 0x0F then some .executionError
  else if b = 0x11 then some .awake
  else if b = 0xFF then some .communicationError
  else none

/-- The default parameters (R12, R114, R176) with a given `MAX_DATA_LEN`, which has no default (R10). -/
def defaultParams (maxDataLen : Fin 249) : Params :=
  { crc16 := crc16Default, statusMap := statusMapDefault, marker := 0x03, maxDataLen := maxDataLen }

/-! ### Commands -/

/-- The acceptance step of `CRC_GEN` (R117). -/
def acceptCrcGen (P : Params) (s : State) : State :=
  finish .ok 0#3 0#8 .none { s with crcResult := P.crc16 (crcData s) }

/-- The acceptance step of `CRC_CHECK` (R118). -/
def acceptCrcCheck (P : Params) (s : State) : State :=
  finish .ok 0#3 0#8 .none
    { s with crcResult := P.crc16 (crcData s), crcValid := crcMatches P (crcData s) s.regs.crcExpect }

/-- `CMD_CRC_GEN` (R117). -/
def execCmdCrcGen (s : State) : Host.Outcome State Fault Refusal :=
  .next (whenIdle (issue Config.params .crcGen (acceptCrcGen Config.params)) s)

/-- `CMD_CRC_CHECK` (R118). -/
def execCmdCrcCheck (s : State) : Host.Outcome State Fault Refusal :=
  .next (whenIdle (issue Config.params .crcCheck (acceptCrcCheck Config.params)) s)

end Sys2Proof.Machine
end

