-- ==== Sys2Proof/Machine/Transport.lean ====
section
/-! DEFINITION. The bus transport (42_transport.md): session and device control. A definition named after a
label is that label's step after its port call has been answered. -/

namespace Sys2Proof.Machine

/-- The wake pulse (R84). -/
def wakePulse : List Byte := [0x00#8, 0x00#8]

/-- The sleep control byte (R85). -/
def sleepByte : List Byte := [0x01#8]

/-- The idle control byte (R85). -/
def idleByte : List Byte := [0x02#8]

/-- A counter of 8 bits that saturates at 255 is advanced (R54, R55). -/
def bump (n : Nat) : Nat := min (n + 1) 255

/-! ### WakeProc (R127) -/

/-- `WakeProc` from its start, within `SETUP` or `WAKE` (R127). -/
def startWake (op : Command) (s : State) : State :=
  gotoLabel op .wWrite { s with ctr := { s.ctr with wakeCnt := 0 } }

/-- Whether a read answer acknowledges a wake pulse: four bytes, the last two the checksum of the first two
(R127, R135). -/
def wakeAck (P : Params) (r : ReadAnswer) : Bool :=
  match r with
  | .err => false
  | .data b => decide (b.length = 4) && frameChecks P b

/-- A failed wake attempt is counted, and the cap is tested (R127). -/
def wakeRetry (op : Command) (s : State) : State :=
  if s.regs.wakeCap ≠ 0#8 ∧ s.regs.wakeCap.toNat ≤ bump s.ctr.wakeCnt then
    raise .fail .wakeTimeout { s with ctr := { s.ctr with wakeCnt := bump s.ctr.wakeCnt } }
  else gotoLabel op .wWrite { s with ctr := { s.ctr with wakeCnt := bump s.ctr.wakeCnt } }

/-- `W_READ` (R127). -/
def afterWakeRead (P : Params) (op : Command) (r : ReadAnswer) (s : State) : State :=
  if wakeAck P r then finish .ok 0#3 0#8 .none (wipeRx (loadRx r s)) else wakeRetry op (wipeRx (loadRx r s))

/-! ### The other labels -/

/-- `S_OPEN` (R128, R178, R179). -/
def afterOpen (ok : Bool) (s : State) : State :=
  if ok then startWake .setup { s with session := .opened s.regs.busAddr, fatal := false }
  else raise .fatalErr .openFail { s with fatal := true }

/-- `T_CLOSE` (R129). -/
def afterClose (s : State) : State := finish .ok 0#3 0#8 .none { s with session := .closed }

/-- `C_WRITE` of `SLEEP` and `IDLE` (R131, R132). -/
def afterControlWrite (w : Int) (s : State) : State :=
  if w = 1 then finish .ok 0#3 0#8 .none s else raise .fail .writeCount s

/-! ### Commands -/

/-- The acceptance step of `SETUP` (R128). -/
def acceptSetup (s : State) : State := gotoLabel .setup .sOpen s

/-- The acceptance step of `TEARDOWN` (R129). -/
def acceptTeardown (s : State) : State :=
  gotoLabel .teardown (if s.fatal then .tClose else .tSleep) s

/-- The acceptance step of `WAKE` (R130). -/
def acceptWake (s : State) : State := startWake .wake s

/-- The acceptance step of `SLEEP` (R131). -/
def acceptSleep (s : State) : State := gotoLabel .sleep .cWrite s

/-- The acceptance step of `IDLE` (R132). -/
def acceptIdle (s : State) : State := gotoLabel .idle .cWrite s

/-- `CMD_SETUP` (R128). -/
def execCmdSetup (s : State) : Host.Outcome State Fault Refusal :=
  .next (whenIdle (issue Config.params .setup acceptSetup) s)

/-- `CMD_TEARDOWN` (R129). -/
def execCmdTeardown (s : State) : Host.Outcome State Fault Refusal :=
  .next (whenIdle (issue Config.params .teardown acceptTeardown) s)

/-- `CMD_WAKE` (R130). -/
def execCmdWake (s : State) : Host.Outcome State Fault Refusal :=
  .next (whenIdle (issue Config.params .wake acceptWake) s)

/-- `CMD_SLEEP` (R131). -/
def execCmdSleep (s : State) : Host.Outcome State Fault Refusal :=
  .next (whenIdle (issue Config.params .sleep acceptSleep) s)

/-- `CMD_IDLE` (R132). -/
def execCmdIdle (s : State) : Host.Outcome State Fault Refusal :=
  .next (whenIdle (issue Config.params .idle acceptIdle) s)

end Sys2Proof.Machine
end

