-- ==== Sys2Proof/Machine/Engine.lean ====
section
/-! DEFINITION. The request/response engine (44_engine.md): Mode A and Mode B. A definition named after a label
is that label's step after its port call has been answered. -/

namespace Sys2Proof.Machine

/-! ### Mode A (R151 to R159) -/

/-- A Mode A classification (R151). -/
inductive Classified where
  | nak
  | st (c : StatusCode)
  | dat (payload : List Byte)
  | unmapped
deriving DecidableEq, Repr

/-- `ParseStatus(s)` for the four bytes of a status frame (R152). -/
def parseStatus (P : Params) (f : List Byte) : Classified :=
  if frameChecks P f then
    match P.statusMap (byteAt f 1) with
    | some c => .st c
    | none => .unmapped
  else .st .communicationError

/-- `ClassifyA(r)` against `RECV_LEN` (R91, R151). -/
def classifyA (P : Params) (recvLen : Nat) : ReadAnswer → Classified
  | .err => .nak
  | .data r =>
    if r.length ≠ recvLen then .nak
    else if byteAt r 0 = 0x04#8 ∧ 4 ≤ recvLen then parseStatus P (slice r 0 3)
    else if (byteAt r 0).toNat = recvLen then
      if frameChecks P r then .dat (slice r 1 (recvLen - 3)) else .st .communicationError
    else .nak

/-- `A_WRITE` (R153, R156). -/
def afterWriteA (op : Command) (w : Int) (s : State) : State :=
  if w ≤ 1 then raise .fatalErr .fatalSend { wipeTx s with fatal := true }
  else gotoLabel op .aDelay { s with ctr := { s.ctr with nakCnt := 0 } }

/-- The end of one outer iteration of Mode A, which resends on Awake and otherwise finishes by `done` (R153,
R154). -/
def endOuter (op : Command) (awake : Bool) (done : State → State) (s : State) : State :=
  if awake = true ∧ 0 < s.ctr.outerLeft - 1 then
    gotoLabel op .aWrite { s with ctr := { s.ctr with outerLeft := s.ctr.outerLeft - 1 } }
  else done (wipeTx { s with ctr := { s.ctr with outerLeft := s.ctr.outerLeft - 1 } })

/-- Mode A goes on from a status other than NAK: `finish(STATUS, index(c))`, unless it is resent (R153). -/
def afterStatusA (op : Command) (c : StatusCode) (s : State) : State :=
  endOuter op (c == .awake) (finish .status (statusIndex c) 0#8 .none) s

/-- A NAK in Mode A: counted, and re-read unless `NAK_CAP` ends the inner loop (R153, R155). -/
def afterNakA (op : Command) (s : State) : State :=
  if s.regs.nakCap = 0#8 ∨ bump s.ctr.nakCnt < s.regs.nakCap.toNat then
    gotoLabel op .aDelay { s with ctr := { s.ctr with nakCnt := bump s.ctr.nakCnt } }
  else afterStatusA op .nak { s with ctr := { s.ctr with nakCnt := bump s.ctr.nakCnt } }

/-- What Mode A does with a classification, once `RXBUF` is wiped (R153, R158). A status byte that the map
sends to NAK counts as a NAK (R155). -/
def afterClassA (op : Command) (v : Classified) (s : State) : State :=
  match v with
  | .unmapped => raise .internalErr .unmappedStatus (wipeTx s)
  | .nak => afterNakA op s
  | .st c => if c = .nak then afterNakA op s else afterStatusA op c s
  | .dat _ => endOuter op false (finish .payload 0#3 s.regs.rxExpectLen .none) s

/-- The copy of a payload to `RESULT` (R153, R157, R165). -/
def storeResult (p : List Byte) (s : State) : State := { s with mem := storeBytes s.mem resultBase p }

/-- The payload of a `Dat` classification is copied to `RESULT` (R153, R157). -/
def copyPayload (v : Classified) (s : State) : State :=
  match v with
  | .dat p => storeResult p s
  | .nak => s
  | .st _ => s
  | .unmapped => s

/-- `A_READ` (R153). -/
def afterReadA (P : Params) (op : Command) (r : ReadAnswer) (s : State) : State :=
  afterClassA op (classifyA P s.ctr.recvLen r) (wipeRx (copyPayload (classifyA P s.ctr.recvLen r) (loadRx r s)))

/-! ### Mode B (R160 to R167) -/

/-- `raise NULL(reason)` after `wipe(RXBUF)` (R160, R167). -/
def nullResult (reason : FailReason) (s : State) : State := raise .null reason (wipeRx s)

/-- `B_WRITE` (R160): sent once, wiped at once, then `ReadWithRetry` from its start (R126). -/
def afterWriteB (op : Command) (w : Int) (s : State) : State :=
  if w ≤ 1 then raise .null .writeCount (wipeTx s)
  else gotoLabel op .bRead1 { wipeTx s with ctr := { s.ctr with rdAttempt := 1 } }

/-- `VALIDATE` of the `N` bytes in `RXBUF` (R160, R164, R165). -/
def validateB (P : Params) (s : State) : State :=
  if frameChecks P s.rxbuf.bytes then
    finish .payload 0#3 (BitVec.ofNat 8 (s.ctr.frameTotal - 3)) .none
      (wipeRx (storeResult (slice s.rxbuf.bytes 1 (s.ctr.frameTotal - 3)) s))
  else nullResult .checksum s

/-- The first chunk `c` of exactly four bytes, classified by its first byte (R92, R160, R162). -/
def classifyFirstB (P : Params) (op : Command) (c : List Byte) (s : State) : State :=
  if byteAt c 0 = 0x04#8 then validateB P { s with ctr := { s.ctr with frameTotal := 4 } }
  else if 5 ≤ (byteAt c 0).toNat ∧ (byteAt c 0).toNat ≤ s.regs.rxMaxLen.toNat then
    gotoLabel op .bRead2 { s with ctr := { s.ctr with frameTotal := (byteAt c 0).toNat } }
  else nullResult .badLength s

/-- `B_READ1`, the read of `ReadWithRetry` and what follows its return (R126, R160, R161). -/
def afterRead1B (P : Params) (op : Command) (r : ReadAnswer) (s : State) : State :=
  match r with
  | .err =>
    if s.ctr.rdAttempt < Config.readMaxAttempts then
      gotoLabel op .bDelay { s with ctr := { s.ctr with rdAttempt := s.ctr.rdAttempt + 1 } }
    else nullResult .readError (loadRx .err s)
  | .data c =>
    if c.length = 4 then classifyFirstB P op c (loadRx (.data c) s)
    else nullResult .readError (loadRx (.data c) s)

/-- `B_READ2` (R160, R163). -/
def afterRead2B (P : Params) (r : ReadAnswer) (s : State) : State :=
  match r with
  | .err => nullResult .reassembly s
  | .data t =>
    if t.length = s.ctr.frameTotal - 4 then validateB P { s with rxbuf := Buffer.ofBytes (s.rxbuf.bytes ++ t) }
    else nullResult .reassembly s

/-! ### Commands -/

/-- The acceptance step of `SEND_RECV` (R153). -/
def acceptSendRecv (P : Params) (s : State) : State :=
  gotoLabel .sendRecv .aWrite
    { s with txbuf := Buffer.ofBytes (serialize P s),
             ctr := { s.ctr with recvLen := s.regs.rxExpectLen.toNat + 3, outerLeft := Config.numRetries } }

/-- The acceptance step of `SEND_GET_RSP` (R160). -/
def acceptSendGetRsp (P : Params) (s : State) : State :=
  gotoLabel .sendGetRsp .bWrite { s with txbuf := Buffer.ofBytes (serialize P s) }

/-- `CMD_SEND_RECV` (R153). -/
def execCmdSendRecv (s : State) : Host.Outcome State Fault Refusal :=
  .next (whenIdle (issue Config.params .sendRecv (acceptSendRecv Config.params)) s)

/-- `CMD_SEND_GET_RSP` (R160). -/
def execCmdSendGetRsp (s : State) : Host.Outcome State Fault Refusal :=
  .next (whenIdle (issue Config.params .sendGetRsp (acceptSendGetRsp Config.params)) s)

end Sys2Proof.Machine
end

