-- ==== Sys2Proof/Machine/HostAccess.lean ====
section
/-! DEFINITION. The host's own transactions (40_host_interface.md): reads, writes, `CLEAR`, reserved codes. -/

namespace Sys2Proof.Machine

/-- The acceptance step of a command's rule. -/
def acceptCommand (P : Params) : Command → State → State
  | .crcGen => acceptCrcGen P
  | .crcCheck => acceptCrcCheck P
  | .frame => acceptFrame P
  | .setup => acceptSetup
  | .teardown => acceptTeardown
  | .wake => acceptWake
  | .sleep => acceptSleep
  | .idle => acceptIdle
  | .sendRecv => acceptSendRecv P
  | .sendGetRsp => acceptSendGetRsp P

/-- `issue_command(v)` (R101). -/
def issueCommand (P : Params) (v : Byte) (s : State) : State :=
  match commandOfCode v with
  | some op => issue P op (acceptCommand P op) s
  | none => issueReserved v s

/-- `MemWrite(a, 1, v)` (R100), whatever the address. -/
def memWrite (P : Params) (a : HostAddr) (v : Byte) (s : State) : State :=
  whenIdle
    (fun t =>
      if a = 0x000#10 then issueCommand P v t
      else if a = 0x002#10 then (if v.extractLsb' 0 1 = 1#1 then clearResult t else t)
      else writeByte a v t) s

/-- The byte a `MemRead` returns reaches the host (R59, R99). -/
def memRead (a : HostAddr) (s : State) : State := { s with env := { s.env with hostData := readByte a s } }

/-- `CMD_RESERVED` (R82, R101, R102). -/
def execCmdReserved (code : Byte) (s : State) : Host.Outcome State Fault Refusal :=
  .next (whenIdle (issueReserved code) s)

/-- `CLEAR` (R106). The data byte's bits 7:1 are ignored (R83). -/
def execClear (s : State) : Host.Outcome State Fault Refusal := .next (whenIdle clearResult s)

/-- `CLEAR_NOP` (R83): no effect while IDLE; a write like any other while BUSY (R103). -/
def execClearNop (s : State) : Host.Outcome State Fault Refusal := .next (whenIdle id s)

/-- `REG_WRITE` (R100). -/
def execRegWrite (addr : HostAddr) (data : Byte) (s : State) : Host.Outcome State Fault Refusal :=
  .next (memWrite Config.params addr data s)

/-- `REG_READ` (R99): no side effect on the block, BUSY or not. -/
def execRegRead (addr : HostAddr) (s : State) : Host.Outcome State Fault Refusal := .next (memRead addr s)

end Sys2Proof.Machine
end

