-- ==== Sys2Proof/Machine/Ports.lean ====
section
/-! DEFINITION. The block's port steps (R2, R22, R23): which call each label issues, and the step it makes when
that call is answered. -/

namespace Sys2Proof.Machine

/-- The sequence the FSM's next port call writes to the bus; none at a label that writes nothing (R95). -/
def outbound (s : State) : Option (List Byte) :=
  match s.fsm with
  | .idle => none
  | .run op label =>
    match label with
    | .wWrite => some wakePulse
    | .tSleep => some sleepByte
    | .cWrite => some (if op = .idle then idleByte else sleepByte)
    | .aWrite => some s.txbuf.bytes
    | .bWrite => some s.txbuf.bytes
    | .sOpen => none
    | .wRead => none
    | .tClose => none
    | .aDelay => none
    | .aRead => none
    | .bRead1 => none
    | .bDelay => none
    | .bRead2 => none

/-- The number of bytes the FSM's next port call reads from the bus; none at a label that reads nothing. -/
def readWant (s : State) : Option Nat :=
  match s.fsm with
  | .idle => none
  | .run _ label =>
    match label with
    | .wRead => some 4
    | .aRead => some s.ctr.recvLen
    | .bRead1 => some 4
    | .bRead2 => some (s.ctr.frameTotal - 4)
    | .sOpen => none
    | .wWrite => none
    | .tSleep => none
    | .tClose => none
    | .cWrite => none
    | .aWrite => none
    | .aDelay => none
    | .bWrite => none
    | .bDelay => none

/-- The label's step after its `BusWrite` is answered `w`. -/
def afterWrite (w : Int) (s : State) : State :=
  match s.fsm with
  | .idle => s
  | .run op label =>
    match label with
    | .wWrite => gotoLabel op .wRead s
    | .tSleep => gotoLabel op .tClose s
    | .cWrite => afterControlWrite w s
    | .aWrite => afterWriteA op w s
    | .bWrite => afterWriteB op w s
    | .sOpen => s
    | .wRead => s
    | .tClose => s
    | .aDelay => s
    | .aRead => s
    | .bRead1 => s
    | .bDelay => s
    | .bRead2 => s

/-- The label's step after its `BusRead` is answered `r`. -/
def afterRead (P : Params) (r : ReadAnswer) (s : State) : State :=
  match s.fsm with
  | .idle => s
  | .run op label =>
    match label with
    | .wRead => afterWakeRead P op r s
    | .aRead => afterReadA P op r s
    | .bRead1 => afterRead1B P op r s
    | .bRead2 => afterRead2B P r s
    | .sOpen => s
    | .wWrite => s
    | .tSleep => s
    | .tClose => s
    | .cWrite => s
    | .aWrite => s
    | .aDelay => s
    | .bWrite => s
    | .bDelay => s

/-- The step of a label whose port call carries no bytes: open, close, delay (R124). -/
def silentStep (s : State) : State :=
  match s.fsm with
  | .idle => s
  | .run op label =>
    match label with
    | .sOpen => afterOpen (openAnswer s) (logCall (.busOpen s.regs.busAddr) (dropOpen s))
    | .tClose => afterClose (logCall .busClose s)
    | .aDelay => gotoLabel op .aRead (logCall (.delay s.regs.execTime) s)
    | .bDelay => gotoLabel op .bRead1 (logCall (.delay s.regs.execTime) s)
    | .wWrite => s
    | .wRead => s
    | .tSleep => s
    | .cWrite => s
    | .aWrite => s
    | .aRead => s
    | .bWrite => s
    | .bRead1 => s
    | .bRead2 => s

/-- `BusWrite(bytes)` is issued and answered (R22, R123). -/
def sendBytes (bytes : List Byte) (s : State) : State :=
  afterWrite (writeAnswer bytes.length s) (logCall (.busWrite bytes) (dropWrite s))

/-- A sequence appears on the bus: the block sends it when it is what its next port call writes. The block
emits nothing else (R95), so otherwise nothing happens. Log 6. -/
def emit (bytes : List Byte) (s : State) : State :=
  if outbound s = some bytes then sendBytes bytes s else s

/-- `BusRead(n)` is issued and answered `r`, the answer being already consumed (R22, R123). -/
def receive (P : Params) (n : Nat) (r : ReadAnswer) (s : State) : State :=
  afterRead P r (logCall (.busRead n) s)

/-- The part of an inbound frame that the read of `n` bytes delivers: at `B_READ2` the tail after the
bytes already in `RXBUF`, elsewhere its first `n` bytes (R153, R160, R163). -/
def framePart (s : State) (n : Nat) (frame : List Byte) : List Byte :=
  match s.fsm with
  | .run _ .bRead2 => (frame.drop s.rxbuf.len).take n
  | _ => frame.take n

/-- An inbound frame arrives: it answers the read the FSM's next port call makes. Without such a read the block
takes nothing from the bus (R22, R62). Log 7. -/
def deliver (P : Params) (frame : List Byte) (s : State) : State :=
  match readWant s with
  | some n => receive P n (.data (framePart s n frame)) s
  | none => s

/-- One step of the block FSM: its next port call, answered by the oracle (R2, R22). While IDLE it waits for
the host (R190). -/
def blockStep (P : Params) (s : State) : State :=
  match outbound s with
  | some bytes => sendBytes bytes s
  | none =>
    match readWant s with
    | some n => receive P n (readAnswer n s) (dropRead s)
    | none => silentStep s

end Sys2Proof.Machine
end

