-- ==== Sys2Proof/Machine/Wire.lean ====
section
/-! DEFINITION. The wire rows of the opcode table: the port step in which the block sends an outbound sequence
(R84 to R86), or receives an inbound frame (R89, R90). -/

namespace Sys2Proof.Machine

/-- `WIRE_WAKE` (R84): the pulse of `WakeProc` (R127). -/
def execWireWake (s : State) : Host.Outcome State Fault Refusal := .next (emit wakePulse s)

/-- `WIRE_SLEEP` (R85): sent by `SLEEP` (R131) and `TEARDOWN` (R129). -/
def execWireSleep (s : State) : Host.Outcome State Fault Refusal := .next (emit sleepByte s)

/-- `WIRE_IDLE` (R85): sent by `IDLE` (R132). -/
def execWireIdle (s : State) : Host.Outcome State Fault Refusal := .next (emit idleByte s)

/-- `WIRE_CMD` (R86): the frame in `TXBUF`, sent by `SEND_RECV` (R153) and `SEND_GET_RSP` (R160). -/
def execWireCmd (f : CmdFrame) (s : State) : Host.Outcome State Fault Refusal := .next (emit f.bytes s)

/-- `IN_STATUS` (R89): classified by R152 in Mode A, by R164 and R166 in Mode B, and checked by R127 as a wake
acknowledgment. -/
def execInStatus (status crcLo crcHi : Byte) (trailing : List Byte) (s : State) : Host.Outcome State Fault Refusal :=
  .next (deliver Config.params (statusFrameBytes status crcLo crcHi trailing) s)

/-- `IN_DATA` (R90): classified by R151 in Mode A and by R163 to R165 in Mode B. -/
def execInData (total : Byte) (payload : List Byte) (crcLo crcHi : Byte) (s : State) : Host.Outcome State Fault Refusal :=
  .next (deliver Config.params (dataFrameBytes total payload crcLo crcHi) s)

end Sys2Proof.Machine
end

