-- ==== Sys2Proof/Machine/Dispatch.lean ====
section
/-! DEFINITION. One arm per row of the opcode table. -/

namespace Sys2Proof.Machine

/-- The meaning of an instruction. -/
def exec (i : Instr) (s : State) : Host.Outcome State Fault Refusal :=
  match i with
  | .cmdCrcGen => Sys2Proof.Machine.execCmdCrcGen s
  | .cmdCrcCheck => Sys2Proof.Machine.execCmdCrcCheck s
  | .cmdFrame => Sys2Proof.Machine.execCmdFrame s
  | .cmdSetup => Sys2Proof.Machine.execCmdSetup s
  | .cmdTeardown => Sys2Proof.Machine.execCmdTeardown s
  | .cmdWake => Sys2Proof.Machine.execCmdWake s
  | .cmdSleep => Sys2Proof.Machine.execCmdSleep s
  | .cmdIdle => Sys2Proof.Machine.execCmdIdle s
  | .cmdSendRecv => Sys2Proof.Machine.execCmdSendRecv s
  | .cmdSendGetRsp => Sys2Proof.Machine.execCmdSendGetRsp s
  | .cmdReserved code => Sys2Proof.Machine.execCmdReserved code s
  | .clear _ => Sys2Proof.Machine.execClear s
  | .clearNop _ => Sys2Proof.Machine.execClearNop s
  | .regWrite addr data => Sys2Proof.Machine.execRegWrite addr data s
  | .regRead addr _ => Sys2Proof.Machine.execRegRead addr s
  | .wireWake => Sys2Proof.Machine.execWireWake s
  | .wireSleep => Sys2Proof.Machine.execWireSleep s
  | .wireIdle => Sys2Proof.Machine.execWireIdle s
  | .wireCmd f => Sys2Proof.Machine.execWireCmd f s
  | .inStatus status crcLo crcHi trailing => Sys2Proof.Machine.execInStatus status crcLo crcHi trailing s
  | .inData total payload crcLo crcHi => Sys2Proof.Machine.execInData total payload crcLo crcHi s

end Sys2Proof.Machine
end

