-- ==== Sys2Proof/Machine/Fetch.lean ====
section
/-! DEFINITION. What the next step runs: whose turn it is, and the instruction its word or bytes decode to. -/

namespace Sys2Proof.Machine

/-- What a step does: run an instruction, make a move that is no row of the opcode table, or stop. -/
inductive Fetched where
  | instr (i : Instr) (s : State)
  | moved (s : State)
  | stuck (f : Fault)
deriving DecidableEq, Repr

/-- The frame a read answer completes: at `B_READ2` the bytes already in `RXBUF` followed by the answer (R163),
elsewhere the answer alone. -/
def completedFrame (s : State) (bytes : List Byte) : List Byte :=
  match s.fsm with
  | .run _ .bRead2 => s.rxbuf.bytes ++ bytes
  | _ => bytes

/-- The inbound frame that a read answer of exactly the asked length completes, if it has a frame's shape. -/
def inboundInstr (s : State) (n : Nat) : ReadAnswer → Option Instr
  | .err => none
  | .data bytes => if bytes.length = n then decodeInbound (completedFrame s bytes) else none

/-- The block FSM's turn: the sequence its port call writes, or the frame its read receives, is decoded; what
is no row of the table (open, close, delay, `Err`, bytes of no frame) is the block's step itself. -/
def fetchPort (s : State) : Fetched :=
  match s.fsm with
  | .idle => .moved s
  | .run op label =>
    if label ∈ labelsOf op then
      match outbound s with
      | some bytes =>
        match decodeOutbound bytes with
        | some i => .instr i s
        | none => .moved (blockStep Config.params s)
      | none =>
        match readWant s with
        | some n =>
          match inboundInstr s n (readAnswer n s) with
          | some i => .instr i (dropRead s)
          | none => .moved (blockStep Config.params s)
        | none => .moved (blockStep Config.params s)
    else .stuck .undefinedLabel

/-- The turns still to come. -/
def setAgenda (turns : List Turn) (s : State) : State := { s with env := { s.env with agenda := turns } }

/-- Whose turn it is (R3, R59, R138, R191): the agenda's first turn, and the block FSM's when it is empty. -/
def fetch (s : State) : Fetched :=
  match s.env.agenda with
  | .host word :: rest => .instr (decodeHost word) (setAgenda rest s)
  | .reset :: rest => .moved (resetBlock (setAgenda rest s))
  | .port :: rest => fetchPort (setAgenda rest s)
  | [] => fetchPort s

/-! ### Placing an instruction where the next step fetches it -/

/-- The FSM at a label whose port call a wire row is, with the session that R133 asks for. -/
def atLabel (op : Command) (label : Label) (s : State) : State :=
  { s with fsm := .run op label, session := .opened s.regs.busAddr }

/-- An outbound sequence placed: the FSM is about to send it. -/
def placeOutbound (i : Instr) (bytes : List Byte) (s : State) : State :=
  match i with
  | .wireWake => atLabel .wake .wWrite s
  | .wireSleep => atLabel .sleep .cWrite s
  | .wireIdle => atLabel .idle .cWrite s
  | _ => atLabel .sendGetRsp .bWrite { s with txbuf := Buffer.ofBytes bytes }

/-- An inbound frame placed: the FSM is about to read it, a 4-byte frame as Mode B's first chunk, a frame of
another length as Mode A's answer. -/
def placeInbound (bytes : List Byte) (s : State) : State :=
  let t := { s with env := { s.env with readAnswers := .data bytes :: s.env.readAnswers } }
  if bytes.length = 4 then atLabel .sendGetRsp .bRead1 { t with ctr := { t.ctr with rdAttempt := 1 } }
  else atLabel .sendRecv .aRead { t with ctr := { t.ctr with recvLen := bytes.length } }

/-- An instruction, as the opcode table numbers its bits, placed where the next step fetches it. -/
def placeWord (nbits w : Nat) (s : State) : State :=
  if 19 ≤ nbits ∧ nbits ≤ 24 then setAgenda (.host (BitVec.ofNat 19 w) :: s.env.agenda) s
  else
    let t := setAgenda (.port :: s.env.agenda) s
    match decodeOutbound (wireBytes (nbits / 8) w) with
    | some i => placeOutbound i (wireBytes (nbits / 8) w) t
    | none => placeInbound (wireBytes (nbits / 8) w) t

end Sys2Proof.Machine
end

