-- ==== Sys2Proof/Machine/Step.lean ====
section
/-! DEFINITION. One step of the machine (R2): one turn of one agent. -/

namespace Sys2Proof.Machine

/-- One step: the next turn is fetched, and an instruction it decodes to is executed. -/
def step (s : State) : Host.Outcome State Fault Refusal :=
  match fetch s with
  | .instr i t => exec i t
  | .moved t => .next t
  | .stuck f => .fault f

/-- The state in which the very next step runs the given table word (log 5). -/
def State.withFetchWord (s : State) (nbits w : Nat) : State := placeWord nbits w s

end Sys2Proof.Machine
end

