-- ==== Sys2Proof/Safety.lean ====
section
/-! DEFINITION. What a safe run is: the invariant of the block's reachable states, and the terms the statements
about whole steps use. -/

namespace Sys2Proof.Machine

/-! ### Results -/

/-- The reasons that each result kind is produced with (R33, R175). -/
def reasonsOf : ResultKind → List FailReason
  | .none => [.none]
  | .ok => [.none]
  | .fail => [.writeCount, .wakeTimeout]
  | .status => [.none]
  | .payload => [.none]
  | .null => [.writeCount, .readError, .badLength, .reassembly, .checksum]
  | .fatalErr => [.openFail, .fatalSend]
  | .internalErr => [.unmappedStatus]
  | .rejected => [.badOpcode, .noSession, .sessionOpen, .fatalLock, .range]

/-- The result registers agree with each other (R31, R32, R33, R175). -/
structure Result.Agrees (r : Result) : Prop where
  /-- The reason is one the kind is produced with (R33, R175). -/
  reason : r.reason ∈ reasonsOf r.kind
  /-- Only a STATUS result has a status other than 0 (R31, R158). -/
  status : r.kind = .status ∨ r.status = 0
  /-- Only a PAYLOAD result has a length other than 0 (R32, R158, R167). -/
  payload : r.kind = .payload ∨ r.len = 0
  /-- A payload has at most 252 bytes (R32). -/
  len : r.len.toNat ≤ 252

/-! ### The invariant -/

/-- What holds while the FSM is about to make the port call of `label` (R52, R73, R74, R111, R133, R149). -/
def LabelInv (s : State) : Label → Prop
  | .sOpen => s.session = .closed ∧ s.txbuf = Buffer.wiped ∧ s.rxbuf = Buffer.wiped
  | .wWrite => isOpen s = true ∧ s.fatal = false ∧ s.txbuf = Buffer.wiped ∧ s.rxbuf = Buffer.wiped
  | .wRead => isOpen s = true ∧ s.fatal = false ∧ s.txbuf = Buffer.wiped ∧ s.rxbuf = Buffer.wiped
  | .tSleep => isOpen s = true ∧ s.fatal = false ∧ s.txbuf = Buffer.wiped ∧ s.rxbuf = Buffer.wiped
  | .tClose => isOpen s = true ∧ s.txbuf = Buffer.wiped ∧ s.rxbuf = Buffer.wiped
  | .cWrite => isOpen s = true ∧ s.fatal = false ∧ s.txbuf = Buffer.wiped ∧ s.rxbuf = Buffer.wiped
  | .aWrite => ModeAInv s
  | .aDelay => ModeAInv s
  | .aRead => ModeAInv s
  | .bWrite => isOpen s = true ∧ s.fatal = false ∧ FrameInTx s ∧ s.rxbuf = Buffer.wiped
  | .bRead1 => isOpen s = true ∧ s.fatal = false ∧ s.txbuf = Buffer.wiped ∧ s.rxbuf = Buffer.wiped ∧ 1 ≤ s.ctr.rdAttempt
  | .bDelay => isOpen s = true ∧ s.fatal = false ∧ s.txbuf = Buffer.wiped ∧ s.rxbuf = Buffer.wiped ∧ 1 ≤ s.ctr.rdAttempt
  | .bRead2 => isOpen s = true ∧ s.fatal = false ∧ s.txbuf = Buffer.wiped ∧ s.rxbuf.len = 4 ∧ 5 ≤ s.ctr.frameTotal
where
  /-- `TXBUF` holds the frame of the descriptor as it stands, which was in range at acceptance (R101, R112, R149). -/
  FrameInTx (s : State) : Prop :=
    s.txbuf = Buffer.ofBytes (serialize Config.params s) ∧ s.regs.dataLen.toNat ≤ Config.maxDataLen.val
  /-- The running `SEND_RECV` (R153, R54). -/
  ModeAInv (s : State) : Prop :=
    isOpen s = true ∧ s.fatal = false ∧ FrameInTx s ∧ s.rxbuf = Buffer.wiped ∧ 1 ≤ s.ctr.outerLeft ∧
      s.regs.rxExpectLen.toNat ≤ 252 ∧ s.ctr.recvLen = s.regs.rxExpectLen.toNat + 3

/-- What holds of the sequencer: IDLE with both scratch buffers wiped (R170), or an operation at a label of its
own (R52) whose results are not out yet (R107). -/
def FsmInv (s : State) : Prop :=
  match s.fsm with
  | .idle => s.txbuf = Buffer.wiped ∧ s.rxbuf = Buffer.wiped
  | .run op label =>
    label ∈ labelsOf op ∧ s.done = false ∧ s.result = Result.cleared ∧ s.frameLen = 0 ∧ LabelInv s label

/-- The counters stay in the ranges of R54 to R56. -/
structure Counters.InRange (c : Counters) : Prop where
  outerLeft : c.outerLeft ≤ 10
  nakCnt : c.nakCnt ≤ 255
  recvLen : c.recvLen ≤ 255
  wakeCnt : c.wakeCnt ≤ 255
  rdAttempt : c.rdAttempt ≤ 3
  frameTotal : c.frameTotal ≤ 255

/-- The invariant of the block. -/
structure State.Inv (s : State) : Prop where
  /-- Memory has its canonical form. -/
  memWf : Memory.wf s.mem
  /-- Memory holds the three buffers and nothing else (R50, R60). -/
  memRange : ∀ c ∈ s.mem, 0x100 ≤ c.1 ∧ c.1 < 0x400
  /-- The scratch buffers have their canonical form. -/
  txWf : Memory.wf s.txbuf.cells
  rxWf : Memory.wf s.rxbuf.cells
  /-- Every byte of `RESULT` at index `RESULT_LEN` or above is zero (R50). -/
  resultTail : ∀ i, s.result.len.toNat ≤ i → i < 256 → loadByte s.mem (0x200 + i) = 0x00
  /-- Every byte of `FRAME` at index `FRAME_LEN` or above is zero (R50). -/
  frameTail : ∀ i, s.frameLen.toNat ≤ i → i < 256 → loadByte s.mem (0x300 + i) = 0x00
  /-- `FRAME_LEN` is 0 or the length of a frame (R45). -/
  frameLen : s.frameLen = 0 ∨ (8 ≤ s.frameLen.toNat ∧ s.frameLen.toNat ≤ 256)
  /-- The result registers agree (R31 to R33). -/
  result : s.result.Agrees
  /-- The counters are in range (R54 to R56). -/
  counters : s.ctr.InRange
  /-- The sequencer, its session and its buffers agree. -/
  fsm : FsmInv s

/-! ### Terms of the statements -/

/-- A step that goes on: neither a fault nor a refusal. -/
def GoesOn (o : Host.Outcome State Fault Refusal) : Prop := ∃ t, o = .next t

/-- The bytes of a memory from address `a` upward, `n` of them: the model's read of one byte at each address. -/
def bytesAt (m : Memory) (a n : Nat) : List Byte := (List.range n).map fun i => loadByte m (a + i)

/-- `t`'s memory is `s`'s with `RESULT` and `FRAME` reading zero: what the start of a command leaves of it
(R104), every byte of `DATA` as before. -/
def ResultsWiped (s t : State) : Prop :=
  ∀ a, loadByte t.mem a = if 0x200 ≤ a ∧ a < 0x400 then 0x00 else loadByte s.mem a

/-- `t` is `s` with one port call issued and the environment otherwise as `u`'s. -/
def called (s : State) (c : PortCall) (u : State) : Env := { u.env with calls := c :: s.env.calls }

/-- The number of frames and control sequences written to the bus among the calls. -/
def writesIn (calls : List PortCall) : Nat :=
  calls.countP fun c => match c with
    | .busWrite _ => true
    | _ => false

/-- The number of reads among the calls. -/
def readsIn (calls : List PortCall) : Nat :=
  calls.countP fun c => match c with
    | .busRead _ => true
    | _ => false

/-- `n` steps of the block FSM, with no other agent between them. -/
def blockSteps (P : Params) : Nat → State → State
  | 0, s => s
  | n + 1, s => blockSteps P n (blockStep P s)

end Sys2Proof.Machine
end

