-- ==== Sys2Proof/Certificates/Slice0/Obligations.lean ====
section
/-! DEFINITION. The statements for the provers. -/

open Sys2Proof Sys2Proof.Machine

/-! ### Reset and turns -/

/-- R58, R191: after reset every host address reads 0, the session is closed, the FSM idle, the scratch
buffers wiped, the flags and the hidden counters 0. -/
def Obligations.ResetLeavesSpecValues : Prop :=
  (∀ a : HostAddr, readByte a State.reset = 0x00) ∧
  State.reset.session = .closed ∧ State.reset.fsm = .idle ∧
  State.reset.done = false ∧ State.reset.fatal = false ∧ State.reset.reject = false ∧
  (∀ i, loadByte State.reset.txbuf.cells i = 0x00) ∧ State.reset.txbuf.len = 0 ∧
  (∀ i, loadByte State.reset.rxbuf.cells i = 0x00) ∧ State.reset.rxbuf.len = 0 ∧
  State.reset.ctr.outerLeft = 0 ∧ State.reset.ctr.nakCnt = 0 ∧ State.reset.ctr.recvLen = 0 ∧
  State.reset.ctr.wakeCnt = 0 ∧ State.reset.ctr.rdAttempt = 0 ∧ State.reset.ctr.frameTotal = 0

/-- R191 to R193: a reset turn, whatever runs, gives the reset block, and no port call is issued (no
`BusClose`, no sleep byte). That the abandoned call's answer is dropped from the list is the model's
bookkeeping (log 3). -/
def Obligations.ResetTurnRestoresResetBlock : Prop :=
  ∀ (s : State) (rest : List Turn), s.env.agenda = .reset :: rest →
    ∃ t, step s = .next t ∧ { t with env := State.reset.env } = State.reset ∧
      t.env.agenda = rest ∧ t.env.calls = s.env.calls ∧ t.env.hostData = s.env.hostData

/-- The reset state meets the invariant. -/
def Obligations.ResetMeetsInvariant : Prop := State.reset.Inv

/-- R59, R80: when the host's turn comes, the step is the instruction its word decodes to, and the turn is
used up. -/
def Obligations.HostTurnRunsDecodedWord : Prop :=
  ∀ (s : State) (w : HostWord) (rest : List Turn), s.env.agenda = .host w :: rest →
    step s = exec (decodeHost w) { s with env := { s.env with agenda := rest } }

/-- When the block FSM's turn comes (an agenda that is empty is its turn, log 2), the step at a label of the
running operation that writes a sequence of R84 to R86 is that wire instruction; at a label that reads, when the
answer completes a frame of R89 or R90, it is that inbound instruction, the answer being used up. -/
def Obligations.PortTurnRunsDecodedWireRow : Prop :=
  ∀ (s : State) (op : Command) (label : Label) (i : Instr),
    s.env.agenda = [] → s.fsm = .run op label → label ∈ labelsOf op →
    (∀ bytes, outbound s = some bytes → decodeOutbound bytes = some i → step s = exec i s) ∧
    (∀ n, readWant s = some n → inboundInstr s n (readAnswer n s) = some i → step s = exec i (dropRead s))

/-- R2, R22, R23: at a label of the running operation, the step is the block FSM's one port call and the
computation that follows its answer, whether or not a row of the opcode table carries its bytes. -/
def Obligations.PortTurnIsOneBlockStep : Prop :=
  ∀ (s : State) (op : Command) (label : Label) (rest : List Turn),
    s.fsm = .run op label → label ∈ labelsOf op →
    (s.env.agenda = [] → step s = .next (blockStep Config.params s)) ∧
    (s.env.agenda = .port :: rest →
      step s = .next (blockStep Config.params { s with env := { s.env with agenda := rest } }))

/-! ### Encoding -/

/-- A few words written out from R80 to R90 decode to the instructions they stand for. -/
def Obligations.KnownWordsDecode : Prop :=
  decodeHost 0x40002#19 = .cmdCrcCheck ∧ decodeHost 0x40031#19 = .cmdSendGetRsp ∧
  decodeHost 0x40003#19 = .cmdReserved 0x03 ∧ decodeHost 0x40201#19 = .clear 0 ∧
  decodeHost 0x402FE#19 = .clearNop 0x7F ∧ decodeHost 0x40FC8#19 = .regWrite 0x00F 0xC8 ∧
  decodeHost 0x30900#19 = .regRead 0x309 0x00 ∧
  decodeOutbound [0x00, 0x00] = some .wireWake ∧
  decodeOutbound [0x03, 0x08, 0x1B, 0x01, 0x34, 0x12, 0xAA, 0xB3, 0xEC] =
    some (.wireCmd ⟨0x03, 0x08, 0x1B, 0x01, 0x34, 0x12, [0xAA], 0xB3, 0xEC⟩) ∧
  decodeInbound [0x04, 0x11, 0x33, 0x43] = some (.inStatus 0x11 0x33 0x43 []) ∧
  decodeInbound [0x05, 0x42, 0x86, 0xC0, 0x85] = some (.inData 0x05 [0x42, 0x86] 0xC0 0x85)

/-- Decoding the encoding of a well-formed instruction gives it back, for every row of the opcode table and
every operand. -/
def Obligations.DecodeInvertsEncode : Prop :=
  ∀ i : Instr, i.wellFormed = true → decode (encode i) = some i

/-- Whatever the decoder reads, host word or byte sequence, is well formed, and encodes back to exactly the
bits it was read from: no two encodings stand for one instruction, and no bit is dropped. -/
def Obligations.EncodeInvertsDecode : Prop :=
  ∀ (e : Encoded) (i : Instr), decode e = some i → i.wellFormed = true ∧ encode i = e

/-- R80: the host decoder takes the first row of the opcode table, in table order, that matches the word by
mask and pattern; every 19-bit word has one. -/
def Obligations.HostDecodeTakesFirstTableRow : Prop :=
  ∀ w : HostWord, (hostTable.findIdx? fun r => r.matches w) = (decodeHost w).hostRow

/-- R100: a host word that writes does what `MemWrite` does with its address and data, whichever row of the
table it decodes to. -/
def Obligations.HostWriteWordIsMemWrite : Prop :=
  ∀ (a : HostAddr) (v : Byte) (s : State),
    exec (decodeHost (hostWord 1#1 a v)) s = .next (memWrite Config.params a v s)

/-! ### Host transactions -/

/-- R99, R174, R175: a read gives the host the byte its address names (`DATA`, `RESULT`, `FRAME`, a register with
its reserved bits 0, `RESULT_KIND` and `FAIL_REASON` by their codes, 0 at `CLEAR` and at reserved addresses) and
changes nothing in the block, BUSY or not. -/
def Obligations.RegReadReturnsAddressedByte : Prop :=
  ∀ (a : HostAddr) (d : Byte) (s : State), ∃ v : Byte,
    exec (.regRead a d) s = .next { s with env := { s.env with hostData := v } } ∧
    (0x100 ≤ a.toNat → v = loadByte s.mem a.toNat) ∧
    (0x01E ≤ a.toNat → a.toNat ≤ 0x0FF → v = 0x00#8) ∧
    (a = 0x000#10 → v = s.lastOp) ∧
    (a = 0x001#10 → v.getLsbD 0 = decide (s.fsm ≠ .idle) ∧ v.getLsbD 1 = s.done ∧ v.getLsbD 2 = s.fatal ∧
      v.getLsbD 3 = s.reject ∧ v.getLsbD 4 = decide (s.session ≠ .closed) ∧ v.extractLsb' 5 3 = 0) ∧
    (a = 0x002#10 → v = 0x00#8) ∧
    (a = 0x003#10 → v = match s.result.kind with
      | .none => 0#8 | .ok => 1#8 | .fail => 2#8 | .status => 3#8 | .payload => 4#8 | .null => 5#8
      | .fatalErr => 6#8 | .internalErr => 7#8 | .rejected => 8#8) ∧
    (a = 0x004#10 → v.extractLsb' 0 3 = s.result.status ∧ v.extractLsb' 3 5 = 0) ∧
    (a = 0x005#10 → v = s.result.len) ∧
    (a = 0x006#10 → v = match s.result.reason with
      | .none => 0#8 | .writeCount => 1#8 | .readError => 2#8 | .badLength => 3#8 | .reassembly => 4#8
      | .checksum => 5#8 | .wakeTimeout => 6#8 | .openFail => 7#8 | .fatalSend => 8#8 | .unmappedStatus => 9#8
      | .badOpcode => 10#8 | .noSession => 11#8 | .sessionOpen => 12#8 | .fatalLock => 13#8 | .range => 14#8) ∧
    (a = 0x007#10 → v = BitVec.ofNat 8 s.ctr.outerLeft) ∧
    (a = 0x008#10 → v = s.regs.opcode) ∧ (a = 0x009#10 → v = s.regs.param1) ∧
    (a = 0x00A#10 → v = s.regs.param2.extractLsb' 0 8) ∧ (a = 0x00B#10 → v = s.regs.param2.extractLsb' 8 8) ∧
    (a = 0x00C#10 → v = s.regs.dataLen) ∧ (a = 0x00D#10 → v = s.regs.rxExpectLen) ∧ (a = 0x00E#10 → v = s.regs.rxMaxLen) ∧
    (a = 0x00F#10 → v.extractLsb' 0 7 = s.regs.busAddr ∧ v.getLsbD 7 = false) ∧
    (a = 0x010#10 → v = s.regs.execTime.extractLsb' 0 8) ∧ (a = 0x011#10 → v = s.regs.execTime.extractLsb' 8 8) ∧
    (a = 0x012#10 → v = s.regs.execTime.extractLsb' 16 8) ∧ (a = 0x013#10 → v = s.regs.execTime.extractLsb' 24 8) ∧
    (a = 0x014#10 → v = s.regs.wakeCap) ∧ (a = 0x015#10 → v = s.regs.nakCap) ∧
    (a = 0x016#10 → v = s.frameLen.extractLsb' 0 8) ∧ (a = 0x017#10 → v = s.frameLen.extractLsb' 8 8) ∧
    (a = 0x018#10 → v = s.regs.crcLen) ∧
    (a = 0x019#10 → v.getLsbD 0 = s.crcValid ∧ v.extractLsb' 1 7 = 0) ∧
    (a = 0x01A#10 → v = s.crcResult.extractLsb' 0 8) ∧ (a = 0x01B#10 → v = s.crcResult.extractLsb' 8 8) ∧
    (a = 0x01C#10 → v = s.regs.crcExpect.extractLsb' 0 8) ∧ (a = 0x01D#10 → v = s.regs.crcExpect.extractLsb' 8 8)

/-- R100: while IDLE, a write to a read/write register byte or to a byte of `DATA` stores it: the address then
reads the byte written (`BUS_ADDR` with bit 7 zero), every other address reads as before, and nothing else in
the machine changes. -/
def Obligations.RegWriteStoresByteReadBack : Prop :=
  ∀ (a : HostAddr) (v : Byte) (s : State), s.fsm = .idle → Memory.wf s.mem →
    ((0x008 ≤ a.toNat ∧ a.toNat ≤ 0x015) ∨ a = 0x018#10 ∨ a = 0x01C#10 ∨ a = 0x01D#10 ∨
      (0x100 ≤ a.toNat ∧ a.toNat ≤ 0x1FF)) →
    ∃ t, exec (.regWrite a v) s = .next t ∧
      t = { s with regs := t.regs, mem := t.mem } ∧
      (a.toNat < 0x100 → t.mem = s.mem) ∧ (0x100 ≤ a.toNat → t.regs = s.regs) ∧
      readByte a t = (if a = 0x00F#10 then v &&& 0x7F else v) ∧
      ∀ b : HostAddr, b ≠ a → readByte b t = readByte b s

/-- R108: while IDLE, a write to a read-only location (`STATUS`, `RESULT_KIND` to `RETRY_LEFT`, `FRAME_LEN`,
`CRC_VALID`, `CRC_RESULT`, `RESULT`, `FRAME`) or to a reserved address changes nothing and sets no flag. -/
def Obligations.ReadOnlyWritesAreIgnored : Prop :=
  ∀ (a : HostAddr) (v : Byte) (s : State), s.fsm = .idle →
    (a = 0x001#10 ∨ (0x003 ≤ a.toNat ∧ a.toNat ≤ 0x007) ∨ a = 0x016#10 ∨ a = 0x017#10 ∨
      (0x019 ≤ a.toNat ∧ a.toNat ≤ 0x01B) ∨ (0x01E ≤ a.toNat ∧ a.toNat ≤ 0x0FF) ∨ 0x200 ≤ a.toNat) →
    exec (.regWrite a v) s = .next s

/-- R103: any host write while BUSY, a command, `CLEAR`, an operand or `DATA`, sets `REJECT` and changes
nothing else. -/
def Obligations.BusyWritesOnlySetReject : Prop :=
  ∀ (a : HostAddr) (v : Byte) (s : State), s.fsm ≠ .idle →
    exec (decodeHost (hostWord 1#1 a v)) s = .next { s with reject := true }

/-- R106: `CLEAR` while IDLE clears `DONE`, `REJECT` and the result registers, zeroes `RESULT`, `FRAME` and
`FRAME_LEN`, and leaves everything else, every byte of `DATA` included. -/
def Obligations.ClearReleasesResults : Prop :=
  ∀ (x : BitVec 7) (s : State), s.fsm = .idle →
    ∃ t, exec (.clear x) s = .next t ∧ ResultsWiped s t ∧
      t = { s with done := false, reject := false, result := { kind := .none, status := 0#3, len := 0#8, reason := .none },
                   frameLen := 0#16, mem := t.mem }

/-- R83: a write to `CLEAR` with bit 0 = 0 has no effect while IDLE. -/
def Obligations.ClearNopHasNoEffect : Prop :=
  ∀ (x : BitVec 7) (s : State), s.fsm = .idle → exec (.clearNop x) s = .next s

/-- R82, R102, R104: a reserved code written while IDLE is recorded in `LAST_OP` and rejected with BAD_OPCODE,
with no effect but those of the start of a command; it never executes as a no-op. -/
def Obligations.ReservedCodeIsRejected : Prop :=
  ∀ (code : Byte) (s : State), s.fsm = .idle → (Instr.cmdReserved code).wellFormed = true →
    ∃ t, exec (.cmdReserved code) s = .next t ∧ ResultsWiped s t ∧
      t = { s with lastOp := code, done := true, reject := true, frameLen := 0#16,
                   result := { kind := .rejected, status := 0#3, len := 0#8, reason := .badOpcode }, mem := t.mem }

/-- R101, R102, R180: which commands are rejected, in which order, and what a rejected command leaves: no port
call, and no effect on the session, `FATAL`, the counters, the checksum registers or the scratch buffers. -/
def Obligations.FailedChecksRejectInOrder : Prop :=
  ∀ (op : Command) (s : State) (why : FailReason), s.fsm = .idle →
    ((op ∈ [.teardown, .wake, .sleep, .idle, .sendRecv, .sendGetRsp] ∧ s.session = .closed ∧ why = .noSession) ∨
     (op = .setup ∧ s.session ≠ .closed ∧ why = .sessionOpen) ∨
     (op ∈ [.wake, .sleep, .idle, .sendRecv, .sendGetRsp] ∧ s.session ≠ .closed ∧ s.fatal = true ∧ why = .fatalLock) ∨
     (op = .frame ∧ Config.maxDataLen.val < s.regs.dataLen.toNat ∧ why = .range) ∨
     (op ∈ [.sendRecv, .sendGetRsp] ∧ s.session ≠ .closed ∧ s.fatal = false ∧
        Config.maxDataLen.val < s.regs.dataLen.toNat ∧ why = .range) ∨
     (op = .sendRecv ∧ s.session ≠ .closed ∧ s.fatal = false ∧ 252 < s.regs.rxExpectLen.toNat ∧ why = .range)) →
    ∃ t, exec op.instr s = .next t ∧ ResultsWiped s t ∧
      t = { s with lastOp := op.code, done := true, reject := true, frameLen := 0#16,
                   result := { kind := .rejected, status := 0#3, len := 0#8, reason := why }, mem := t.mem }

/-! ### The checksum unit -/

/-- R117, R104: `CRC_GEN` stores the checksum of `DATA[0..<CRC_LEN]` in `CRC_RESULT` and finishes OK, in any
session and with `FATAL` set or not; `CRC_VALID` and everything else stay, but for what the start of a command
clears. -/
def Obligations.CrcGenStoresChecksum : Prop :=
  ∀ s : State, s.fsm = .idle →
    ∃ t, exec .cmdCrcGen s = .next t ∧ ResultsWiped s t ∧
      t = { s with lastOp := 0x01#8, done := true, frameLen := 0#16,
                   result := { kind := .ok, status := 0#3, len := 0#8, reason := .none },
                   crcResult := Config.crc16 (bytesAt s.mem 0x100 s.regs.crcLen.toNat), mem := t.mem }

/-- R118, R115: `CRC_CHECK` stores the checksum too, and its comparison with `CRC_EXPECT` in `CRC_VALID`; a
mismatch is no error. -/
def Obligations.CrcCheckStoresVerdict : Prop :=
  ∀ s : State, s.fsm = .idle →
    ∃ t, exec .cmdCrcCheck s = .next t ∧ ResultsWiped s t ∧
      t = { s with lastOp := 0x02#8, done := true, frameLen := 0#16,
                   result := { kind := .ok, status := 0#3, len := 0#8, reason := .none },
                   crcResult := Config.crc16 (bytesAt s.mem 0x100 s.regs.crcLen.toNat),
                   crcValid := decide (Config.crc16 (bytesAt s.mem 0x100 s.regs.crcLen.toNat) = s.regs.crcExpect),
                   mem := t.mem }

/-- R120 (an inference the spec marks as its own): under the default checksum every sequence of zero bytes has
checksum 0. -/
def Obligations.ZeroBytesHaveZeroDefaultChecksum : Prop :=
  ∀ n : Nat, crc16Default (List.replicate n 0x00) = 0x0000

/-! ### The framer -/

/-- R144, R86, R87, R142: `FRAME` writes the serialized descriptor to the `FRAME` buffer, byte by byte at the
offsets of R86, sets `FRAME_LEN` to `8 + n` and finishes OK; the rest of `FRAME` and all of `RESULT` read zero;
`DATA`, the descriptor and everything else stay. -/
def Obligations.FrameCommandWritesFrame : Prop :=
  ∀ (s : State) (n : Nat), s.fsm = .idle → Memory.wf s.mem → s.regs.dataLen.toNat = n → n ≤ Config.maxDataLen.val →
    ∃ t, exec .cmdFrame s = .next t ∧
      t = { s with lastOp := 0x10#8, done := true, frameLen := BitVec.ofNat 16 (8 + n),
                   result := { kind := .ok, status := 0#3, len := 0#8, reason := .none }, mem := t.mem } ∧
      loadByte t.mem 0x300 = Config.marker ∧ loadByte t.mem 0x301 = BitVec.ofNat 8 (7 + n) ∧
      loadByte t.mem 0x302 = s.regs.opcode ∧ loadByte t.mem 0x303 = s.regs.param1 ∧
      loadByte t.mem 0x304 = s.regs.param2.extractLsb' 0 8 ∧ loadByte t.mem 0x305 = s.regs.param2.extractLsb' 8 8 ∧
      (∀ i, i < n → loadByte t.mem (0x306 + i) = loadByte s.mem (0x100 + i)) ∧
      loadByte t.mem (0x306 + n) = (Config.crc16 (bytesAt t.mem 0x301 (5 + n))).extractLsb' 0 8 ∧
      loadByte t.mem (0x307 + n) = (Config.crc16 (bytesAt t.mem 0x301 (5 + n))).extractLsb' 8 8 ∧
      (∀ a, 0x308 + n ≤ a → a < 0x400 → loadByte t.mem a = 0x00) ∧
      (∀ a, 0x200 ≤ a → a < 0x300 → loadByte t.mem a = 0x00) ∧
      (∀ a, a < 0x200 ∨ 0x400 ≤ a → loadByte t.mem a = loadByte s.mem a)

/-- R145: for every parameter set and every descriptor in range, the serialized frame has length `8 + n`, its
count byte is its length minus 1, and its last two bytes are the checksum of its bytes 1 to `5 + n`. -/
def Obligations.SerializedFrameIsConsistent : Prop :=
  ∀ (P : Params) (s : State), s.regs.dataLen.toNat ≤ P.maxDataLen.val →
    (serialize P s).length = 8 + s.regs.dataLen.toNat ∧
    ((serialize P s).getD 1 0).toNat = (serialize P s).length - 1 ∧
    le16 ((serialize P s).getD (6 + s.regs.dataLen.toNat) 0) ((serialize P s).getD (7 + s.regs.dataLen.toNat) 0) =
      P.crc16 (((serialize P s).drop 1).take (5 + s.regs.dataLen.toNat))

/-- R146: parsing a serialized frame as an outbound sequence gives back the descriptor's fields. -/
def Obligations.SerializedFrameParsesBack : Prop :=
  ∀ (P : Params) (s : State), s.regs.dataLen.toNat ≤ P.maxDataLen.val →
    ∃ f : CmdFrame, decodeOutbound (serialize P s) = some (.wireCmd f) ∧
      f.opcode = s.regs.opcode ∧ f.param1 = s.regs.param1 ∧ le16 f.param2Lo f.param2Hi = s.regs.param2 ∧
      f.count.toNat - 7 = s.regs.dataLen.toNat ∧ f.data = bytesAt s.mem 0x100 s.regs.dataLen.toNat

/-! ### The transport -/

/-- R128, R104: `SETUP` on a closed session, `FATAL` set or not, is accepted and is about to open the bus. -/
def Obligations.SetupIsAccepted : Prop :=
  ∀ s : State, s.fsm = .idle → s.session = .closed →
    ∃ t, exec .cmdSetup s = .next t ∧ ResultsWiped s t ∧
      t = { s with lastOp := 0x20#8, done := false, frameLen := 0#16, fsm := .run .setup .sOpen,
                   result := { kind := .none, status := 0#3, len := 0#8, reason := .none }, mem := t.mem }

/-- R128, R178, R179: the step S_OPEN of `SETUP` issues `BusOpen(BUS_ADDR)`. On true the session is open on that
address, `FATAL` is cleared and the wake procedure starts; on false `FATAL` is set and the operation ends with
FATAL_ERR and OPEN_FAIL, the session as it was. -/
def Obligations.SetupOpenStepBindsOrFails : Prop :=
  ∀ s : State, s.fsm = .run .setup .sOpen → s.env.agenda = [] →
    step s = .next
      (if openAnswer s then
        { s with session := .opened s.regs.busAddr, fatal := false, fsm := .run .setup .wWrite,
                 ctr := { s.ctr with wakeCnt := 0 }, env := called s (.busOpen s.regs.busAddr) (dropOpen s) }
       else
        { s with fatal := true, fsm := .idle, done := true,
                 result := { kind := .fatalErr, status := 0#3, len := 0#8, reason := .openFail },
                 env := called s (.busOpen s.regs.busAddr) (dropOpen s) })

/-- R129, R104: `TEARDOWN` on an open session is accepted and is about to send the sleep byte, or, with
`FATAL = 1`, about to close without it. -/
def Obligations.TeardownIsAccepted : Prop :=
  ∀ s : State, s.fsm = .idle → s.session ≠ .closed →
    ∃ t, exec .cmdTeardown s = .next t ∧ ResultsWiped s t ∧
      t = { s with lastOp := 0x21#8, done := false, frameLen := 0#16,
                   fsm := .run .teardown (if s.fatal then .tClose else .tSleep),
                   result := { kind := .none, status := 0#3, len := 0#8, reason := .none }, mem := t.mem }

/-- R129: the step T_CLOSE closes the bus, drops the session and finishes OK; `FATAL` is unchanged. -/
def Obligations.TeardownCloseStepDropsSession : Prop :=
  ∀ s : State, s.fsm = .run .teardown .tClose → s.env.agenda = [] →
    step s = .next { s with session := .closed, fsm := .idle, done := true,
                            result := { kind := .ok, status := 0#3, len := 0#8, reason := .none },
                            env := called s .busClose s }

/-- R130, R131, R132, R104: `WAKE`, `SLEEP` and `IDLE` on an open session with `FATAL = 0` are accepted, and are
about to send the wake pulse (with `WAKE_CNT` zeroed) or their control byte. -/
def Obligations.WakeSleepIdleAreAccepted : Prop :=
  ∀ s : State, s.fsm = .idle → s.session ≠ .closed → s.fatal = false →
    (∃ t, exec .cmdWake s = .next t ∧ ResultsWiped s t ∧
      t = { s with lastOp := 0x22#8, done := false, frameLen := 0#16, fsm := .run .wake .wWrite,
                   ctr := { s.ctr with wakeCnt := 0 },
                   result := { kind := .none, status := 0#3, len := 0#8, reason := .none }, mem := t.mem }) ∧
    (∃ t, exec .cmdSleep s = .next t ∧ ResultsWiped s t ∧
      t = { s with lastOp := 0x23#8, done := false, frameLen := 0#16, fsm := .run .sleep .cWrite,
                   result := { kind := .none, status := 0#3, len := 0#8, reason := .none }, mem := t.mem }) ∧
    (∃ t, exec .cmdIdle s = .next t ∧ ResultsWiped s t ∧
      t = { s with lastOp := 0x24#8, done := false, frameLen := 0#16, fsm := .run .idle .cWrite,
                   result := { kind := .none, status := 0#3, len := 0#8, reason := .none }, mem := t.mem })

/-- R127, R136: sending the wake pulse at W_WRITE leads to W_READ whatever the write answers; nothing else
changes, and the bus saw `00 00`. -/
def Obligations.WakePulseLeadsToRead : Prop :=
  ∀ (op : Command) (s : State), s.fsm = .run op .wWrite →
    exec .wireWake s = .next { s with fsm := .run op .wRead, env := called s (.busWrite [0x00#8, 0x00#8]) (dropWrite s) }

/-- R131, R132, R129: the control byte at C_WRITE finishes `SLEEP` and `IDLE` OK exactly when one byte was
written, and with FAIL and WRITE_COUNT otherwise, `FATAL` unchanged; `TEARDOWN`'s sleep byte leads to the close
whatever the write answers. -/
def Obligations.ControlBytesReportWriteCount : Prop :=
  ∀ s : State,
    (s.fsm = .run .sleep .cWrite →
      exec .wireSleep s = .next
        { s with fsm := .idle, done := true, env := called s (.busWrite [0x01#8]) (dropWrite s),
                 result := if writeAnswer 1 s = 1 then { kind := .ok, status := 0#3, len := 0#8, reason := .none }
                           else { kind := .fail, status := 0#3, len := 0#8, reason := .writeCount } }) ∧
    (s.fsm = .run .idle .cWrite →
      exec .wireIdle s = .next
        { s with fsm := .idle, done := true, env := called s (.busWrite [0x02#8]) (dropWrite s),
                 result := if writeAnswer 1 s = 1 then { kind := .ok, status := 0#3, len := 0#8, reason := .none }
                           else { kind := .fail, status := 0#3, len := 0#8, reason := .writeCount } }) ∧
    (s.fsm = .run .teardown .tSleep →
      exec .wireSleep s = .next
        { s with fsm := .run .teardown .tClose, env := called s (.busWrite [0x01#8]) (dropWrite s) })

/-- R127, R135: at W_READ, four bytes whose last two are the checksum of the first two end the wake procedure
with OK, whatever the first byte; any other answer is counted, and either the cap ends it with FAIL and
WAKE_TIMEOUT or another pulse follows. `RXBUF` is wiped either way. -/
def Obligations.WakeReadAcknowledgesOrRetries : Prop :=
  ∀ (P : Params) (op : Command) (r : ReadAnswer) (s : State), s.fsm = .run op .wRead →
    let u : State := { s with rxbuf := Buffer.wiped, env := called s (.busRead 4) s }
    let k := min (s.ctr.wakeCnt + 1) 255
    ((∃ b0 b1 lo hi, r = .data [b0, b1, lo, hi] ∧ P.crc16 [b0, b1] = le16 lo hi) →
      receive P 4 r s = { u with fsm := .idle, done := true,
                                 result := { kind := .ok, status := 0#3, len := 0#8, reason := .none } }) ∧
    (¬ (∃ b0 b1 lo hi, r = .data [b0, b1, lo, hi] ∧ P.crc16 [b0, b1] = le16 lo hi) →
      receive P 4 r s =
        if s.regs.wakeCap ≠ 0#8 ∧ s.regs.wakeCap.toNat ≤ k then
          { u with ctr := { s.ctr with wakeCnt := k }, fsm := .idle, done := true,
                   result := { kind := .fail, status := 0#3, len := 0#8, reason := .wakeTimeout } }
        else { u with ctr := { s.ctr with wakeCnt := k }, fsm := .run op .wWrite })

/-- R127, R43: with `WAKE_CAP = n > 0`, `n` unacknowledged pulses end the wake procedure with WAKE_TIMEOUT after
exactly `n` pulses and `n` reads; with `WAKE_CAP = 0` any number of them leaves it running. A read fails to
acknowledge by `Err`, by its length or by its checksum. -/
def Obligations.WakeCapBoundsPulses : Prop :=
  ∀ (P : Params) (op : Command) (s : State) (n : Nat) (rs rest : List ReadAnswer),
    s.fsm = .run op .wWrite → s.ctr.wakeCnt = 0 → s.env.readAnswers = rs ++ rest → rs.length = n →
    (∀ r ∈ rs, ¬ ∃ b0 b1 lo hi, clipAnswer 4 r = .data [b0, b1, lo, hi] ∧ P.crc16 [b0, b1] = le16 lo hi) →
    (0 < n → s.regs.wakeCap.toNat = n →
      (blockSteps P (2 * n) s).fsm = .idle ∧ (blockSteps P (2 * n) s).result.reason = .wakeTimeout ∧
      writesIn (blockSteps P (2 * n) s).env.calls = writesIn s.env.calls + n ∧
      readsIn (blockSteps P (2 * n) s).env.calls = readsIn s.env.calls + n) ∧
    (s.regs.wakeCap = 0#8 → (blockSteps P (2 * n) s).fsm = .run op .wWrite)

/-! ### Mode A -/

/-- R153, R104: `SEND_RECV` in range on an open session with `FATAL = 0` is accepted: the serialized descriptor
is in `TXBUF`, `RECV_LEN` is `RX_EXPECT_LEN + 3`, `OUTER_LEFT` is 10, and it is about to write. -/
def Obligations.SendRecvIsAccepted : Prop :=
  ∀ s : State, s.fsm = .idle → s.session ≠ .closed → s.fatal = false →
    s.regs.dataLen.toNat ≤ Config.maxDataLen.val → s.regs.rxExpectLen.toNat ≤ 252 →
    ∃ t, exec .cmdSendRecv s = .next t ∧ ResultsWiped s t ∧
      t = { s with lastOp := 0x30#8, done := false, frameLen := 0#16, fsm := .run .sendRecv .aWrite,
                   txbuf := Buffer.ofBytes (serialize Config.params s),
                   ctr := { s.ctr with recvLen := s.regs.rxExpectLen.toNat + 3, outerLeft := 10 },
                   result := { kind := .none, status := 0#3, len := 0#8, reason := .none }, mem := t.mem }

/-- R153, R156, R125: the frame in `TXBUF` sent at A_WRITE. An answer of at most 1 is fatal: `FATAL` is set,
`TXBUF` wiped, and the operation ends with FATAL_ERR and FATAL_SEND. Any other answer counts as sent, `NAK_CNT`
is zeroed and the delay follows, `TXBUF` kept. -/
def Obligations.ModeASendIsFatalWhenShort : Prop :=
  ∀ (f : CmdFrame) (op : Command) (s : State), s.fsm = .run op .aWrite → s.txbuf.bytes = f.bytes →
    exec (.wireCmd f) s = .next
      (if writeAnswer f.bytes.length s ≤ 1 then
        { s with txbuf := Buffer.wiped, fatal := true, fsm := .idle, done := true,
                 result := { kind := .fatalErr, status := 0#3, len := 0#8, reason := .fatalSend },
                 env := called s (.busWrite f.bytes) (dropWrite s) }
       else
        { s with fsm := .run op .aDelay, ctr := { s.ctr with nakCnt := 0 },
                 env := called s (.busWrite f.bytes) (dropWrite s) })

/-- R153, R126, R38: A_DELAY and B_DELAY pass `EXEC_TIME` to `Delay` and lead to the read. -/
def Obligations.DelaysLeadToReads : Prop :=
  ∀ s : State, s.env.agenda = [] →
    (s.fsm = .run .sendRecv .aDelay →
      step s = .next { s with fsm := .run .sendRecv .aRead, env := called s (.delay s.regs.execTime) s }) ∧
    (s.fsm = .run .sendGetRsp .bDelay →
      step s = .next { s with fsm := .run .sendGetRsp .bRead1, env := called s (.delay s.regs.execTime) s })

/-- R152, R153, R155, R158, R172, R177, R24: a status frame at Mode A's read of at least 4 bytes, alone or followed by
other bytes, which do not affect the result. A bad checksum is Communication-Error; an unmapped byte INTERNAL_ERR;
NAK is re-read unless `NAK_CAP` ends the inner loop; Awake is resent while `OUTER_LEFT` lasts; any other status ends
the operation with its index. That a read shorter than the row's bytes takes its first `RECV_LEN` is the model's
reading (log 7). -/
def Obligations.ModeAStatusFrameOutcome : Prop :=
  ∀ (op : Command) (b lo hi : Byte) (trailing : List Byte) (s : State),
    s.fsm = .run op .aRead → 4 ≤ s.ctr.recvLen → s.ctr.recvLen ≤ trailing.length + 4 →
    let u : State := { s with rxbuf := Buffer.wiped, env := called s (.busRead s.ctr.recvLen) s }
    let v : State := { u with txbuf := Buffer.wiped, ctr := { s.ctr with outerLeft := s.ctr.outerLeft - 1 },
                              fsm := .idle, done := true }
    let ended (index : BitVec 3) : State :=
      { v with result := { kind := .status, status := index, len := 0#8, reason := .none } }
    let k := min (s.ctr.nakCnt + 1) 255
    exec (.inStatus b lo hi trailing) s = .next
      (if Config.crc16 [0x04#8, b] = le16 lo hi then
        match Config.statusMap b with
        | none => { u with txbuf := Buffer.wiped, fsm := .idle, done := true,
                           result := { kind := .internalErr, status := 0#3, len := 0#8, reason := .unmappedStatus } }
        | some .nak =>
          if s.regs.nakCap = 0#8 ∨ k < s.regs.nakCap.toNat then
            { u with fsm := .run op .aDelay, ctr := { s.ctr with nakCnt := k } }
          else
            { v with ctr := { s.ctr with nakCnt := k, outerLeft := s.ctr.outerLeft - 1 },
                     result := { kind := .status, status := 6#3, len := 0#8, reason := .none } }
        | some .awake =>
          if 0 < s.ctr.outerLeft - 1 then
            { u with fsm := .run op .aWrite, ctr := { s.ctr with outerLeft := s.ctr.outerLeft - 1 } }
          else ended 4#3
        | some .success => ended 0#3
        | some .checkMacMiscompare => ended 1#3
        | some .parseError => ended 2#3
        | some .executionError => ended 3#3
        | some .communicationError => ended 5#3
        | some .eccFault => ended 7#3
       else ended 5#3)

/-- R151, R153, R157, R158: a data frame of the expected length that answers Mode A's read. With a valid
checksum its payload is copied to `RESULT` and the operation ends with PAYLOAD and that length; otherwise with
the status Communication-Error and nothing copied. Every byte of memory outside the payload stays. -/
def Obligations.ModeADataFrameOutcome : Prop :=
  ∀ (op : Command) (n : Byte) (p : List Byte) (lo hi : Byte) (s : State),
    s.fsm = .run op .aRead → Memory.wf s.mem → (Instr.inData n p lo hi).wellFormed = true →
    s.ctr.recvLen = n.toNat → s.regs.rxExpectLen.toNat = p.length →
    ∃ t, exec (.inData n p lo hi) s = .next t ∧
      t = { s with rxbuf := Buffer.wiped, txbuf := Buffer.wiped, fsm := .idle, done := true,
                   ctr := { s.ctr with outerLeft := s.ctr.outerLeft - 1 },
                   result := if Config.crc16 (n :: p) = le16 lo hi
                             then { kind := .payload, status := 0#3, len := s.regs.rxExpectLen, reason := .none }
                             else { kind := .status, status := 5#3, len := 0#8, reason := .none },
                   env := called s (.busRead s.ctr.recvLen) s, mem := t.mem } ∧
      (Config.crc16 (n :: p) ≠ le16 lo hi → t.mem = s.mem) ∧
      (Config.crc16 (n :: p) = le16 lo hi → bytesAt t.mem 0x200 p.length = p) ∧
      (∀ a, a < 0x200 ∨ 0x200 + p.length ≤ a → loadByte t.mem a = loadByte s.mem a)

/-- R151, R153, R155: an answer of no shape, an error, another length, or a first byte that is neither 4 (when a
status frame fits) nor the expected length, is a NAK: counted, and re-read after the delay with no new write
unless `NAK_CAP` ends the inner loop with the status NAK. -/
def Obligations.ModeAMalformedAnswerIsNak : Prop :=
  ∀ (P : Params) (op : Command) (r : ReadAnswer) (s : State), s.fsm = .run op .aRead → 3 ≤ s.ctr.recvLen →
    (∀ b, r = .data b → b.length = s.ctr.recvLen →
      (b.getD 0 0#8).toNat ≠ s.ctr.recvLen ∧ (4 ≤ s.ctr.recvLen → b.getD 0 0#8 ≠ 0x04#8)) →
    let u : State := { s with rxbuf := Buffer.wiped, env := called s (.busRead s.ctr.recvLen) s,
                              ctr := { s.ctr with nakCnt := min (s.ctr.nakCnt + 1) 255 } }
    receive P s.ctr.recvLen r s =
      if s.regs.nakCap = 0#8 ∨ min (s.ctr.nakCnt + 1) 255 < s.regs.nakCap.toNat then { u with fsm := .run op .aDelay }
      else { u with txbuf := Buffer.wiped, ctr := { u.ctr with outerLeft := s.ctr.outerLeft - 1 }, fsm := .idle, done := true,
                    result := { kind := .status, status := 6#3, len := 0#8, reason := .none } }

/-- R159, R154: if every inbound read is an Awake status frame, Mode A writes the frame exactly 10 times and ends
with the status Awake and no retry left; before that it is running. -/
def Obligations.ModeAExhaustsOnAwake : Prop :=
  ∀ (P : Params) (op : Command) (b lo hi : Byte) (trailing : List Byte) (ws : List Int) (rest : List ReadAnswer) (s : State),
    s.fsm = .run op .aWrite → s.ctr.outerLeft = 10 → s.ctr.recvLen = trailing.length + 4 →
    P.crc16 [0x04#8, b] = le16 lo hi → P.statusMap b = some .awake →
    ws.length = 10 → (∀ w ∈ ws, 2 ≤ w ∧ w ≤ s.txbuf.len) → s.env.writeAnswers = ws →
    s.env.readAnswers = List.replicate 10 (.data (statusFrameBytes b lo hi trailing)) ++ rest →
    (blockSteps P 30 s).fsm = .idle ∧
    (blockSteps P 30 s).result = { kind := .status, status := 4#3, len := 0#8, reason := .none } ∧
    (blockSteps P 30 s).ctr.outerLeft = 0 ∧
    writesIn (blockSteps P 30 s).env.calls = writesIn s.env.calls + 10 ∧
    (∀ n, n < 30 → (blockSteps P n s).fsm ≠ .idle)

/-- R155, R198: with `NAK_CAP = 0` the inner loop has no bound: after any number of reads classified as NAK, malformed
or mapped to NAK by the status map, Mode A is still about to delay and read again, with no new write. -/
def Obligations.UncappedNakLoopNeverEnds : Prop :=
  ∀ (P : Params) (op : Command) (s : State) (n : Nat) (rs rest : List ReadAnswer),
    s.fsm = .run op .aDelay → s.regs.nakCap = 0#8 → s.env.readAnswers = rs ++ rest → rs.length = n →
    (∀ r ∈ rs, classifyA P s.ctr.recvLen (clipAnswer s.ctr.recvLen r) = .nak ∨
      classifyA P s.ctr.recvLen (clipAnswer s.ctr.recvLen r) = .st .nak) →
    (blockSteps P (2 * n) s).fsm = .run op .aDelay ∧
    writesIn (blockSteps P (2 * n) s).env.calls = writesIn s.env.calls

/-! ### Mode B -/

/-- R160, R104: `SEND_GET_RSP` in range on an open session with `FATAL = 0` is accepted, with the serialized
descriptor in `TXBUF`, and is about to write. -/
def Obligations.SendGetRspIsAccepted : Prop :=
  ∀ s : State, s.fsm = .idle → s.session ≠ .closed → s.fatal = false →
    s.regs.dataLen.toNat ≤ Config.maxDataLen.val →
    ∃ t, exec .cmdSendGetRsp s = .next t ∧ ResultsWiped s t ∧
      t = { s with lastOp := 0x31#8, done := false, frameLen := 0#16, fsm := .run .sendGetRsp .bWrite,
                   txbuf := Buffer.ofBytes (serialize Config.params s),
                   result := { kind := .none, status := 0#3, len := 0#8, reason := .none }, mem := t.mem }

/-- R160, R125, R73: the frame in `TXBUF` sent at B_WRITE; `TXBUF` is wiped at once. An answer of at most 1 ends the
operation with NULL and WRITE_COUNT, `FATAL` unchanged; any other leads to the first read. -/
def Obligations.ModeBSendIsNullWhenShort : Prop :=
  ∀ (f : CmdFrame) (op : Command) (s : State), s.fsm = .run op .bWrite → s.txbuf.bytes = f.bytes →
    exec (.wireCmd f) s = .next
      (if writeAnswer f.bytes.length s ≤ 1 then
        { s with txbuf := Buffer.wiped, fsm := .idle, done := true,
                 result := { kind := .null, status := 0#3, len := 0#8, reason := .writeCount },
                 env := called s (.busWrite f.bytes) (dropWrite s) }
       else
        { s with txbuf := Buffer.wiped, fsm := .run op .bRead1, ctr := { s.ctr with rdAttempt := 1 },
                 env := called s (.busWrite f.bytes) (dropWrite s) })

/-- R164, R165, R166, R167: a status frame as Mode B's first chunk. With a valid checksum its status byte, unmapped, is
a payload of one byte; otherwise NULL with CHECKSUM. Every other byte of memory stays. That the chunk is the row's
first four bytes, whatever follows them, is the model's reading (log 7). -/
def Obligations.ModeBStatusFrameOutcome : Prop :=
  ∀ (op : Command) (b lo hi : Byte) (trailing : List Byte) (s : State), s.fsm = .run op .bRead1 → Memory.wf s.mem →
    ∃ t, exec (.inStatus b lo hi trailing) s = .next t ∧
      t = { s with rxbuf := Buffer.wiped, fsm := .idle, done := true, ctr := { s.ctr with frameTotal := 4 },
                   result := if Config.crc16 [0x04#8, b] = le16 lo hi
                             then { kind := .payload, status := 0#3, len := 1#8, reason := .none }
                             else { kind := .null, status := 0#3, len := 0#8, reason := .checksum },
                   env := called s (.busRead 4) s, mem := t.mem } ∧
      (Config.crc16 [0x04#8, b] ≠ le16 lo hi → t.mem = s.mem) ∧
      (Config.crc16 [0x04#8, b] = le16 lo hi → loadByte t.mem 0x200 = b) ∧
      (∀ a, a ≠ 0x200 → loadByte t.mem a = loadByte s.mem a)

/-- R161, R162, R126, R169: what Mode B's first read does with any answer that is no status frame. A first byte from 5 to
`RX_MAX_LEN`, the bound included, announces the total length and the second read follows with the chunk kept; any
other first byte is NULL with BAD_LENGTH; a chunk of another length is NULL with READ_ERROR; `Err` is retried after
a delay up to the third attempt, and then NULL with READ_ERROR. -/
def Obligations.ModeBFirstChunkOutcome : Prop :=
  ∀ (P : Params) (op : Command) (r : ReadAnswer) (s : State), s.fsm = .run op .bRead1 →
    let e := called s (.busRead 4) s
    let null (why : FailReason) : State :=
      { s with rxbuf := Buffer.wiped, fsm := .idle, done := true, env := e,
               result := { kind := .null, status := 0#3, len := 0#8, reason := why } }
    (r = .err → receive P 4 r s =
      if s.ctr.rdAttempt < 3 then
        { s with fsm := .run op .bDelay, ctr := { s.ctr with rdAttempt := s.ctr.rdAttempt + 1 }, env := e }
      else null .readError) ∧
    (∀ c, r = .data c → c.length ≠ 4 → receive P 4 r s = null .readError) ∧
    (∀ c, r = .data c → c.length = 4 → c.getD 0 0#8 ≠ 0x04#8 →
      receive P 4 r s =
        if 5 ≤ (c.getD 0 0#8).toNat ∧ (c.getD 0 0#8).toNat ≤ s.regs.rxMaxLen.toNat then
          { s with rxbuf := Buffer.ofBytes c, fsm := .run op .bRead2, env := e,
                   ctr := { s.ctr with frameTotal := (c.getD 0 0#8).toNat } }
        else null .badLength)

/-- R163 to R165: the data frame whose first four bytes are in `RXBUF`, completed by Mode B's second read (log 7). With a valid
checksum the payload is copied to `RESULT` and the operation ends with PAYLOAD and its length; otherwise NULL with
CHECKSUM. Every byte of memory outside the payload stays. -/
def Obligations.ModeBDataFrameOutcome : Prop :=
  ∀ (op : Command) (n : Byte) (p : List Byte) (lo hi : Byte) (s : State),
    s.fsm = .run op .bRead2 → Memory.wf s.mem → (Instr.inData n p lo hi).wellFormed = true →
    s.ctr.frameTotal = n.toNat → 5 ≤ n.toNat → s.rxbuf.bytes = (n :: p ++ [lo, hi]).take 4 →
    ∃ t, exec (.inData n p lo hi) s = .next t ∧
      t = { s with rxbuf := Buffer.wiped, fsm := .idle, done := true,
                   result := if Config.crc16 (n :: p) = le16 lo hi
                             then { kind := .payload, status := 0#3, len := BitVec.ofNat 8 p.length, reason := .none }
                             else { kind := .null, status := 0#3, len := 0#8, reason := .checksum },
                   env := called s (.busRead (n.toNat - 4)) s, mem := t.mem } ∧
      (Config.crc16 (n :: p) ≠ le16 lo hi → t.mem = s.mem) ∧
      (Config.crc16 (n :: p) = le16 lo hi → bytesAt t.mem 0x200 p.length = p) ∧
      (∀ a, a < 0x200 ∨ 0x200 + p.length ≤ a → loadByte t.mem a = loadByte s.mem a)

/-- R163: a second read that does not return exactly `N - 4` bytes abandons the assembly with NULL and REASSEMBLY, with
no retry. -/
def Obligations.ModeBShortTailIsAbandoned : Prop :=
  ∀ (P : Params) (op : Command) (r : ReadAnswer) (s : State), s.fsm = .run op .bRead2 →
    (∀ t, r = .data t → t.length ≠ s.ctr.frameTotal - 4) →
    receive P (s.ctr.frameTotal - 4) r s =
      { s with rxbuf := Buffer.wiped, fsm := .idle, done := true, env := called s (.busRead (s.ctr.frameTotal - 4)) s,
               result := { kind := .null, status := 0#3, len := 0#8, reason := .reassembly } }

/-- R126: three failed first reads in a row, from the first attempt, are three reads and two delays, and then NULL with
READ_ERROR. -/
def Obligations.FirstChunkIsReadThreeTimes : Prop :=
  ∀ (P : Params) (op : Command) (s : State) (rest : List ReadAnswer),
    s.fsm = .run op .bRead1 → s.ctr.rdAttempt = 1 → s.env.readAnswers = .err :: .err :: .err :: rest →
    (blockSteps P 5 s).fsm = .idle ∧
    (blockSteps P 5 s).result = { kind := .null, status := 0#3, len := 0#8, reason := .readError } ∧
    (blockSteps P 5 s).env.calls =
      [.busRead 4, .delay s.regs.execTime, .busRead 4, .delay s.regs.execTime, .busRead 4] ++ s.env.calls ∧
    (blockSteps P 5 s).env.readAnswers = rest

/-! ### The wire rows as instructions -/

/-- A wire row is the port call it stands for: an outbound sequence that is what the FSM's next port call writes is sent,
and the write's answer acted on; an inbound frame is the answer of the read the FSM's next port call makes (at B_READ2, its
tail). Elsewhere nothing happens: the block emits and takes nothing else (R95, R62; the model's choice, logs 6 and 7). -/
def Obligations.WireRowsAreThePendingPortCall : Prop :=
  ∀ (i : Instr) (s : State) (bytes : List Byte),
    (encode i = .outbound bytes →
      (outbound s = some bytes → exec i s = .next (sendBytes bytes s)) ∧
      (outbound s ≠ some bytes → exec i s = .next s)) ∧
    (encode i = .inbound bytes →
      (∀ n, readWant s = some n → exec i s = .next (receive Config.params n (.data (framePart s n bytes)) s)) ∧
      (readWant s = none → exec i s = .next s))

/-! ### The whole machine -/

/-- The invariant is kept by every step of every agent. -/
def Obligations.EveryStepKeepsInvariant : Prop :=
  ∀ s t : State, s.Inv → step s = .next t → t.Inv

/-- From a state that meets the invariant no step faults or refuses: the block never stops (R178, R182). The one fault it
rules out is the model's own (log 8). -/
def Obligations.InvariantStatesAlwaysStep : Prop :=
  ∀ s : State, s.Inv → GoesOn (step s)

/-- R95, R133, R149: from a state that meets the invariant, whatever a step writes to the bus is the wake pulse, a control
byte, or the frame serialized from the descriptor, which is in range; and it reads and writes only while the session
is open. -/
def Obligations.OnlySpecifiedSequencesAreSent : Prop :=
  ∀ (s t : State) (bytes : List Byte), s.Inv → step s = .next t →
    (t.env.calls = .busWrite bytes :: s.env.calls → isOpen s = true ∧
      (bytes = [0x00, 0x00] ∨ bytes = [0x01] ∨ bytes = [0x02] ∨
        (bytes = serialize Config.params s ∧ s.regs.dataLen.toNat ≤ Config.maxDataLen.val))) ∧
    (∀ n, t.env.calls = .busRead n :: s.env.calls → isOpen s = true)

/-- R178, R179: `FATAL` is set only by a failed open in `SETUP` or a Mode A write answered at most 1, and cleared only by a
successful open in `SETUP` or by a reset. -/
def Obligations.FatalChangesOnlyAsSpecified : Prop :=
  ∀ s t : State, step s = .next t →
    (s.fatal = false → t.fatal = true →
      (∃ op, s.fsm = .run op .sOpen ∧ openAnswer s = false) ∨ (∃ op, s.fsm = .run op .aWrite ∧ writeAnswer s.txbuf.len s ≤ 1)) ∧
    (s.fatal = true → t.fatal = false →
      (∃ op, s.fsm = .run op .sOpen ∧ openAnswer s = true) ∨ (∃ rest, s.env.agenda = .reset :: rest))

/-- R77, R210: no step changes a byte of `DATA` but a reset and the host's own write to that byte. -/
def Obligations.BlockNeverWritesData : Prop :=
  ∀ (s t : State) (a : Nat), 0x100 ≤ a → a < 0x200 → step s = .next t →
    loadByte t.mem a = loadByte s.mem a ∨ (∃ rest, s.env.agenda = .reset :: rest) ∨
      (∃ v rest, s.env.agenda = .host (hostWord 1#1 (BitVec.ofNat 10 a) v) :: rest)

/-- R65, R69: while the block is IDLE, a turn that is no `CMD` write, `CLEAR` write or reset changes no result: not
`LAST_OP`, the result registers, `RESULT`, `FRAME`, `FRAME_LEN`, `CRC_RESULT`, `CRC_VALID`, `RETRY_LEFT`, nor the flags. -/
def Obligations.ResultsStayWhileIdle : Prop :=
  ∀ (s t : State), s.fsm = .idle → step s = .next t →
    (∀ rest, s.env.agenda ≠ .reset :: rest) →
    (∀ a v rest, s.env.agenda = .host (hostWord 1#1 a v) :: rest → a ≠ 0x000#10 ∧ a ≠ 0x002#10) →
    t.lastOp = s.lastOp ∧ t.done = s.done ∧ t.fatal = s.fatal ∧ t.reject = s.reject ∧ t.result = s.result ∧
      t.frameLen = s.frameLen ∧ t.crcResult = s.crcResult ∧ t.crcValid = s.crcValid ∧
      t.ctr.outerLeft = s.ctr.outerLeft ∧ t.fsm = .idle ∧
      ∀ a, 0x200 ≤ a → loadByte t.mem a = loadByte s.mem a

/-- R168, R122, R116, R121: a read whose bytes do not carry their checksum never ends in a PAYLOAD, in OK, or in the
status Success. The checksum is over the first two bytes at W_READ, at B_READ1 and of Mode A's status shape, over all
but the last two of Mode A's data frame, and over all but the last two of the `N` bytes that B_READ2 completes; the two
bytes after them, low byte first, are what it is compared with. -/
def Obligations.ChecksumMismatchNeverSucceeds : Prop :=
  ∀ (P : Params) (op : Command) (label : Label) (n : Nat) (r : ReadAnswer) (s : State),
    s.fsm = .run op label → s.result = Result.cleared → readWant s = some n →
    (label = .aRead → 3 ≤ s.ctr.recvLen) → (label = .bRead2 → s.rxbuf.len = 4 ∧ 5 ≤ s.ctr.frameTotal) →
    ((receive P n r s).result.kind = .payload ∨ (receive P n r s).result.kind = .ok ∨
      ((receive P n r s).result.kind = .status ∧ (receive P n r s).result.status = 0#3)) →
    ∃ bytes : List Byte, r = .data bytes ∧
      let carries (frame : List Byte) (k : Nat) : Prop :=
        P.crc16 (frame.take k) = le16 (frame.getD k 0x00) (frame.getD (k + 1) 0x00)
      ((label = .wRead ∨ label = .bRead1) → bytes.length = 4 ∧ carries bytes 2) ∧
      (label = .aRead → bytes.length = s.ctr.recvLen ∧
        if bytes.getD 0 0x00 = 0x04 ∧ 4 ≤ s.ctr.recvLen then carries bytes 2 else carries bytes (s.ctr.recvLen - 2)) ∧
      (label = .bRead2 → (s.rxbuf.bytes ++ bytes).length = s.ctr.frameTotal ∧
        carries (s.rxbuf.bytes ++ bytes) (s.ctr.frameTotal - 2))

/-- R170, R76: at the step that ends an operation, from a state that meets the invariant, both scratch buffers are wiped:
every byte zero and length 0. -/
def Obligations.BuffersAreWipedAtFinish : Prop :=
  ∀ s t : State, s.Inv → s.fsm ≠ .idle → step s = .next t → t.fsm = .idle →
    (∀ i, loadByte t.txbuf.cells i = 0x00) ∧ t.txbuf.len = 0 ∧
    (∀ i, loadByte t.rxbuf.cells i = 0x00) ∧ t.rxbuf.len = 0

/-- R172: two answers to Mode A's read that are status frames with the same first four bytes lead to the same state, whatever
the bytes after them. -/
def Obligations.BytesAfterStatusFrameDoNotMatter : Prop :=
  ∀ (b lo hi : Byte) (x y : List Byte) (op : Command) (s : State), s.fsm = .run op .aRead →
    x.length + 4 = s.ctr.recvLen → y.length = x.length →
    exec (.inStatus b lo hi x) s = exec (.inStatus b lo hi y) s
end

