-- ==== Sys2Proof/Laws/Bits.lean ====
section
/-! SUPPORT. Bit fields put together and taken apart (R17, R63, R64, R80). -/

namespace Sys2Proof.Machine

theorem getLsbD_extract_append (hi lo : Byte) (i : Nat) :
    (le16 lo hi).getLsbD i = if i < 8 then lo.getLsbD i else hi.getLsbD (i - 8) :=
  BitVec.getLsbD_append

/-- The low byte of a 16-bit field put together. -/
@[simp] theorem lo8_le16 (lo hi : Byte) : lo8 (le16 lo hi) = lo := by
  apply BitVec.eq_of_getLsbD_eq
  intro i h
  simp only [lo8, BitVec.getLsbD_extractLsb', getLsbD_extract_append]
  simp [h]

/-- The high byte of a 16-bit field put together. -/
@[simp] theorem hi8_le16 (lo hi : Byte) : hi8 (le16 lo hi) = hi := by
  apply BitVec.eq_of_getLsbD_eq
  intro i h
  simp only [hi8, BitVec.getLsbD_extractLsb', getLsbD_extract_append]
  simp [h]

/-- A 16-bit field is its two bytes (R63). -/
@[simp] theorem le16_lo8_hi8 (v : Half) : le16 (lo8 v) (hi8 v) = v := by
  apply BitVec.eq_of_getLsbD_eq
  intro i h
  rw [getLsbD_extract_append]
  simp only [lo8, hi8, BitVec.getLsbD_extractLsb']
  split
  · simp [*]
  · rw [show 8 + (i - 8) = i by omega]
    simp [show i - 8 < 8 by omega]

theorem getLsbD_le32 (b0 b1 b2 b3 : Byte) (i : Nat) :
    (le32 b0 b1 b2 b3).getLsbD i =
      if i < 8 then b0.getLsbD i else if i < 16 then b1.getLsbD (i - 8) else if i < 24 then b2.getLsbD (i - 16)
      else b3.getLsbD (i - 24) := by
  simp only [le32, BitVec.getLsbD_append]
  split_ifs <;> first | (exfalso; omega) | rfl

theorem byte32_le32 (b0 b1 b2 b3 : Byte) :
    byte32 (le32 b0 b1 b2 b3) 0 = b0 ∧ byte32 (le32 b0 b1 b2 b3) 1 = b1 ∧
      byte32 (le32 b0 b1 b2 b3) 2 = b2 ∧ byte32 (le32 b0 b1 b2 b3) 3 = b3 := by
  refine ⟨?_, ?_, ?_, ?_⟩ <;>
    (apply BitVec.eq_of_getLsbD_eq
     intro i h
     simp only [byte32, BitVec.getLsbD_extractLsb', getLsbD_le32, h, decide_true, Bool.true_and])
  · simp [h]
  · rw [if_neg (by omega), if_pos (by omega)]; congr 1; omega
  · rw [if_neg (by omega), if_neg (by omega), if_pos (by omega)]; congr 1; omega
  · rw [if_neg (by omega), if_neg (by omega), if_neg (by omega)]; congr 1; omega

/-! ### Host words -/

theorem getLsbD_hostWord (b : BitVec 1) (a : HostAddr) (v : Byte) (i : Nat) :
    (hostWord b a v).getLsbD i =
      if i < 8 then v.getLsbD i else if i < 18 then a.getLsbD (i - 8) else b.getLsbD (i - 18) := by
  simp only [hostWord, BitVec.getLsbD_append]
  split
  · rfl
  · split
    · rw [if_pos (by omega)]
    · rw [if_neg (by omega)]; congr 1

@[simp] theorem hostDataOf_hostWord (b : BitVec 1) (a : HostAddr) (v : Byte) : hostDataOf (hostWord b a v) = v := by
  apply BitVec.eq_of_getLsbD_eq
  intro i h
  simp [hostDataOf, getLsbD_hostWord, h]

@[simp] theorem hostAddrOf_hostWord (b : BitVec 1) (a : HostAddr) (v : Byte) : hostAddrOf (hostWord b a v) = a := by
  apply BitVec.eq_of_getLsbD_eq
  intro i h
  simp only [hostAddrOf, BitVec.getLsbD_extractLsb', getLsbD_hostWord]
  rw [if_neg (by omega), if_pos (by omega)]
  simp [h]

theorem extract_write_hostWord (b : BitVec 1) (a : HostAddr) (v : Byte) : (hostWord b a v).extractLsb' 18 1 = b := by
  apply BitVec.eq_of_getLsbD_eq
  intro i h
  simp only [BitVec.getLsbD_extractLsb', getLsbD_hostWord]
  rw [if_neg (by omega), if_neg (by omega)]
  simp [h]

@[simp] theorem hostIsWrite_hostWord (b : BitVec 1) (a : HostAddr) (v : Byte) :
    hostIsWrite (hostWord b a v) = (b == 1#1) := by
  simp only [hostIsWrite, extract_write_hostWord]

/-- A host word is its three fields (R80). -/
theorem hostWord_fields (w : HostWord) : hostWord (w.extractLsb' 18 1) (hostAddrOf w) (hostDataOf w) = w := by
  apply BitVec.eq_of_getLsbD_eq
  intro i h
  rw [getLsbD_hostWord]
  simp only [hostDataOf, hostAddrOf, BitVec.getLsbD_extractLsb']
  split
  · simp [*]
  · split
    · rw [show 8 + (i - 8) = i by omega]; simp [show i - 8 < 10 by omega]
    · rw [show 18 + (i - 18) = i by omega]; simp [show i - 18 < 1 by omega]

end Sys2Proof.Machine
end

