-- ==== Sys2Proof/Laws/Memory.lean ====
section
/-! SUPPORT. Memory and buffers: a read after a write, the canonical form, wiping. -/

namespace Sys2Proof.Machine

/-! ### The canonical form -/

theorem wf_nil : Memory.wf [] := ⟨List.Pairwise.nil, fun _ h => absurd h List.not_mem_nil⟩

theorem wf_tail {c : Host.Cell} {m : Memory} (h : Memory.wf (c :: m)) : Memory.wf m :=
  ⟨(List.pairwise_cons.1 h.1).2, fun d hd => h.2 d (List.mem_cons_of_mem _ hd)⟩

/-- A canonical memory has nothing at or below an address that precedes all its entries. -/
theorem loadByte_before {m : Memory} {a : Nat} (h : ∀ c ∈ m, a < c.1) : loadByte m a = unlistedByte := by
  induction m with
  | nil => rfl
  | cons c rest ih =>
    have hc := h c (by simp)
    simp only [loadByte, if_neg (by omega : ¬ c.1 = a)]
    exact ih fun d hd => h d (List.mem_cons_of_mem _ hd)

theorem loadByte_of_wf_cons {c : Host.Cell} {m : Memory} (h : Memory.wf (c :: m)) {a : Nat} (ha : a ≤ c.1) :
    loadByte m a = unlistedByte :=
  loadByte_before fun d hd => lt_of_le_of_lt ha ((List.pairwise_cons.1 h.1).1 d hd)

theorem loadByte_consByte_ne {m : Memory} {a b : Nat} {v : Byte} (h : b ≠ a) :
    loadByte (consByte a v m) b = loadByte m b := by
  unfold consByte
  split
  · rfl
  · simp only [loadByte, if_neg (Ne.symm h)]

theorem loadByte_consByte_self {m : Memory} {a : Nat} {v : Byte} (h : loadByte m a = unlistedByte) :
    loadByte (consByte a v m) a = v := by
  unfold consByte
  split
  · next hv => rw [h, hv]
  · simp [loadByte]

theorem wf_consByte {m : Memory} {a : Nat} {v : Byte} (h : Memory.wf m) (ha : ∀ c ∈ m, a < c.1) :
    Memory.wf (consByte a v m) := by
  unfold consByte
  split
  · exact h
  · next hv =>
    refine ⟨List.pairwise_cons.2 ⟨fun d hd => ha d hd, h.1⟩, ?_⟩
    intro d hd
    rcases List.mem_cons.1 hd with rfl | hd
    · exact hv
    · exact h.2 d hd

theorem mem_consByte {m : Memory} {a : Nat} {v : Byte} {c : Host.Cell} (h : c ∈ consByte a v m) :
    c.1 = a ∨ c ∈ m := by
  unfold consByte at h
  split at h
  · exact .inr h
  · rcases List.mem_cons.1 h with rfl | h
    · exact .inl rfl
    · exact .inr h

/-! ### One byte -/

theorem mem_storeByte {m : Memory} {a : Nat} {v : Byte} {c : Host.Cell} (h : c ∈ storeByte m a v) :
    c.1 = a ∨ c ∈ m := by
  induction m with
  | nil => exact mem_consByte h
  | cons d rest ih =>
    simp only [storeByte] at h
    split at h
    · exact mem_consByte h
    · split at h
      · rcases mem_consByte h with h | h
        · exact .inl h
        · exact .inr (List.mem_cons_of_mem _ h)
      · rcases List.mem_cons.1 h with rfl | h
        · exact .inr (by simp)
        · rcases ih h with h | h
          · exact .inl h
          · exact .inr (List.mem_cons_of_mem _ h)

/-- A store keeps the canonical form. -/
theorem wf_storeByte {m : Memory} {a : Nat} {v : Byte} (h : Memory.wf m) : Memory.wf (storeByte m a v) := by
  induction m with
  | nil => exact wf_consByte wf_nil (by simp)
  | cons c rest ih =>
    have hlt := (List.pairwise_cons.1 h.1).1
    simp only [storeByte]
    split
    · next ha =>
      refine wf_consByte h fun d hd => ?_
      rcases List.mem_cons.1 hd with rfl | hd
      · exact ha
      · exact ha.trans (hlt d hd)
    · split
      · next ha => exact wf_consByte (wf_tail h) fun d hd => ha ▸ hlt d hd
      · next h1 h2 =>
        have ih := ih (wf_tail h)
        refine ⟨List.pairwise_cons.2 ⟨fun d hd => ?_, ih.1⟩, fun d hd => ?_⟩
        · rcases mem_storeByte hd with hd | hd
          · omega
          · exact hlt d hd
        · rcases List.mem_cons.1 hd with rfl | hd
          · exact h.2 _ (by simp)
          · exact ih.2 d hd

/-- A store leaves every other address alone. -/
theorem loadByte_storeByte_ne {m : Memory} {a b : Nat} {v : Byte} (h : b ≠ a) :
    loadByte (storeByte m a v) b = loadByte m b := by
  induction m with
  | nil => exact loadByte_consByte_ne h
  | cons c rest ih =>
    simp only [storeByte]
    split
    · exact loadByte_consByte_ne h
    · split
      · next ha =>
        rw [loadByte_consByte_ne h]
        simp only [loadByte, if_neg (by omega : ¬ c.1 = b)]
      · simp only [loadByte, ih]

/-- A read after a store to the same address gives the value stored. -/
theorem loadByte_storeByte_self {m : Memory} {a : Nat} {v : Byte} (hm : Memory.wf m) :
    loadByte (storeByte m a v) a = v := by
  induction m with
  | nil => exact loadByte_consByte_self rfl
  | cons c rest ih =>
    simp only [storeByte]
    split
    · next ha =>
      refine loadByte_consByte_self ?_
      simp only [loadByte, if_neg (by omega : ¬ c.1 = a)]
      exact loadByte_of_wf_cons hm ha.le
    · split
      · next ha => exact loadByte_consByte_self (loadByte_of_wf_cons hm ha.le)
      · next h1 h2 => simp only [loadByte, if_neg (by omega : ¬ c.1 = a), ih (wf_tail hm)]

/-- What every address reads after a store. -/
theorem loadByte_storeByte {m : Memory} {a b : Nat} {v : Byte} (hm : Memory.wf m) :
    loadByte (storeByte m a v) b = if b = a then v else loadByte m b := by
  split
  · next h => rw [h, loadByte_storeByte_self hm]
  · next h => exact loadByte_storeByte_ne h

/-! ### Wiping -/

theorem mem_wipeBytes {m : Memory} {a n : Nat} {c : Host.Cell} (h : c ∈ wipeBytes m a n) : c ∈ m :=
  (List.mem_filter.1 h).1

/-- Wiping keeps the canonical form. -/
theorem wf_wipeBytes {m : Memory} {a n : Nat} (h : Memory.wf m) : Memory.wf (wipeBytes m a n) :=
  ⟨h.1.filter _, fun c hc => h.2 c (mem_wipeBytes hc)⟩

/-- A wiped address reads zero, every other address as before (R21). -/
theorem loadByte_wipeBytes (m : Memory) (a n b : Nat) :
    loadByte (wipeBytes m a n) b = if a ≤ b ∧ b < a + n then unlistedByte else loadByte m b := by
  induction m with
  | nil => simp [wipeBytes, loadByte]
  | cons c rest ih =>
    unfold wipeBytes at ih ⊢
    rw [List.filter_cons]
    split
    · next hc =>
      simp only [Bool.or_eq_true, decide_eq_true_eq] at hc
      simp only [loadByte, ih]
      split
      · next hb => rw [if_neg (by omega)]
      · rfl
    · next hc =>
      simp only [Bool.or_eq_true, decide_eq_true_eq, not_or, not_lt, not_le] at hc
      rw [ih]
      split
      · rfl
      · simp only [loadByte]; rw [if_neg (by omega)]

theorem wf_wipeResultAndFrame {m : Memory} (h : Memory.wf m) : Memory.wf (wipeResultAndFrame m) :=
  wf_wipeBytes (wf_wipeBytes h)

theorem mem_wipeResultAndFrame {m : Memory} {c : Host.Cell} (h : c ∈ wipeResultAndFrame m) : c ∈ m :=
  mem_wipeBytes (mem_wipeBytes h)

/-- After the wipe of `RESULT` and `FRAME` their bytes read zero, every other address as before (R104, R106). -/
theorem loadByte_wipeResultAndFrame (m : Memory) (b : Nat) :
    loadByte (wipeResultAndFrame m) b = if 0x200 ≤ b ∧ b < 0x400 then unlistedByte else loadByte m b := by
  simp only [wipeResultAndFrame, loadByte_wipeBytes, resultBase, frameBase, bufferSize]
  split_ifs <;> first | rfl | omega

/-! ### Several bytes -/

theorem mem_storeBytes {m : Memory} {a : Nat} {bs : List Byte} {c : Host.Cell} (h : c ∈ storeBytes m a bs) :
    (a ≤ c.1 ∧ c.1 < a + bs.length) ∨ c ∈ m := by
  induction bs generalizing m a with
  | nil => exact .inr h
  | cons b bs ih =>
    simp only [List.length_cons]
    rcases ih h with h | h
    · exact .inl ⟨by omega, by omega⟩
    · rcases mem_storeByte h with h | h
      · exact .inl ⟨by omega, by omega⟩
      · exact .inr h

/-- Storing several bytes keeps the canonical form. -/
theorem wf_storeBytes {m : Memory} {a : Nat} {bs : List Byte} (h : Memory.wf m) : Memory.wf (storeBytes m a bs) := by
  induction bs generalizing m a with
  | nil => exact h
  | cons b bs ih => exact ih (wf_storeByte h)

/-- Storing several bytes leaves every address outside them alone. -/
theorem loadByte_storeBytes_outside {m : Memory} {a b : Nat} {bs : List Byte} (h : b < a ∨ a + bs.length ≤ b) :
    loadByte (storeBytes m a bs) b = loadByte m b := by
  induction bs generalizing m a with
  | nil => rfl
  | cons v bs ih =>
    simp only [List.length_cons] at h
    rw [storeBytes, ih (by omega), loadByte_storeByte_ne (by omega)]

/-- A read of a stored byte gives that byte. -/
theorem loadByte_storeBytes_inside {m : Memory} {a i : Nat} {bs : List Byte} (hm : Memory.wf m) (h : i < bs.length) :
    loadByte (storeBytes m a bs) (a + i) = bs[i] := by
  induction bs generalizing m a i with
  | nil => simp at h
  | cons v bs ih =>
    rw [storeBytes]
    cases i with
    | zero =>
      rw [loadByte_storeBytes_outside (by omega)]
      simpa using loadByte_storeByte_self hm
    | succ i =>
      have := ih (m := storeByte m a v) (a := a + 1) (wf_storeByte hm) (i := i) (by simpa using h)
      simpa [Nat.add_assoc, Nat.add_comm 1 i] using this

@[simp] theorem length_loadBytes (m : Memory) (a n : Nat) : (loadBytes m a n).length = n := by
  induction n generalizing a with
  | zero => rfl
  | succ n ih => simp [loadBytes, ih]

theorem getElem_loadBytes (m : Memory) (a n i : Nat) (h : i < (loadBytes m a n).length) :
    (loadBytes m a n)[i] = loadByte m (a + i) := by
  induction n generalizing a i with
  | zero => simp [loadBytes] at h
  | succ n ih =>
    cases i with
    | zero => rfl
    | succ i =>
      have := ih (a + 1) i (by simpa [loadBytes] using h)
      simpa [loadBytes, Nat.add_assoc, Nat.add_comm 1 i] using this

/-- Reading back what was stored gives the bytes stored. -/
theorem loadBytes_storeBytes {m : Memory} {a : Nat} {bs : List Byte} (hm : Memory.wf m) :
    loadBytes (storeBytes m a bs) a bs.length = bs := by
  apply List.ext_getElem (by simp)
  intro i h1 h2
  rw [getElem_loadBytes, loadByte_storeBytes_inside hm h2]

/-- Two memories that read alike over a range give the same bytes of it. -/
theorem loadBytes_congr {m m' : Memory} {a n : Nat} (h : ∀ b, a ≤ b → b < a + n → loadByte m b = loadByte m' b) :
    loadBytes m a n = loadBytes m' a n := by
  apply List.ext_getElem (by simp)
  intro i h1 h2
  rw [getElem_loadBytes, getElem_loadBytes]
  simp only [length_loadBytes] at h1
  exact h _ (by omega) (by omega)

/-! ### Scratch buffers -/

@[simp] theorem ofBytes_len (bs : List Byte) : (Buffer.ofBytes bs).len = bs.length := rfl

/-- A buffer given bytes holds them (R53). -/
@[simp] theorem bytes_ofBytes (bs : List Byte) : (Buffer.ofBytes bs).bytes = bs := loadBytes_storeBytes wf_nil

@[simp] theorem length_bytes (b : Buffer) : b.bytes.length = b.len := length_loadBytes _ _ _

@[simp] theorem bytes_wiped : Buffer.wiped.bytes = [] := rfl

@[simp] theorem ofBytes_nil : Buffer.ofBytes [] = Buffer.wiped := rfl

/-- A buffer given bytes is in canonical form. -/
theorem wf_ofBytes (bs : List Byte) : Memory.wf (Buffer.ofBytes bs).cells := wf_storeBytes wf_nil

/-- A wiped buffer reads zero at every index (R21, R76). -/
theorem loadByte_wiped (i : Nat) : loadByte Buffer.wiped.cells i = 0x00 := rfl

end Sys2Proof.Machine
end

