-- ==== Sys2Proof/Laws/State.lean ====
section
/-! SUPPORT. One lemma per field of State per named update, so that no later proof unfolds a record update. -/

namespace Sys2Proof.Machine

/-! ### wipeTx -/

@[simp] theorem wipeTx_lastOp (s : State) : (wipeTx s).lastOp = s.lastOp := rfl
@[simp] theorem wipeTx_done (s : State) : (wipeTx s).done = s.done := rfl
@[simp] theorem wipeTx_fatal (s : State) : (wipeTx s).fatal = s.fatal := rfl
@[simp] theorem wipeTx_reject (s : State) : (wipeTx s).reject = s.reject := rfl
@[simp] theorem wipeTx_result (s : State) : (wipeTx s).result = s.result := rfl
@[simp] theorem wipeTx_regs (s : State) : (wipeTx s).regs = s.regs := rfl
@[simp] theorem wipeTx_frameLen (s : State) : (wipeTx s).frameLen = s.frameLen := rfl
@[simp] theorem wipeTx_crcValid (s : State) : (wipeTx s).crcValid = s.crcValid := rfl
@[simp] theorem wipeTx_crcResult (s : State) : (wipeTx s).crcResult = s.crcResult := rfl
@[simp] theorem wipeTx_mem (s : State) : (wipeTx s).mem = s.mem := rfl
@[simp] theorem wipeTx_session (s : State) : (wipeTx s).session = s.session := rfl
@[simp] theorem wipeTx_fsm (s : State) : (wipeTx s).fsm = s.fsm := rfl
@[simp] theorem wipeTx_txbuf (s : State) : (wipeTx s).txbuf = Buffer.wiped := rfl
@[simp] theorem wipeTx_rxbuf (s : State) : (wipeTx s).rxbuf = s.rxbuf := rfl
@[simp] theorem wipeTx_ctr (s : State) : (wipeTx s).ctr = s.ctr := rfl
@[simp] theorem wipeTx_env (s : State) : (wipeTx s).env = s.env := rfl

/-! ### wipeRx -/

@[simp] theorem wipeRx_lastOp (s : State) : (wipeRx s).lastOp = s.lastOp := rfl
@[simp] theorem wipeRx_done (s : State) : (wipeRx s).done = s.done := rfl
@[simp] theorem wipeRx_fatal (s : State) : (wipeRx s).fatal = s.fatal := rfl
@[simp] theorem wipeRx_reject (s : State) : (wipeRx s).reject = s.reject := rfl
@[simp] theorem wipeRx_result (s : State) : (wipeRx s).result = s.result := rfl
@[simp] theorem wipeRx_regs (s : State) : (wipeRx s).regs = s.regs := rfl
@[simp] theorem wipeRx_frameLen (s : State) : (wipeRx s).frameLen = s.frameLen := rfl
@[simp] theorem wipeRx_crcValid (s : State) : (wipeRx s).crcValid = s.crcValid := rfl
@[simp] theorem wipeRx_crcResult (s : State) : (wipeRx s).crcResult = s.crcResult := rfl
@[simp] theorem wipeRx_mem (s : State) : (wipeRx s).mem = s.mem := rfl
@[simp] theorem wipeRx_session (s : State) : (wipeRx s).session = s.session := rfl
@[simp] theorem wipeRx_fsm (s : State) : (wipeRx s).fsm = s.fsm := rfl
@[simp] theorem wipeRx_txbuf (s : State) : (wipeRx s).txbuf = s.txbuf := rfl
@[simp] theorem wipeRx_rxbuf (s : State) : (wipeRx s).rxbuf = Buffer.wiped := rfl
@[simp] theorem wipeRx_ctr (s : State) : (wipeRx s).ctr = s.ctr := rfl
@[simp] theorem wipeRx_env (s : State) : (wipeRx s).env = s.env := rfl

/-! ### loadRx -/

@[simp] theorem loadRx_lastOp (r : ReadAnswer) (s : State) : (loadRx r s).lastOp = s.lastOp := rfl
@[simp] theorem loadRx_done (r : ReadAnswer) (s : State) : (loadRx r s).done = s.done := rfl
@[simp] theorem loadRx_fatal (r : ReadAnswer) (s : State) : (loadRx r s).fatal = s.fatal := rfl
@[simp] theorem loadRx_reject (r : ReadAnswer) (s : State) : (loadRx r s).reject = s.reject := rfl
@[simp] theorem loadRx_result (r : ReadAnswer) (s : State) : (loadRx r s).result = s.result := rfl
@[simp] theorem loadRx_regs (r : ReadAnswer) (s : State) : (loadRx r s).regs = s.regs := rfl
@[simp] theorem loadRx_frameLen (r : ReadAnswer) (s : State) : (loadRx r s).frameLen = s.frameLen := rfl
@[simp] theorem loadRx_crcValid (r : ReadAnswer) (s : State) : (loadRx r s).crcValid = s.crcValid := rfl
@[simp] theorem loadRx_crcResult (r : ReadAnswer) (s : State) : (loadRx r s).crcResult = s.crcResult := rfl
@[simp] theorem loadRx_mem (r : ReadAnswer) (s : State) : (loadRx r s).mem = s.mem := rfl
@[simp] theorem loadRx_session (r : ReadAnswer) (s : State) : (loadRx r s).session = s.session := rfl
@[simp] theorem loadRx_fsm (r : ReadAnswer) (s : State) : (loadRx r s).fsm = s.fsm := rfl
@[simp] theorem loadRx_txbuf (r : ReadAnswer) (s : State) : (loadRx r s).txbuf = s.txbuf := rfl
@[simp] theorem loadRx_ctr (r : ReadAnswer) (s : State) : (loadRx r s).ctr = s.ctr := rfl
@[simp] theorem loadRx_env (r : ReadAnswer) (s : State) : (loadRx r s).env = s.env := rfl

/-! ### logCall -/

@[simp] theorem logCall_lastOp (c : PortCall) (s : State) : (logCall c s).lastOp = s.lastOp := rfl
@[simp] theorem logCall_done (c : PortCall) (s : State) : (logCall c s).done = s.done := rfl
@[simp] theorem logCall_fatal (c : PortCall) (s : State) : (logCall c s).fatal = s.fatal := rfl
@[simp] theorem logCall_reject (c : PortCall) (s : State) : (logCall c s).reject = s.reject := rfl
@[simp] theorem logCall_result (c : PortCall) (s : State) : (logCall c s).result = s.result := rfl
@[simp] theorem logCall_regs (c : PortCall) (s : State) : (logCall c s).regs = s.regs := rfl
@[simp] theorem logCall_frameLen (c : PortCall) (s : State) : (logCall c s).frameLen = s.frameLen := rfl
@[simp] theorem logCall_crcValid (c : PortCall) (s : State) : (logCall c s).crcValid = s.crcValid := rfl
@[simp] theorem logCall_crcResult (c : PortCall) (s : State) : (logCall c s).crcResult = s.crcResult := rfl
@[simp] theorem logCall_mem (c : PortCall) (s : State) : (logCall c s).mem = s.mem := rfl
@[simp] theorem logCall_session (c : PortCall) (s : State) : (logCall c s).session = s.session := rfl
@[simp] theorem logCall_fsm (c : PortCall) (s : State) : (logCall c s).fsm = s.fsm := rfl
@[simp] theorem logCall_txbuf (c : PortCall) (s : State) : (logCall c s).txbuf = s.txbuf := rfl
@[simp] theorem logCall_rxbuf (c : PortCall) (s : State) : (logCall c s).rxbuf = s.rxbuf := rfl
@[simp] theorem logCall_ctr (c : PortCall) (s : State) : (logCall c s).ctr = s.ctr := rfl
@[simp] theorem logCall_env (c : PortCall) (s : State) : (logCall c s).env = { s.env with calls := c :: s.env.calls } := rfl

/-! ### dropWrite -/

@[simp] theorem dropWrite_lastOp (s : State) : (dropWrite s).lastOp = s.lastOp := by unfold dropWrite; split <;> rfl
@[simp] theorem dropWrite_done (s : State) : (dropWrite s).done = s.done := by unfold dropWrite; split <;> rfl
@[simp] theorem dropWrite_fatal (s : State) : (dropWrite s).fatal = s.fatal := by unfold dropWrite; split <;> rfl
@[simp] theorem dropWrite_reject (s : State) : (dropWrite s).reject = s.reject := by unfold dropWrite; split <;> rfl
@[simp] theorem dropWrite_result (s : State) : (dropWrite s).result = s.result := by unfold dropWrite; split <;> rfl
@[simp] theorem dropWrite_regs (s : State) : (dropWrite s).regs = s.regs := by unfold dropWrite; split <;> rfl
@[simp] theorem dropWrite_frameLen (s : State) : (dropWrite s).frameLen = s.frameLen := by unfold dropWrite; split <;> rfl
@[simp] theorem dropWrite_crcValid (s : State) : (dropWrite s).crcValid = s.crcValid := by unfold dropWrite; split <;> rfl
@[simp] theorem dropWrite_crcResult (s : State) : (dropWrite s).crcResult = s.crcResult := by unfold dropWrite; split <;> rfl
@[simp] theorem dropWrite_mem (s : State) : (dropWrite s).mem = s.mem := by unfold dropWrite; split <;> rfl
@[simp] theorem dropWrite_session (s : State) : (dropWrite s).session = s.session := by unfold dropWrite; split <;> rfl
@[simp] theorem dropWrite_fsm (s : State) : (dropWrite s).fsm = s.fsm := by unfold dropWrite; split <;> rfl
@[simp] theorem dropWrite_txbuf (s : State) : (dropWrite s).txbuf = s.txbuf := by unfold dropWrite; split <;> rfl
@[simp] theorem dropWrite_rxbuf (s : State) : (dropWrite s).rxbuf = s.rxbuf := by unfold dropWrite; split <;> rfl
@[simp] theorem dropWrite_ctr (s : State) : (dropWrite s).ctr = s.ctr := by unfold dropWrite; split <;> rfl

/-! ### dropRead -/

@[simp] theorem dropRead_lastOp (s : State) : (dropRead s).lastOp = s.lastOp := by unfold dropRead; split <;> rfl
@[simp] theorem dropRead_done (s : State) : (dropRead s).done = s.done := by unfold dropRead; split <;> rfl
@[simp] theorem dropRead_fatal (s : State) : (dropRead s).fatal = s.fatal := by unfold dropRead; split <;> rfl
@[simp] theorem dropRead_reject (s : State) : (dropRead s).reject = s.reject := by unfold dropRead; split <;> rfl
@[simp] theorem dropRead_result (s : State) : (dropRead s).result = s.result := by unfold dropRead; split <;> rfl
@[simp] theorem dropRead_regs (s : State) : (dropRead s).regs = s.regs := by unfold dropRead; split <;> rfl
@[simp] theorem dropRead_frameLen (s : State) : (dropRead s).frameLen = s.frameLen := by unfold dropRead; split <;> rfl
@[simp] theorem dropRead_crcValid (s : State) : (dropRead s).crcValid = s.crcValid := by unfold dropRead; split <;> rfl
@[simp] theorem dropRead_crcResult (s : State) : (dropRead s).crcResult = s.crcResult := by unfold dropRead; split <;> rfl
@[simp] theorem dropRead_mem (s : State) : (dropRead s).mem = s.mem := by unfold dropRead; split <;> rfl
@[simp] theorem dropRead_session (s : State) : (dropRead s).session = s.session := by unfold dropRead; split <;> rfl
@[simp] theorem dropRead_fsm (s : State) : (dropRead s).fsm = s.fsm := by unfold dropRead; split <;> rfl
@[simp] theorem dropRead_txbuf (s : State) : (dropRead s).txbuf = s.txbuf := by unfold dropRead; split <;> rfl
@[simp] theorem dropRead_rxbuf (s : State) : (dropRead s).rxbuf = s.rxbuf := by unfold dropRead; split <;> rfl
@[simp] theorem dropRead_ctr (s : State) : (dropRead s).ctr = s.ctr := by unfold dropRead; split <;> rfl

/-! ### dropOpen -/

@[simp] theorem dropOpen_lastOp (s : State) : (dropOpen s).lastOp = s.lastOp := by unfold dropOpen; split <;> rfl
@[simp] theorem dropOpen_done (s : State) : (dropOpen s).done = s.done := by unfold dropOpen; split <;> rfl
@[simp] theorem dropOpen_fatal (s : State) : (dropOpen s).fatal = s.fatal := by unfold dropOpen; split <;> rfl
@[simp] theorem dropOpen_reject (s : State) : (dropOpen s).reject = s.reject := by unfold dropOpen; split <;> rfl
@[simp] theorem dropOpen_result (s : State) : (dropOpen s).result = s.result := by unfold dropOpen; split <;> rfl
@[simp] theorem dropOpen_regs (s : State) : (dropOpen s).regs = s.regs := by unfold dropOpen; split <;> rfl
@[simp] theorem dropOpen_frameLen (s : State) : (dropOpen s).frameLen = s.frameLen := by unfold dropOpen; split <;> rfl
@[simp] theorem dropOpen_crcValid (s : State) : (dropOpen s).crcValid = s.crcValid := by unfold dropOpen; split <;> rfl
@[simp] theorem dropOpen_crcResult (s : State) : (dropOpen s).crcResult = s.crcResult := by unfold dropOpen; split <;> rfl
@[simp] theorem dropOpen_mem (s : State) : (dropOpen s).mem = s.mem := by unfold dropOpen; split <;> rfl
@[simp] theorem dropOpen_session (s : State) : (dropOpen s).session = s.session := by unfold dropOpen; split <;> rfl
@[simp] theorem dropOpen_fsm (s : State) : (dropOpen s).fsm = s.fsm := by unfold dropOpen; split <;> rfl
@[simp] theorem dropOpen_txbuf (s : State) : (dropOpen s).txbuf = s.txbuf := by unfold dropOpen; split <;> rfl
@[simp] theorem dropOpen_rxbuf (s : State) : (dropOpen s).rxbuf = s.rxbuf := by unfold dropOpen; split <;> rfl
@[simp] theorem dropOpen_ctr (s : State) : (dropOpen s).ctr = s.ctr := by unfold dropOpen; split <;> rfl

/-! ### gotoLabel -/

@[simp] theorem gotoLabel_lastOp (op : Command) (l : Label) (s : State) : (gotoLabel op l s).lastOp = s.lastOp := rfl
@[simp] theorem gotoLabel_done (op : Command) (l : Label) (s : State) : (gotoLabel op l s).done = s.done := rfl
@[simp] theorem gotoLabel_fatal (op : Command) (l : Label) (s : State) : (gotoLabel op l s).fatal = s.fatal := rfl
@[simp] theorem gotoLabel_reject (op : Command) (l : Label) (s : State) : (gotoLabel op l s).reject = s.reject := rfl
@[simp] theorem gotoLabel_result (op : Command) (l : Label) (s : State) : (gotoLabel op l s).result = s.result := rfl
@[simp] theorem gotoLabel_regs (op : Command) (l : Label) (s : State) : (gotoLabel op l s).regs = s.regs := rfl
@[simp] theorem gotoLabel_frameLen (op : Command) (l : Label) (s : State) : (gotoLabel op l s).frameLen = s.frameLen := rfl
@[simp] theorem gotoLabel_crcValid (op : Command) (l : Label) (s : State) : (gotoLabel op l s).crcValid = s.crcValid := rfl
@[simp] theorem gotoLabel_crcResult (op : Command) (l : Label) (s : State) : (gotoLabel op l s).crcResult = s.crcResult := rfl
@[simp] theorem gotoLabel_mem (op : Command) (l : Label) (s : State) : (gotoLabel op l s).mem = s.mem := rfl
@[simp] theorem gotoLabel_session (op : Command) (l : Label) (s : State) : (gotoLabel op l s).session = s.session := rfl
@[simp] theorem gotoLabel_fsm (op : Command) (l : Label) (s : State) : (gotoLabel op l s).fsm = .run op l := rfl
@[simp] theorem gotoLabel_txbuf (op : Command) (l : Label) (s : State) : (gotoLabel op l s).txbuf = s.txbuf := rfl
@[simp] theorem gotoLabel_rxbuf (op : Command) (l : Label) (s : State) : (gotoLabel op l s).rxbuf = s.rxbuf := rfl
@[simp] theorem gotoLabel_ctr (op : Command) (l : Label) (s : State) : (gotoLabel op l s).ctr = s.ctr := rfl
@[simp] theorem gotoLabel_env (op : Command) (l : Label) (s : State) : (gotoLabel op l s).env = s.env := rfl

/-! ### finish -/

@[simp] theorem finish_lastOp (k : ResultKind) (st : BitVec 3) (len : Byte) (why : FailReason) (s : State) : (finish k st len why s).lastOp = s.lastOp := rfl
@[simp] theorem finish_done (k : ResultKind) (st : BitVec 3) (len : Byte) (why : FailReason) (s : State) : (finish k st len why s).done = true := rfl
@[simp] theorem finish_fatal (k : ResultKind) (st : BitVec 3) (len : Byte) (why : FailReason) (s : State) : (finish k st len why s).fatal = s.fatal := rfl
@[simp] theorem finish_reject (k : ResultKind) (st : BitVec 3) (len : Byte) (why : FailReason) (s : State) : (finish k st len why s).reject = s.reject := rfl
@[simp] theorem finish_result (k : ResultKind) (st : BitVec 3) (len : Byte) (why : FailReason) (s : State) : (finish k st len why s).result = { kind := k, status := st, len := len, reason := why } := rfl
@[simp] theorem finish_regs (k : ResultKind) (st : BitVec 3) (len : Byte) (why : FailReason) (s : State) : (finish k st len why s).regs = s.regs := rfl
@[simp] theorem finish_frameLen (k : ResultKind) (st : BitVec 3) (len : Byte) (why : FailReason) (s : State) : (finish k st len why s).frameLen = s.frameLen := rfl
@[simp] theorem finish_crcValid (k : ResultKind) (st : BitVec 3) (len : Byte) (why : FailReason) (s : State) : (finish k st len why s).crcValid = s.crcValid := rfl
@[simp] theorem finish_crcResult (k : ResultKind) (st : BitVec 3) (len : Byte) (why : FailReason) (s : State) : (finish k st len why s).crcResult = s.crcResult := rfl
@[simp] theorem finish_mem (k : ResultKind) (st : BitVec 3) (len : Byte) (why : FailReason) (s : State) : (finish k st len why s).mem = s.mem := rfl
@[simp] theorem finish_session (k : ResultKind) (st : BitVec 3) (len : Byte) (why : FailReason) (s : State) : (finish k st len why s).session = s.session := rfl
@[simp] theorem finish_fsm (k : ResultKind) (st : BitVec 3) (len : Byte) (why : FailReason) (s : State) : (finish k st len why s).fsm = .idle := rfl
@[simp] theorem finish_txbuf (k : ResultKind) (st : BitVec 3) (len : Byte) (why : FailReason) (s : State) : (finish k st len why s).txbuf = s.txbuf := rfl
@[simp] theorem finish_rxbuf (k : ResultKind) (st : BitVec 3) (len : Byte) (why : FailReason) (s : State) : (finish k st len why s).rxbuf = s.rxbuf := rfl
@[simp] theorem finish_ctr (k : ResultKind) (st : BitVec 3) (len : Byte) (why : FailReason) (s : State) : (finish k st len why s).ctr = s.ctr := rfl
@[simp] theorem finish_env (k : ResultKind) (st : BitVec 3) (len : Byte) (why : FailReason) (s : State) : (finish k st len why s).env = s.env := rfl

/-! ### raise -/

@[simp] theorem raise_lastOp (k : ResultKind) (why : FailReason) (s : State) : (raise k why s).lastOp = s.lastOp := rfl
@[simp] theorem raise_done (k : ResultKind) (why : FailReason) (s : State) : (raise k why s).done = true := rfl
@[simp] theorem raise_fatal (k : ResultKind) (why : FailReason) (s : State) : (raise k why s).fatal = s.fatal := rfl
@[simp] theorem raise_reject (k : ResultKind) (why : FailReason) (s : State) : (raise k why s).reject = s.reject := rfl
@[simp] theorem raise_result (k : ResultKind) (why : FailReason) (s : State) : (raise k why s).result = { kind := k, status := 0#3, len := 0#8, reason := why } := rfl
@[simp] theorem raise_regs (k : ResultKind) (why : FailReason) (s : State) : (raise k why s).regs = s.regs := rfl
@[simp] theorem raise_frameLen (k : ResultKind) (why : FailReason) (s : State) : (raise k why s).frameLen = s.frameLen := rfl
@[simp] theorem raise_crcValid (k : ResultKind) (why : FailReason) (s : State) : (raise k why s).crcValid = s.crcValid := rfl
@[simp] theorem raise_crcResult (k : ResultKind) (why : FailReason) (s : State) : (raise k why s).crcResult = s.crcResult := rfl
@[simp] theorem raise_mem (k : ResultKind) (why : FailReason) (s : State) : (raise k why s).mem = s.mem := rfl
@[simp] theorem raise_session (k : ResultKind) (why : FailReason) (s : State) : (raise k why s).session = s.session := rfl
@[simp] theorem raise_fsm (k : ResultKind) (why : FailReason) (s : State) : (raise k why s).fsm = .idle := rfl
@[simp] theorem raise_txbuf (k : ResultKind) (why : FailReason) (s : State) : (raise k why s).txbuf = s.txbuf := rfl
@[simp] theorem raise_rxbuf (k : ResultKind) (why : FailReason) (s : State) : (raise k why s).rxbuf = s.rxbuf := rfl
@[simp] theorem raise_ctr (k : ResultKind) (why : FailReason) (s : State) : (raise k why s).ctr = s.ctr := rfl
@[simp] theorem raise_env (k : ResultKind) (why : FailReason) (s : State) : (raise k why s).env = s.env := rfl

/-! ### rejectCommand -/

@[simp] theorem rejectCommand_lastOp (why : FailReason) (s : State) : (rejectCommand why s).lastOp = s.lastOp := rfl
@[simp] theorem rejectCommand_done (why : FailReason) (s : State) : (rejectCommand why s).done = true := rfl
@[simp] theorem rejectCommand_fatal (why : FailReason) (s : State) : (rejectCommand why s).fatal = s.fatal := rfl
@[simp] theorem rejectCommand_reject (why : FailReason) (s : State) : (rejectCommand why s).reject = true := rfl
@[simp] theorem rejectCommand_result (why : FailReason) (s : State) : (rejectCommand why s).result = { kind := .rejected, status := 0#3, len := 0#8, reason := why } := rfl
@[simp] theorem rejectCommand_regs (why : FailReason) (s : State) : (rejectCommand why s).regs = s.regs := rfl
@[simp] theorem rejectCommand_frameLen (why : FailReason) (s : State) : (rejectCommand why s).frameLen = s.frameLen := rfl
@[simp] theorem rejectCommand_crcValid (why : FailReason) (s : State) : (rejectCommand why s).crcValid = s.crcValid := rfl
@[simp] theorem rejectCommand_crcResult (why : FailReason) (s : State) : (rejectCommand why s).crcResult = s.crcResult := rfl
@[simp] theorem rejectCommand_mem (why : FailReason) (s : State) : (rejectCommand why s).mem = s.mem := rfl
@[simp] theorem rejectCommand_session (why : FailReason) (s : State) : (rejectCommand why s).session = s.session := rfl
@[simp] theorem rejectCommand_fsm (why : FailReason) (s : State) : (rejectCommand why s).fsm = .idle := rfl
@[simp] theorem rejectCommand_txbuf (why : FailReason) (s : State) : (rejectCommand why s).txbuf = s.txbuf := rfl
@[simp] theorem rejectCommand_rxbuf (why : FailReason) (s : State) : (rejectCommand why s).rxbuf = s.rxbuf := rfl
@[simp] theorem rejectCommand_ctr (why : FailReason) (s : State) : (rejectCommand why s).ctr = s.ctr := rfl
@[simp] theorem rejectCommand_env (why : FailReason) (s : State) : (rejectCommand why s).env = s.env := rfl

/-! ### ignoredUnderBusy -/

@[simp] theorem ignoredUnderBusy_lastOp (s : State) : (ignoredUnderBusy s).lastOp = s.lastOp := rfl
@[simp] theorem ignoredUnderBusy_done (s : State) : (ignoredUnderBusy s).done = s.done := rfl
@[simp] theorem ignoredUnderBusy_fatal (s : State) : (ignoredUnderBusy s).fatal = s.fatal := rfl
@[simp] theorem ignoredUnderBusy_reject (s : State) : (ignoredUnderBusy s).reject = true := rfl
@[simp] theorem ignoredUnderBusy_result (s : State) : (ignoredUnderBusy s).result = s.result := rfl
@[simp] theorem ignoredUnderBusy_regs (s : State) : (ignoredUnderBusy s).regs = s.regs := rfl
@[simp] theorem ignoredUnderBusy_frameLen (s : State) : (ignoredUnderBusy s).frameLen = s.frameLen := rfl
@[simp] theorem ignoredUnderBusy_crcValid (s : State) : (ignoredUnderBusy s).crcValid = s.crcValid := rfl
@[simp] theorem ignoredUnderBusy_crcResult (s : State) : (ignoredUnderBusy s).crcResult = s.crcResult := rfl
@[simp] theorem ignoredUnderBusy_mem (s : State) : (ignoredUnderBusy s).mem = s.mem := rfl
@[simp] theorem ignoredUnderBusy_session (s : State) : (ignoredUnderBusy s).session = s.session := rfl
@[simp] theorem ignoredUnderBusy_fsm (s : State) : (ignoredUnderBusy s).fsm = s.fsm := rfl
@[simp] theorem ignoredUnderBusy_txbuf (s : State) : (ignoredUnderBusy s).txbuf = s.txbuf := rfl
@[simp] theorem ignoredUnderBusy_rxbuf (s : State) : (ignoredUnderBusy s).rxbuf = s.rxbuf := rfl
@[simp] theorem ignoredUnderBusy_ctr (s : State) : (ignoredUnderBusy s).ctr = s.ctr := rfl
@[simp] theorem ignoredUnderBusy_env (s : State) : (ignoredUnderBusy s).env = s.env := rfl

/-! ### startCommon -/

@[simp] theorem startCommon_lastOp (v : Byte) (s : State) : (startCommon v s).lastOp = v := rfl
@[simp] theorem startCommon_done (v : Byte) (s : State) : (startCommon v s).done = false := rfl
@[simp] theorem startCommon_fatal (v : Byte) (s : State) : (startCommon v s).fatal = s.fatal := rfl
@[simp] theorem startCommon_reject (v : Byte) (s : State) : (startCommon v s).reject = s.reject := rfl
@[simp] theorem startCommon_result (v : Byte) (s : State) : (startCommon v s).result = Result.cleared := rfl
@[simp] theorem startCommon_regs (v : Byte) (s : State) : (startCommon v s).regs = s.regs := rfl
@[simp] theorem startCommon_frameLen (v : Byte) (s : State) : (startCommon v s).frameLen = 0#16 := rfl
@[simp] theorem startCommon_crcValid (v : Byte) (s : State) : (startCommon v s).crcValid = s.crcValid := rfl
@[simp] theorem startCommon_crcResult (v : Byte) (s : State) : (startCommon v s).crcResult = s.crcResult := rfl
@[simp] theorem startCommon_mem (v : Byte) (s : State) : (startCommon v s).mem = wipeResultAndFrame s.mem := rfl
@[simp] theorem startCommon_session (v : Byte) (s : State) : (startCommon v s).session = s.session := rfl
@[simp] theorem startCommon_fsm (v : Byte) (s : State) : (startCommon v s).fsm = s.fsm := rfl
@[simp] theorem startCommon_txbuf (v : Byte) (s : State) : (startCommon v s).txbuf = s.txbuf := rfl
@[simp] theorem startCommon_rxbuf (v : Byte) (s : State) : (startCommon v s).rxbuf = s.rxbuf := rfl
@[simp] theorem startCommon_ctr (v : Byte) (s : State) : (startCommon v s).ctr = s.ctr := rfl
@[simp] theorem startCommon_env (v : Byte) (s : State) : (startCommon v s).env = s.env := rfl

/-! ### clearResult -/

@[simp] theorem clearResult_lastOp (s : State) : (clearResult s).lastOp = s.lastOp := rfl
@[simp] theorem clearResult_done (s : State) : (clearResult s).done = false := rfl
@[simp] theorem clearResult_fatal (s : State) : (clearResult s).fatal = s.fatal := rfl
@[simp] theorem clearResult_reject (s : State) : (clearResult s).reject = false := rfl
@[simp] theorem clearResult_result (s : State) : (clearResult s).result = Result.cleared := rfl
@[simp] theorem clearResult_regs (s : State) : (clearResult s).regs = s.regs := rfl
@[simp] theorem clearResult_frameLen (s : State) : (clearResult s).frameLen = 0#16 := rfl
@[simp] theorem clearResult_crcValid (s : State) : (clearResult s).crcValid = s.crcValid := rfl
@[simp] theorem clearResult_crcResult (s : State) : (clearResult s).crcResult = s.crcResult := rfl
@[simp] theorem clearResult_mem (s : State) : (clearResult s).mem = wipeResultAndFrame s.mem := rfl
@[simp] theorem clearResult_session (s : State) : (clearResult s).session = s.session := rfl
@[simp] theorem clearResult_fsm (s : State) : (clearResult s).fsm = s.fsm := rfl
@[simp] theorem clearResult_txbuf (s : State) : (clearResult s).txbuf = s.txbuf := rfl
@[simp] theorem clearResult_rxbuf (s : State) : (clearResult s).rxbuf = s.rxbuf := rfl
@[simp] theorem clearResult_ctr (s : State) : (clearResult s).ctr = s.ctr := rfl
@[simp] theorem clearResult_env (s : State) : (clearResult s).env = s.env := rfl

/-! ### storeResult -/

@[simp] theorem storeResult_lastOp (p : List Byte) (s : State) : (storeResult p s).lastOp = s.lastOp := rfl
@[simp] theorem storeResult_done (p : List Byte) (s : State) : (storeResult p s).done = s.done := rfl
@[simp] theorem storeResult_fatal (p : List Byte) (s : State) : (storeResult p s).fatal = s.fatal := rfl
@[simp] theorem storeResult_reject (p : List Byte) (s : State) : (storeResult p s).reject = s.reject := rfl
@[simp] theorem storeResult_result (p : List Byte) (s : State) : (storeResult p s).result = s.result := rfl
@[simp] theorem storeResult_regs (p : List Byte) (s : State) : (storeResult p s).regs = s.regs := rfl
@[simp] theorem storeResult_frameLen (p : List Byte) (s : State) : (storeResult p s).frameLen = s.frameLen := rfl
@[simp] theorem storeResult_crcValid (p : List Byte) (s : State) : (storeResult p s).crcValid = s.crcValid := rfl
@[simp] theorem storeResult_crcResult (p : List Byte) (s : State) : (storeResult p s).crcResult = s.crcResult := rfl
@[simp] theorem storeResult_mem (p : List Byte) (s : State) : (storeResult p s).mem = storeBytes s.mem resultBase p := rfl
@[simp] theorem storeResult_session (p : List Byte) (s : State) : (storeResult p s).session = s.session := rfl
@[simp] theorem storeResult_fsm (p : List Byte) (s : State) : (storeResult p s).fsm = s.fsm := rfl
@[simp] theorem storeResult_txbuf (p : List Byte) (s : State) : (storeResult p s).txbuf = s.txbuf := rfl
@[simp] theorem storeResult_rxbuf (p : List Byte) (s : State) : (storeResult p s).rxbuf = s.rxbuf := rfl
@[simp] theorem storeResult_ctr (p : List Byte) (s : State) : (storeResult p s).ctr = s.ctr := rfl
@[simp] theorem storeResult_env (p : List Byte) (s : State) : (storeResult p s).env = s.env := rfl

/-! ### setAgenda -/

@[simp] theorem setAgenda_lastOp (turns : List Turn) (s : State) : (setAgenda turns s).lastOp = s.lastOp := rfl
@[simp] theorem setAgenda_done (turns : List Turn) (s : State) : (setAgenda turns s).done = s.done := rfl
@[simp] theorem setAgenda_fatal (turns : List Turn) (s : State) : (setAgenda turns s).fatal = s.fatal := rfl
@[simp] theorem setAgenda_reject (turns : List Turn) (s : State) : (setAgenda turns s).reject = s.reject := rfl
@[simp] theorem setAgenda_result (turns : List Turn) (s : State) : (setAgenda turns s).result = s.result := rfl
@[simp] theorem setAgenda_regs (turns : List Turn) (s : State) : (setAgenda turns s).regs = s.regs := rfl
@[simp] theorem setAgenda_frameLen (turns : List Turn) (s : State) : (setAgenda turns s).frameLen = s.frameLen := rfl
@[simp] theorem setAgenda_crcValid (turns : List Turn) (s : State) : (setAgenda turns s).crcValid = s.crcValid := rfl
@[simp] theorem setAgenda_crcResult (turns : List Turn) (s : State) : (setAgenda turns s).crcResult = s.crcResult := rfl
@[simp] theorem setAgenda_mem (turns : List Turn) (s : State) : (setAgenda turns s).mem = s.mem := rfl
@[simp] theorem setAgenda_session (turns : List Turn) (s : State) : (setAgenda turns s).session = s.session := rfl
@[simp] theorem setAgenda_fsm (turns : List Turn) (s : State) : (setAgenda turns s).fsm = s.fsm := rfl
@[simp] theorem setAgenda_txbuf (turns : List Turn) (s : State) : (setAgenda turns s).txbuf = s.txbuf := rfl
@[simp] theorem setAgenda_rxbuf (turns : List Turn) (s : State) : (setAgenda turns s).rxbuf = s.rxbuf := rfl
@[simp] theorem setAgenda_ctr (turns : List Turn) (s : State) : (setAgenda turns s).ctr = s.ctr := rfl
@[simp] theorem setAgenda_env (turns : List Turn) (s : State) : (setAgenda turns s).env = { s.env with agenda := turns } := rfl

/-! ### resetBlock -/

@[simp] theorem resetBlock_lastOp (s : State) : (resetBlock s).lastOp = State.reset.lastOp := rfl
@[simp] theorem resetBlock_done (s : State) : (resetBlock s).done = State.reset.done := rfl
@[simp] theorem resetBlock_fatal (s : State) : (resetBlock s).fatal = State.reset.fatal := rfl
@[simp] theorem resetBlock_reject (s : State) : (resetBlock s).reject = State.reset.reject := rfl
@[simp] theorem resetBlock_result (s : State) : (resetBlock s).result = State.reset.result := rfl
@[simp] theorem resetBlock_regs (s : State) : (resetBlock s).regs = State.reset.regs := rfl
@[simp] theorem resetBlock_frameLen (s : State) : (resetBlock s).frameLen = State.reset.frameLen := rfl
@[simp] theorem resetBlock_crcValid (s : State) : (resetBlock s).crcValid = State.reset.crcValid := rfl
@[simp] theorem resetBlock_crcResult (s : State) : (resetBlock s).crcResult = State.reset.crcResult := rfl
@[simp] theorem resetBlock_mem (s : State) : (resetBlock s).mem = State.reset.mem := rfl
@[simp] theorem resetBlock_session (s : State) : (resetBlock s).session = State.reset.session := rfl
@[simp] theorem resetBlock_fsm (s : State) : (resetBlock s).fsm = State.reset.fsm := rfl
@[simp] theorem resetBlock_txbuf (s : State) : (resetBlock s).txbuf = State.reset.txbuf := rfl
@[simp] theorem resetBlock_rxbuf (s : State) : (resetBlock s).rxbuf = State.reset.rxbuf := rfl
@[simp] theorem resetBlock_ctr (s : State) : (resetBlock s).ctr = State.reset.ctr := rfl
@[simp] theorem resetBlock_env (s : State) : (resetBlock s).env = (abandonCall s).env := rfl

end Sys2Proof.Machine
end

