-- ==== Sys2Proof/Laws/Ops.lean ====
section
/-! SUPPORT. For each shared operation, what it can do. -/

namespace Sys2Proof.Machine

/-! ### The BUSY rule and acceptance -/

theorem isBusy_of_idle {s : State} (h : s.fsm = .idle) : isBusy s = false := by simp [isBusy, h]

theorem isBusy_of_ne {s : State} (h : s.fsm ≠ .idle) : isBusy s = true := by simp [isBusy, h]

/-- While IDLE a host write has its effect (R100). -/
theorem whenIdle_idle {f : State → State} {s : State} (h : s.fsm = .idle) : whenIdle f s = f s := by
  simp [whenIdle, isBusy_of_idle h]

/-- While BUSY a host write sets `REJECT` and nothing else (R103). -/
theorem whenIdle_busy {f : State → State} {s : State} (h : s.fsm ≠ .idle) :
    whenIdle f s = { s with reject := true } := by
  simp [whenIdle, isBusy_of_ne h, ignoredUnderBusy]

theorem isOpen_iff {s : State} : isOpen s = true ↔ s.session ≠ .closed := by
  unfold isOpen; split <;> simp [*]

theorem isOpen_eq_false_iff {s : State} : isOpen s = false ↔ s.session = .closed := by
  unfold isOpen; split <;> simp [*]

/-- The checks of acceptance read nothing that the start of a command writes (R101, R104). -/
@[simp] theorem rejectReason_startCommon (P : Params) (op : Command) (v : Byte) (s : State) :
    rejectReason P op (startCommon v s) = rejectReason P op s := rfl

/-- A command that passes the checks runs its acceptance step (R101). -/
theorem issue_accepted {P : Params} {op : Command} {accept : State → State} {s : State}
    (h : rejectReason P op s = none) : issue P op accept s = accept (startCommon op.code s) := by
  simp [issue, h]

/-- A command that fails a check is rejected with that check's reason (R101, R102). -/
theorem issue_rejected {P : Params} {op : Command} {accept : State → State} {s : State} {why : FailReason}
    (h : rejectReason P op s = some why) : issue P op accept s = rejectCommand why (startCommon op.code s) := by
  simp [issue, h]

/-- A memory with `RESULT` and `FRAME` wiped. -/
theorem resultsWiped_of_mem {s t : State} (h : t.mem = wipeResultAndFrame s.mem) : ResultsWiped s t := by
  intro a
  rw [h, loadByte_wipeResultAndFrame]
  rfl

/-- The start of a command leaves every byte outside `RESULT` and `FRAME` (R104). -/
theorem startCommon_wipes (v : Byte) (s : State) : ResultsWiped s (startCommon v s) :=
  loadByte_wipeResultAndFrame s.mem

/-- `CLEAR` leaves every byte outside `RESULT` and `FRAME` (R106). -/
theorem clearResult_wipes (s : State) : ResultsWiped s (clearResult s) := loadByte_wipeResultAndFrame s.mem

/-! ### Operand ranges -/

/-- A range of memory byte by byte. -/
theorem loadBytes_eq_bytesAt (m : Memory) (a n : Nat) : loadBytes m a n = bytesAt m a n := by
  apply List.ext_getElem (by simp [bytesAt])
  intro i h1 h2
  simp [getElem_loadBytes, bytesAt]

@[simp] theorem length_bytesAt (m : Memory) (a n : Nat) : (bytesAt m a n).length = n := by simp [bytesAt]

/-- The start of a command does not change `DATA` (R77, R104). -/
theorem dataBytes_startCommon {n : Nat} (hn : n ≤ 256) (v : Byte) (s : State) :
    dataBytes n (startCommon v s) = dataBytes n s := by
  refine loadBytes_congr fun b h1 h2 => ?_
  simp only [dataBase] at h1 h2
  rw [startCommon_mem, loadByte_wipeResultAndFrame, if_neg (by omega)]

theorem crcData_startCommon (v : Byte) (s : State) : crcData (startCommon v s) = crcData s :=
  dataBytes_startCommon (by have := s.regs.crcLen.isLt; simp only [startCommon_regs]; omega) v s

theorem commandData_startCommon (v : Byte) (s : State) : commandData (startCommon v s) = commandData s :=
  dataBytes_startCommon (by have := s.regs.dataLen.isLt; simp only [startCommon_regs]; omega) v s

theorem serialize_startCommon (P : Params) (v : Byte) (s : State) :
    serialize P (startCommon v s) = serialize P s := by
  simp [serialize, frameBody, commandData_startCommon]

@[simp] theorem length_commandData (s : State) : (commandData s).length = s.regs.dataLen.toNat := by
  simp [commandData, dataBytes]

@[simp] theorem length_frameBody (s : State) : (frameBody s).length = 5 + s.regs.dataLen.toNat := by
  simp [frameBody]; omega

/-- A serialized frame has `8 + n` bytes (R141). -/
@[simp] theorem length_serialize (P : Params) (s : State) : (serialize P s).length = 8 + s.regs.dataLen.toNat := by
  simp [serialize]; omega

/-! ### Ports -/

/-- Consuming a read answer changes nothing a label's step reads. -/
@[simp] theorem outbound_dropRead (s : State) : outbound (dropRead s) = outbound s := by
  simp [outbound]

@[simp] theorem readWant_dropRead (s : State) : readWant (dropRead s) = readWant s := by
  simp [readWant]

@[simp] theorem framePart_dropRead (s : State) (n : Nat) (f : List Byte) :
    framePart (dropRead s) n f = framePart s n f := by
  simp [framePart]

/-- The part of a completed frame that a read delivers is the read's answer. -/
theorem framePart_completedFrame {s : State} {n : Nat} {bytes : List Byte} (h : bytes.length = n) :
    framePart s n (completedFrame s bytes) = bytes := by
  subst h
  unfold framePart completedFrame
  split
  · next h => simp only [h, List.drop_left' (length_bytes s.rxbuf), List.take_length]
  · next h =>
    split
    · next op h' => exact absurd h' (h op)
    · simp

/-- A sequence that the FSM's next port call writes is sent. -/
theorem emit_pending {bytes : List Byte} {s : State} (h : outbound s = some bytes) :
    emit bytes s = sendBytes bytes s := by simp [emit, h]

/-- A sequence that it does not write is not sent. -/
theorem emit_other {bytes : List Byte} {s : State} (h : outbound s ≠ some bytes) : emit bytes s = s := by
  simp [emit, h]

/-- An inbound frame answers the pending read. -/
theorem deliver_pending {P : Params} {frame : List Byte} {s : State} {n : Nat} (h : readWant s = some n) :
    deliver P frame s = receive P n (.data (framePart s n frame)) s := by simp [deliver, h]

/-- Without a pending read nothing is taken from the bus. -/
theorem deliver_none {P : Params} {frame : List Byte} {s : State} (h : readWant s = none) :
    deliver P frame s = s := by simp [deliver, h]

/-- A write answer is at most the bytes written (R123, D35). -/
theorem writeAnswer_le (n : Nat) (s : State) : writeAnswer n s ≤ n := by
  unfold writeAnswer boundCount
  split <;> split <;> omega

/-- A listed write answer within the bytes written is the one received (R123). -/
theorem writeAnswer_listed {n : Nat} {w : Int} {ws : List Int} {s : State} (h : s.env.writeAnswers = w :: ws) (hw : w ≤ n) :
    writeAnswer n s = w := by
  simp [writeAnswer, h, boundCount, hw]

/-- A read answer has at most the bytes asked for (R123). -/
theorem length_readAnswer {n : Nat} {s : State} {b : List Byte} (h : readAnswer n s = .data b) : b.length ≤ n := by
  unfold readAnswer at h
  split at h <;> (unfold clipAnswer at h; split at h <;> simp at h; subst h; simp)

/-! ### The environment -/

@[simp] theorem dropWrite_agenda (s : State) : (dropWrite s).env.agenda = s.env.agenda := by
  unfold dropWrite; split <;> rfl
@[simp] theorem dropWrite_calls (s : State) : (dropWrite s).env.calls = s.env.calls := by
  unfold dropWrite; split <;> rfl
@[simp] theorem dropWrite_hostData (s : State) : (dropWrite s).env.hostData = s.env.hostData := by
  unfold dropWrite; split <;> rfl
@[simp] theorem dropWrite_readAnswers (s : State) : (dropWrite s).env.readAnswers = s.env.readAnswers := by
  unfold dropWrite; split <;> rfl
@[simp] theorem dropRead_agenda (s : State) : (dropRead s).env.agenda = s.env.agenda := by
  unfold dropRead; split <;> rfl
@[simp] theorem dropRead_calls (s : State) : (dropRead s).env.calls = s.env.calls := by
  unfold dropRead; split <;> rfl
@[simp] theorem dropRead_hostData (s : State) : (dropRead s).env.hostData = s.env.hostData := by
  unfold dropRead; split <;> rfl
@[simp] theorem dropRead_writeAnswers (s : State) : (dropRead s).env.writeAnswers = s.env.writeAnswers := by
  unfold dropRead; split <;> rfl
@[simp] theorem dropOpen_agenda (s : State) : (dropOpen s).env.agenda = s.env.agenda := by
  unfold dropOpen; split <;> rfl
@[simp] theorem dropOpen_calls (s : State) : (dropOpen s).env.calls = s.env.calls := by
  unfold dropOpen; split <;> rfl
@[simp] theorem dropOpen_hostData (s : State) : (dropOpen s).env.hostData = s.env.hostData := by
  unfold dropOpen; split <;> rfl

/-- Abandoning a call drops an answer at most (R192). -/
@[simp] theorem abandonCall_agenda (s : State) : (abandonCall s).env.agenda = s.env.agenda := by
  unfold abandonCall; split <;> simp
@[simp] theorem abandonCall_calls (s : State) : (abandonCall s).env.calls = s.env.calls := by
  unfold abandonCall; split <;> simp
@[simp] theorem abandonCall_hostData (s : State) : (abandonCall s).env.hostData = s.env.hostData := by
  unfold abandonCall; split <;> simp

/-! ### Steps -/

/-- Every instruction of the table goes on. -/
theorem exec_goes_on (i : Instr) (s : State) : GoesOn (exec i s) := by
  cases i <;> exact ⟨_, rfl⟩

/-- What a step can do: run an instruction it fetched, make a move of its own, or stop at an FSM value that no rule
defines. -/
theorem step_cases (s : State) :
    (∃ i t, fetch s = .instr i t ∧ step s = exec i t) ∨ (∃ t, fetch s = .moved t ∧ step s = .next t) ∨
      (fetch s = .stuck .undefinedLabel ∧ step s = .fault .undefinedLabel) := by
  unfold step
  cases h : fetch s with
  | instr i t => exact .inl ⟨i, t, rfl, rfl⟩
  | moved t => exact .inr (.inl ⟨t, rfl, rfl⟩)
  | stuck f => cases f; exact .inr (.inr ⟨rfl, rfl⟩)

end Sys2Proof.Machine
end

