-- ==== Sys2Proof/Laws/PerInstr.lean ====
section
/-! SUPPORT. A statement about every instruction, one lemma per constructor: the size of its encoding. -/

namespace Sys2Proof.Laws.EncodedSize

/-- A well-formed instruction's encoding has the kind and the size of its row's format (R79): a host word; a wake
pulse of two bytes; a control byte; a command frame of 8 to 256 bytes; a read of 4 to 255 bytes that starts with
a status frame; a data frame of 3 to 255 bytes. -/
def Statement (i : Instr) : Prop :=
  i.wellFormed = true →
    match encode i with
    | .host _ => i.hostRow.isSome = true
    | .outbound bytes => i.hostRow = none ∧ (bytes.length = 1 ∨ bytes.length = 2 ∨ (8 ≤ bytes.length ∧ bytes.length ≤ 256))
    | .inbound bytes => i.hostRow = none ∧ 3 ≤ bytes.length ∧ bytes.length ≤ 255

theorem cmdCrcGen : Statement .cmdCrcGen := fun _ => rfl
theorem cmdCrcCheck : Statement .cmdCrcCheck := fun _ => rfl
theorem cmdFrame : Statement .cmdFrame := fun _ => rfl
theorem cmdSetup : Statement .cmdSetup := fun _ => rfl
theorem cmdTeardown : Statement .cmdTeardown := fun _ => rfl
theorem cmdWake : Statement .cmdWake := fun _ => rfl
theorem cmdSleep : Statement .cmdSleep := fun _ => rfl
theorem cmdIdle : Statement .cmdIdle := fun _ => rfl
theorem cmdSendRecv : Statement .cmdSendRecv := fun _ => rfl
theorem cmdSendGetRsp : Statement .cmdSendGetRsp := fun _ => rfl
theorem cmdReserved (code : Byte) : Statement (.cmdReserved code) := fun _ => rfl
theorem clear (ignored : BitVec 7) : Statement (.clear ignored) := fun _ => rfl
theorem clearNop (ignored : BitVec 7) : Statement (.clearNop ignored) := fun _ => rfl
theorem regWrite (addr : HostAddr) (data : Byte) : Statement (.regWrite addr data) := fun _ => rfl
theorem regRead (addr : HostAddr) (ignored : Byte) : Statement (.regRead addr ignored) := fun _ => rfl
theorem wireWake : Statement .wireWake := fun _ => ⟨rfl, .inr (.inl rfl)⟩
theorem wireSleep : Statement .wireSleep := fun _ => ⟨rfl, .inl rfl⟩
theorem wireIdle : Statement .wireIdle := fun _ => ⟨rfl, .inl rfl⟩

theorem wireCmd (f : CmdFrame) : Statement (.wireCmd f) := by
  intro h
  simp only [Instr.wellFormed, Bool.and_eq_true, decide_eq_true_eq] at h
  refine ⟨rfl, .inr (.inr ?_)⟩
  simp only [CmdFrame.bytes, List.length_append, List.length_cons, List.length_nil]
  omega

theorem inStatus (status crcLo crcHi : Byte) (trailing : List Byte) :
    Statement (.inStatus status crcLo crcHi trailing) := by
  intro h
  simp only [Instr.wellFormed, decide_eq_true_eq] at h
  refine ⟨rfl, ?_⟩
  simp only [statusFrameBytes, List.length_append, List.length_cons, List.length_nil]
  omega

theorem inData (total : Byte) (payload : List Byte) (crcLo crcHi : Byte) :
    Statement (.inData total payload crcLo crcHi) := by
  intro h
  simp only [Instr.wellFormed, Bool.and_eq_true, decide_eq_true_eq] at h
  refine ⟨rfl, ?_⟩
  simp only [dataFrameBytes, List.length_append, List.length_cons, List.length_nil]
  have := total.isLt
  omega

end Sys2Proof.Laws.EncodedSize
end

