-- ==== Sys2Proof/Tests/Slice0.lean ====
section
/-! SUPPORT. Tests: ill-formed terms, words written out from the encoding tables, single steps from the spec's own
vectors (95_test_vectors.md) under its default parameters, and one witness for each statement with hypotheses. -/

namespace Sys2Proof.Machine

/-! ### Ill-formed terms are refused -/

theorem test_wf_reserved_code : (Instr.cmdReserved 0x01).wellFormed = false := by decide
theorem test_wf_reserved_code_last : (Instr.cmdReserved 0x31).wellFormed = false := by decide
theorem test_wf_write_cmd : (Instr.regWrite 0x000 0x01).wellFormed = false := by decide
theorem test_wf_write_clear : (Instr.regWrite 0x002 0x01).wellFormed = false := by decide
theorem test_wf_cmd_count : (Instr.wireCmd ⟨0x03, 0x08, 0x02, 0, 0, 0, [], 0x1E, 0x2D⟩).wellFormed = false := by decide
theorem test_wf_cmd_data : (Instr.wireCmd ⟨0x03, 0x00, 0x02, 0, 0, 0, List.replicate 249 0, 0, 0⟩).wellFormed = false := by
  decide +kernel
theorem test_wf_status_trailing : (Instr.inStatus 0x11 0x33 0x43 (List.replicate 252 0)).wellFormed = false := by
  decide +kernel
theorem test_wf_data_length : (Instr.inData 0x06 [0x42, 0x86] 0xC0 0x85).wellFormed = false := by decide
theorem test_wf_data_status : (Instr.inData 0x04 [0x11] 0x33 0x43).wellFormed = false := by decide

/-! ### Words written out from R80 to R90 -/

/-- A host word bit by bit (R80): `W` = 1, `ADDR` = 0, `DATA` = the code of R81. -/
theorem test_decode_crc_gen : decodeHost 0b1_0000000000_00000001#19 = .cmdCrcGen := by decide
theorem test_decode_crc_check : decodeHost 0b1_0000000000_00000010#19 = .cmdCrcCheck := by decide
theorem test_decode_frame : decodeHost 0b1_0000000000_00010000#19 = .cmdFrame := by decide
theorem test_decode_setup : decodeHost 0b1_0000000000_00100000#19 = .cmdSetup := by decide
theorem test_decode_teardown : decodeHost 0b1_0000000000_00100001#19 = .cmdTeardown := by decide
theorem test_decode_wake : decodeHost 0b1_0000000000_00100010#19 = .cmdWake := by decide
theorem test_decode_sleep : decodeHost 0b1_0000000000_00100011#19 = .cmdSleep := by decide
theorem test_decode_idle : decodeHost 0b1_0000000000_00100100#19 = .cmdIdle := by decide
theorem test_decode_send_recv : decodeHost 0b1_0000000000_00110000#19 = .cmdSendRecv := by decide
theorem test_decode_send_get_rsp : decodeHost 0b1_0000000000_00110001#19 = .cmdSendGetRsp := by decide
theorem test_decode_reserved : decodeHost 0b1_0000000000_00100101#19 = .cmdReserved 0x25 := by decide
theorem test_decode_clear : decodeHost 0b1_0000000010_10000001#19 = .clear 0x40 := by decide
theorem test_decode_clear_nop : decodeHost 0b1_0000000010_11111110#19 = .clearNop 0x7F := by decide
theorem test_decode_reg_write : decodeHost 0b1_0100000000_00000100#19 = .regWrite 0x100 0x04 := by decide
theorem test_decode_reg_read : decodeHost 0b0_0000000001_00000000#19 = .regRead 0x001 0x00 := by decide
theorem test_decode_wire_wake : decodeOutbound [0b00000000, 0b00000000] = some .wireWake := by decide
theorem test_decode_wire_sleep : decodeOutbound [0b00000001] = some .wireSleep := by decide
theorem test_decode_wire_idle : decodeOutbound [0b00000010] = some .wireIdle := by decide
/-- The frame F1 of 95_test_vectors.md §2.3. -/
theorem test_decode_wire_cmd : decodeOutbound [0x03, 0x07, 0x02, 0x00, 0x00, 0x00, 0x1E, 0x2D] =
    some (.wireCmd ⟨0x03, 0x07, 0x02, 0x00, 0x00, 0x00, [], 0x1E, 0x2D⟩) := by decide
theorem test_decode_in_status : decodeInbound [0b00000100, 0x0F, 0x23, 0x42] = some (.inStatus 0x0F 0x23 0x42 []) := by decide
theorem test_decode_in_data : decodeInbound [0x07, 0x01, 0x02, 0x03, 0x04, 0xF3, 0x28] =
    some (.inData 0x07 [0x01, 0x02, 0x03, 0x04] 0xF3 0x28) := by decide

/-- No other outbound sequence exists (R95); an inbound first byte that is no length selects no shape (R91). -/
theorem test_decode_no_shape : decodeOutbound [0x03] = none ∧ decodeInbound [0x09, 0, 0, 0, 0, 0, 0] = none := by decide

/-- The table's numbering of a host row and of the three kinds of wire row (log 9). -/
theorem test_table_word_host : decodeTableWord 24 0x40F64 = some (.regWrite 0x00F 0x64) := by decide
theorem test_table_word_control : decodeTableWord 8 0x02 = some .wireIdle ∧ decodeTableWord 16 0 = some .wireWake := by decide
theorem test_table_word_status : decodeTableWord 32 0x04113343 = some (.inStatus 0x11 0x33 0x43 []) := by decide +kernel
theorem test_table_word_too_wide : decodeTableWord 24 0x80000 = none := by decide

/-! ### Small states -/

/-- The default parameters of the vectors, with the largest `MAX_DATA_LEN`. -/
def testParams : Params := defaultParams 248

/-- An IDLE block with the descriptor F1 and the operands of the vectors of §2.5 and §2.6, on an open session; the
ports will answer 2 to a write, `Err` to a read, true to an open. -/
def openState : State :=
  { State.reset with session := .opened 0x64,
                     regs := { Regs.zero with opcode := 0x02, rxExpectLen := 4, rxMaxLen := 7, busAddr := 0x64, execTime := 5000 },
                     ctr := { Counters.zero with outerLeft := 10, recvLen := 7, rdAttempt := 1 },
                     env := { Env.empty with writeAnswers := [2], readAnswers := [.err], openAnswers := [true] } }

/-- `openState` with an operation about to make the port call of a label. -/
def runState (op : Command) (label : Label) : State := { openState with fsm := .run op label }

/-- `openState` with results to be wiped: a byte in each buffer, and the flags set. -/
def usedState : State :=
  { openState with done := true, reject := true, frameLen := 0x0008, mem := [(0x100, 0x05), (0x200, 0x06), (0x300, 0x07)],
                   result := { kind := .payload, status := 0#3, len := 1, reason := .none } }

/-- An IDLE block with `DATA = 04 11` and `CRC_LEN = 2`. -/
def crcState (expect : Half) : State :=
  { State.reset with mem := [(0x100, 0x04), (0x101, 0x11), (0x102, 0xFF)],
                     regs := { Regs.zero with crcLen := 2, crcExpect := expect } }

/-- A frame's bytes in `TXBUF`. -/
def framed (s : State) : State := { s with txbuf := Buffer.ofBytes [0x03, 0x07, 0x02, 0x00, 0x00, 0x00, 0x1E, 0x2D] }

/-- The frame F1. -/
def frameF1 : CmdFrame := ⟨0x03, 0x07, 0x02, 0x00, 0x00, 0x00, [], 0x1E, 0x2D⟩

/-- A field of an outcome's next state. -/
def nextField {α : Type} (f : State → α) : Host.Outcome State Fault Refusal → Option α
  | .next t => some (f t)
  | .fault _ => none
  | .refused _ => none

/-! ### The checksum and the framer (95_test_vectors.md §2.2, §2.3) -/

/-- The check values of R114. -/
theorem test_crc16_default :
    crc16Default [0x04, 0x11] = 0x4333 ∧ crc16Default [0x07, 0x02, 0x00, 0x00, 0x00] = 0x2D1E ∧
    crc16Default [0x31, 0x32, 0x33, 0x34, 0x35, 0x36, 0x37, 0x38, 0x39] = 0xBCDD := by decide +kernel

/-- C10: `DATA[2]` takes no part. -/
theorem test_crc_gen : (memWrite testParams 0x000 0x01 (crcState 0)).crcResult = 0x4333 := by decide +kernel
/-- C5. -/
theorem test_crc_check_valid : (memWrite testParams 0x000 0x02 (crcState 0x4333)).crcValid = true := by decide +kernel
/-- C6: the bytes swapped are a mismatch, and no error. -/
theorem test_crc_check_invalid : (memWrite testParams 0x000 0x02 (crcState 0x3343)).crcValid = false ∧
    (memWrite testParams 0x000 0x02 (crcState 0x3343)).result.kind = .ok := by decide +kernel

/-- F3 of §2.3: `PARAM2` is low byte first. -/
theorem test_frame_f3 :
    let s := { State.reset with regs := { Regs.zero with opcode := 0x02, param1 := 0x80, param2 := 0x0010 } }
    loadBytes (memWrite testParams 0x000 0x10 s).mem 0x300 8 = [0x03, 0x07, 0x02, 0x80, 0x10, 0x00, 0x0A, 0x1D] := by
  decide +kernel
/-- F4 of §2.3. -/
theorem test_frame_f4 :
    let s := { State.reset with mem := [(0x100, 0xAA), (0x101, 0xBB)],
                                regs := { Regs.zero with opcode := 0x1B, param1 := 0x01, param2 := 0x1234, dataLen := 2 } }
    loadBytes (memWrite testParams 0x000 0x10 s).mem 0x300 11 = [0x03, 0x09, 0x1B, 0x01, 0x34, 0x12, 0xAA, 0xBB, 0xB3, 0xEC, 0] := by
  decide +kernel

/-! ### Host transactions (§2.1) -/

/-- H3: `BUS_ADDR` bit 7 is reserved. -/
theorem test_reg_write_h3 : readByte 0x00F (memWrite testParams 0x00F 0xC8 State.reset) = 0x48 := by decide
/-- H10: a write while BUSY. -/
theorem test_reg_write_h10 : memWrite testParams 0x00C 0x05 (runState .sendRecv .aWrite) =
    { runState .sendRecv .aWrite with reject := true } := by decide
/-- H2 and H1. -/
theorem test_reg_read_reset : [0x001, 0x0FF, 0x2FF, 0x3FF].all (fun a => readByte a State.reset == 0x00) = true := by decide
/-- `EXEC_TIME` 5000 is `88 13 00 00` (Program 3). -/
theorem test_reg_read_exec_time :
    [0x010, 0x011, 0x012, 0x013].map (fun a => readByte a openState) = [0x88, 0x13, 0x00, 0x00] := by decide
/-- H4: BAD_OPCODE, `STATUS = 0x0A`. -/
theorem test_reserved_h4 : [0x001, 0x003, 0x006].map (fun a => readByte a (memWrite testParams 0x000 0x00 State.reset)) =
    [0x0A, 0x08, 0x0A] := by decide
/-- H6: the reserved-code check comes first. -/
theorem test_reserved_h6 : (memWrite testParams 0x000 0xFF State.reset).result.reason = .badOpcode := by decide
/-- H7. -/
theorem test_clear_h7 : [0x001, 0x003, 0x006].map (fun a => readByte a (memWrite testParams 0x002 0x01
    { State.reset with done := true, reject := true, result := { kind := .rejected, status := 0#3, len := 0, reason := .noSession } })) =
    [0x00, 0x00, 0x00] := by decide
/-- H8. -/
theorem test_clear_nop_h8 : memWrite testParams 0x002 0xFE usedState = usedState := by decide

/-! ### Commands and port steps (§2.4) -/

/-- H12. -/
theorem test_setup_open : (memWrite testParams 0x000 0x20 openState).result.reason = .sessionOpen := by decide
/-- T2: a failed open, `STATUS = 0x06` once the session is closed. -/
theorem test_setup_t2 : readByte 0x001 (blockStep testParams
    { State.reset with fsm := .run .setup .sOpen, env := { Env.empty with openAnswers := [false] } }) = 0x06 := by decide
/-- T11: the sleep byte comes first; T12: with `FATAL = 1` it is not sent. -/
theorem test_teardown_first_label : (memWrite testParams 0x000 0x21 openState).fsm = .run .teardown .tSleep ∧
    (memWrite testParams 0x000 0x21 { openState with fatal := true }).fsm = .run .teardown .tClose := by decide
/-- T12: `STATUS = 0x06` after the close. -/
theorem test_teardown_t12 :
    readByte 0x001 (blockStep testParams { runState .teardown .tClose with fatal := true }) = 0x06 := by decide
/-- T13. -/
theorem test_wake_t13 : (memWrite testParams 0x000 0x22 { openState with fatal := true }).result.reason = .fatalLock := by decide
/-- R123, D35: a listed answer stays within the bytes written. -/
theorem test_write_answer_bound : [-1, 0, 8, 9].map (boundCount 8) = [-1, 0, 8, -1] := by decide
/-- T10: the test is `w = 1`, so `w = 2` fails; R123 has no answer of 2 to a write of one byte, and a listed 2 is
taken as an error (log 3). -/
theorem test_sleep_t10 : nextField (fun t => t.result.reason)
    (exec .wireSleep { runState .sleep .cWrite with env := { Env.empty with writeAnswers := [2] } }) = some .writeCount := by decide
/-- T9. -/
theorem test_idle_t9 : nextField (fun t => t.result.kind)
    (exec .wireIdle { runState .idle .cWrite with env := { Env.empty with writeAnswers := [0] } }) = some .fail := by decide
/-- T3: the write answer of a pulse is ignored. -/
theorem test_wake_pulse_t3 : nextField (fun t => t.fsm)
    (exec .wireWake { runState .wake .wWrite with env := { Env.empty with writeAnswers := [-1] } }) = some (.run .wake .wRead) := by
  decide
/-- T1: the acknowledgment; T3: a short read is retried. -/
theorem test_wake_read_t1 :
    (receive testParams 4 (.data [0x04, 0x11, 0x33, 0x43]) (runState .setup .wRead)).result.kind = .ok ∧
    (receive testParams 4 (.data [0x04, 0x11, 0x33]) (runState .setup .wRead)).fsm = .run .setup .wWrite := by decide +kernel

/-! ### Mode A (§2.5) and Mode B (§2.6), the step of the last answer -/

/-- H14, H13. -/
theorem test_send_recv_range :
    (memWrite testParams 0x000 0x30 { openState with regs := { openState.regs with rxExpectLen := 253 } }).result.reason = .range ∧
    (memWrite (defaultParams 32) 0x000 0x10 { openState with regs := { openState.regs with dataLen := 33 } }).result.reason = .range := by
  decide
/-- The accepted `SEND_RECV` holds the frame F1. -/
theorem test_send_recv_frame : (memWrite testParams 0x000 0x30 openState).txbuf.bytes = frameF1.bytes := by decide +kernel
/-- A10, A12. -/
theorem test_send_recv_write :
    nextField (fun t => t.fatal) (exec (.wireCmd frameF1) { framed (runState .sendRecv .aWrite) with env := { Env.empty with writeAnswers := [1] } }) = some true ∧
    nextField (fun t => t.fsm) (exec (.wireCmd frameF1) { framed (runState .sendRecv .aWrite) with env := { Env.empty with writeAnswers := [2] } }) = some (.run .sendRecv .aDelay) := by
  decide +kernel
/-- A1: the payload, `RETRY_LEFT = 9`. -/
theorem test_mode_a_a1 :
    let t := receive testParams 7 (.data [0x07, 0x01, 0x02, 0x03, 0x04, 0xF3, 0x28]) (framed (runState .sendRecv .aRead))
    loadBytes t.mem 0x200 5 = [0x01, 0x02, 0x03, 0x04, 0x00] ∧ t.result = { kind := .payload, status := 0#3, len := 4, reason := .none } ∧
      t.ctr.outerLeft = 9 ∧ t.txbuf = Buffer.wiped := by decide +kernel
/-- A3, A5, A6: the bytes after the status frame are ignored; an unmapped byte; a bad checksum. -/
theorem test_mode_a_status :
    (receive testParams 7 (.data [0x04, 0x0F, 0x23, 0x42, 0, 0, 0]) (runState .sendRecv .aRead)).result = { kind := .status, status := 3#3, len := 0, reason := .none } ∧
    (receive testParams 7 (.data [0x04, 0xEE, 0x31, 0x41, 0, 0, 0]) (runState .sendRecv .aRead)).result = { kind := .internalErr, status := 0#3, len := 0, reason := .unmappedStatus } ∧
    (receive testParams 7 (.data [0x04, 0x0F, 0x23, 0x43, 0, 0, 0]) (runState .sendRecv .aRead)).result = { kind := .status, status := 5#3, len := 0, reason := .none } := by
  decide +kernel
/-- A13, A14: with `RX_EXPECT_LEN = 0`, a data frame of three bytes, and a NAK. -/
theorem test_mode_a_empty :
    let s := { runState .sendRecv .aRead with ctr := { openState.ctr with recvLen := 3 }, regs := Regs.zero }
    (receive testParams 3 (.data [0x03, 0x80, 0x02]) s).result.kind = .payload ∧
    (receive testParams 3 (.data [0x04, 0x00, 0x03]) s).fsm = .run .sendRecv .aDelay := by decide +kernel
/-- B1: the tail. -/
theorem test_mode_b_b1 :
    let s := { runState .sendGetRsp .bRead2 with rxbuf := Buffer.ofBytes [0x07, 0x11, 0x22, 0x33], ctr := { openState.ctr with frameTotal := 7 } }
    let t := receive testParams 3 (.data [0x44, 0xAC, 0x20]) s
    loadBytes t.mem 0x200 4 = [0x11, 0x22, 0x33, 0x44] ∧ t.result.len = 4 := by decide +kernel
/-- B3: the status byte is a payload; B5 and R169: the bound is inclusive. -/
theorem test_mode_b_first_chunk :
    loadByte (receive testParams 4 (.data [0x04, 0xEE, 0x31, 0x41]) (runState .sendGetRsp .bRead1)).mem 0x200 = 0xEE ∧
    (receive testParams 4 (.data [0x08, 0, 0, 0]) (runState .sendGetRsp .bRead1)).result.reason = .badLength ∧
    (receive testParams 4 (.data [0x07, 0, 0, 0]) (runState .sendGetRsp .bRead1)).fsm = .run .sendGetRsp .bRead2 := by decide +kernel
/-- B13: not fatal. -/
theorem test_mode_b_b13 :
    let o := exec (.wireCmd frameF1) { framed (runState .sendGetRsp .bWrite) with env := { Env.empty with writeAnswers := [1] } }
    nextField (fun t => t.result.reason) o = some .writeCount ∧ nextField (fun t => t.fatal) o = some false := by decide +kernel
/-- E5: a reset during an operation. -/
theorem test_reset_e5 : nextField (fun t => (t.fsm, t.session, t.env.calls))
    (step { runState .sendRecv .aDelay with env := { Env.empty with agenda := [.reset] } }) = some (.idle, .closed, []) := by decide

/-! ### The fetch -/

/-- What the next step runs after a table word is placed. -/
def fetchedInstr (s : State) : Option Instr :=
  match fetch s with
  | .instr i _ => some i
  | .moved _ => none
  | .stuck _ => none

theorem test_fetch_host_word : fetchedInstr (State.reset.withFetchWord 24 0x40020) = some .cmdSetup := by decide
theorem test_fetch_outbound_word : fetchedInstr (State.reset.withFetchWord 64 0x030702000000_1E2D) = some (.wireCmd frameF1) := by
  decide +kernel
theorem test_fetch_inbound_words :
    fetchedInstr (State.reset.withFetchWord 32 0x04113343) = some (.inStatus 0x11 0x33 0x43 []) ∧
    fetchedInstr (State.reset.withFetchWord 40 0x054286C085) = some (.inData 0x05 [0x42, 0x86] 0xC0 0x85) := by decide +kernel

/-! ### Witnesses: each statement's hypotheses are met, at the ends of the ranges its clauses name -/

theorem witness_ResetTurnRestoresResetBlock :
    (setAgenda [.reset, .port] (runState .sendRecv .aRead)).env.agenda = .reset :: [.port] := rfl

theorem witness_HostTurnRunsDecodedWord :
    (setAgenda [.host 0x40001#19, .port] usedState).env.agenda = .host 0x40001#19 :: [.port] := rfl

/-- Both clauses: a pulse about to be sent, and an acknowledgment about to be read. -/
theorem witness_PortTurnRunsDecodedWireRow :
    let s := runState .wake .wWrite
    let r := { runState .wake .wRead with env := { Env.empty with readAnswers := [.data [0x04, 0x11, 0x33, 0x43]] } }
    (s.env.agenda = [] ∧ s.fsm = .run .wake .wWrite ∧ Label.wWrite ∈ labelsOf .wake ∧
      outbound s = some [0x00, 0x00] ∧ decodeOutbound [0x00, 0x00] = some .wireWake) ∧
    (r.env.agenda = [] ∧ r.fsm = .run .wake .wRead ∧ Label.wRead ∈ labelsOf .wake ∧
      readWant r = some 4 ∧ inboundInstr r 4 (readAnswer 4 r) = some (.inStatus 0x11 0x33 0x43 [])) := by
  decide

theorem witness_PortTurnIsOneBlockStep :
    (runState .setup .sOpen).fsm = .run .setup .sOpen ∧ Label.sOpen ∈ labelsOf .setup ∧ (runState .setup .sOpen).env.agenda = [] ∧
    (setAgenda [.port] (runState .sendGetRsp .bRead2)).fsm = .run .sendGetRsp .bRead2 ∧ Label.bRead2 ∈ labelsOf .sendGetRsp ∧
    (setAgenda [.port] (runState .sendGetRsp .bRead2)).env.agenda = .port :: [] := by
  decide

/-- The ends of the operand ranges: a frame of 8 and of 256 bytes, a read of 4 and of 255, a data frame of 3 and of 255. -/
theorem witness_DecodeInvertsEncode :
    (Instr.wireCmd frameF1).wellFormed = true ∧
    (Instr.wireCmd ⟨0x03, 0xFF, 0, 0, 0, 0, List.replicate 248 0x5A, 0, 0⟩).wellFormed = true ∧
    (Instr.inStatus 0x11 0x33 0x43 []).wellFormed = true ∧ (Instr.inStatus 0x11 0x33 0x43 (List.replicate 251 0)).wellFormed = true ∧
    (Instr.inData 0x03 [] 0x80 0x02).wellFormed = true ∧ (Instr.inData 0xFF (List.replicate 252 0) 0 0).wellFormed = true ∧
    (Instr.cmdReserved 0xFF).wellFormed = true ∧ (Instr.regWrite 0x3FF 0x01).wellFormed = true := by
  decide +kernel

theorem witness_EncodeInvertsDecode :
    decode (.host 0x7FFFF#19) = some (.regWrite 0x3FF 0xFF) ∧ decode (.outbound [0x02]) = some .wireIdle ∧
    decode (.inbound [0x03, 0x80, 0x02]) = some (.inData 0x03 [] 0x80 0x02) := by
  decide

/-- The ends of the two address ranges; every other clause names its one address. -/
theorem witness_RegReadReturnsAddressedByte :
    (0x01E ≤ (0x01E#10).toNat ∧ (0x01E#10).toNat ≤ 0x0FF) ∧ (0x01E ≤ (0x0FF#10).toNat ∧ (0x0FF#10).toNat ≤ 0x0FF) ∧
    0x100 ≤ (0x100#10).toNat ∧ 0x100 ≤ (0x3FF#10).toNat := by
  decide

theorem witness_RegWriteStoresByteReadBack :
    usedState.fsm = .idle ∧ Memory.wf usedState.mem ∧
    [0x008#10, 0x015#10, 0x018#10, 0x01C#10, 0x01D#10, 0x100#10, 0x1FF#10].all (fun a =>
      decide ((0x008 ≤ a.toNat ∧ a.toNat ≤ 0x015) ∨ a = 0x018#10 ∨ a = 0x01C#10 ∨ a = 0x01D#10 ∨
        (0x100 ≤ a.toNat ∧ a.toNat ≤ 0x1FF))) = true := by
  decide

theorem witness_ReadOnlyWritesAreIgnored :
    usedState.fsm = .idle ∧
    [0x001#10, 0x003#10, 0x007#10, 0x016#10, 0x017#10, 0x019#10, 0x01B#10, 0x01E#10, 0x0FF#10, 0x200#10, 0x3FF#10].all (fun a =>
      decide (a = 0x001#10 ∨ (0x003 ≤ a.toNat ∧ a.toNat ≤ 0x007) ∨ a = 0x016#10 ∨ a = 0x017#10 ∨
        (0x019 ≤ a.toNat ∧ a.toNat ≤ 0x01B) ∨ (0x01E ≤ a.toNat ∧ a.toNat ≤ 0x0FF) ∨ 0x200 ≤ a.toNat)) = true := by
  decide

theorem witness_BusyWritesOnlySetReject : (runState .sendRecv .aWrite).fsm ≠ .idle := by decide

theorem witness_ClearReleasesResults : usedState.fsm = .idle ∧ loadByte usedState.mem 0x200 ≠ 0x00 := by decide

theorem witness_ClearNopHasNoEffect : usedState.fsm = .idle ∧ usedState.done = true := by decide

theorem witness_ReservedCodeIsRejected :
    usedState.fsm = .idle ∧ [0x00#8, 0x03#8, 0x0F#8, 0x11#8, 0x1F#8, 0x25#8, 0x2F#8, 0x32#8, 0xFF#8].all
      (fun c => (Instr.cmdReserved c).wellFormed) = true := by
  decide

/-- Every clause: no session, session open, `FATAL`, and the two ranges (253 is the first length refused). -/
theorem witness_FailedChecksRejectInOrder :
    (State.reset.fsm = .idle ∧ Command.teardown ∈ [Command.teardown, .wake, .sleep, .idle, .sendRecv, .sendGetRsp] ∧
      State.reset.session = .closed) ∧
    (openState.fsm = .idle ∧ openState.session ≠ .closed) ∧
    (let s := { openState with fatal := true }
     s.fsm = .idle ∧ Command.wake ∈ [Command.wake, .sleep, .idle, .sendRecv, .sendGetRsp] ∧ s.session ≠ .closed ∧ s.fatal = true) ∧
    (let s := { openState with regs := { openState.regs with dataLen := 249 } }
     s.fsm = .idle ∧ s.session ≠ .closed ∧ s.fatal = false ∧ Config.maxDataLen.val < s.regs.dataLen.toNat) ∧
    (let s := { openState with regs := { openState.regs with rxExpectLen := 253 } }
     s.fsm = .idle ∧ s.session ≠ .closed ∧ s.fatal = false ∧ 252 < s.regs.rxExpectLen.toNat) :=
  ⟨by decide, by decide, by decide, ⟨rfl, by decide, rfl, Config.maxDataLen.isLt⟩, by decide⟩

theorem witness_CrcGenStoresChecksum : (crcState 0).fsm = .idle ∧ (crcState 0).regs.crcLen = 2 := by decide

theorem witness_CrcCheckStoresVerdict : (crcState 0x4333).fsm = .idle ∧ (crcState 0x4333).regs.crcExpect = 0x4333 := by decide

theorem witness_FrameCommandWritesFrame :
    usedState.fsm = .idle ∧ Memory.wf usedState.mem ∧ usedState.regs.dataLen.toNat = 0 ∧ 0 ≤ Config.maxDataLen.val :=
  ⟨rfl, by decide, rfl, Nat.zero_le _⟩

/-- The largest descriptor. -/
theorem witness_SerializedFrameIsConsistent :
    let s := { openState with regs := { openState.regs with dataLen := 248 } }
    s.regs.dataLen.toNat ≤ testParams.maxDataLen.val := by
  decide

theorem witness_SerializedFrameParsesBack : openState.regs.dataLen.toNat ≤ (defaultParams 0).maxDataLen.val := by decide

theorem witness_SetupIsAccepted :
    let s := { State.reset with fatal := true }
    s.fsm = .idle ∧ s.session = .closed := by
  decide

/-- Both branches: the open succeeds and fails. -/
theorem witness_SetupOpenStepBindsOrFails :
    let s (ok : Bool) := { State.reset with fsm := .run .setup .sOpen, env := { Env.empty with openAnswers := [ok] } }
    (s true).fsm = .run .setup .sOpen ∧ (s true).env.agenda = [] ∧ openAnswer (s true) = true ∧ openAnswer (s false) = false := by
  decide

theorem witness_TeardownIsAccepted :
    openState.fsm = .idle ∧ openState.session ≠ .closed ∧ openState.fatal = false ∧ ({ openState with fatal := true } : State).fatal = true := by
  decide

theorem witness_TeardownCloseStepDropsSession :
    (runState .teardown .tClose).fsm = .run .teardown .tClose ∧ (runState .teardown .tClose).env.agenda = [] := by
  decide

theorem witness_WakeSleepIdleAreAccepted : openState.fsm = .idle ∧ openState.session ≠ .closed ∧ openState.fatal = false := by decide

theorem witness_WakePulseLeadsToRead : (runState .setup .wWrite).fsm = .run .setup .wWrite := rfl

/-- The three clauses, and both answers of the first. -/
theorem witness_ControlBytesReportWriteCount :
    (runState .sleep .cWrite).fsm = .run .sleep .cWrite ∧ (runState .idle .cWrite).fsm = .run .idle .cWrite ∧
    (runState .teardown .tSleep).fsm = .run .teardown .tSleep ∧
    writeAnswer 1 { runState .sleep .cWrite with env := { Env.empty with writeAnswers := [1] } } = 1 ∧
    writeAnswer 1 { runState .sleep .cWrite with env := { Env.empty with writeAnswers := [0] } } ≠ 1 := by
  decide

/-- Both clauses: an acknowledgment, and a read of three bytes. -/
theorem witness_WakeReadAcknowledgesOrRetries :
    (runState .wake .wRead).fsm = .run .wake .wRead ∧
    (∃ b0 b1 lo hi : Byte, ReadAnswer.data [0x04, 0x11, 0x33, 0x43] = .data [b0, b1, lo, hi] ∧ testParams.crc16 [b0, b1] = le16 lo hi) ∧
    ¬ (∃ b0 b1 lo hi : Byte, ReadAnswer.data [0x04, 0x11, 0x33] = .data [b0, b1, lo, hi] ∧ testParams.crc16 [b0, b1] = le16 lo hi) :=
  ⟨rfl, ⟨0x04, 0x11, 0x33, 0x43, rfl, by decide +kernel⟩, fun ⟨_, _, _, _, h, _⟩ => by simp at h⟩

/-- A cap of 1, of 255, and none; an error, a short answer, and four bytes (of which a fifth is cut) whose checksum
does not match, none of which acknowledges. -/
theorem witness_WakeCapBoundsPulses :
    let s (cap : Byte) (rs : List ReadAnswer) : State :=
      { runState .wake .wWrite with regs := { Regs.zero with wakeCap := cap }, env := { Env.empty with readAnswers := rs ++ [] } }
    let rs : List ReadAnswer := [.err, .data [0x04, 0x11, 0x33], .data [0x04, 0x11, 0x33, 0x44, 0x00]]
    (∀ cap rs, (s cap rs).fsm = .run .wake .wWrite ∧ (s cap rs).ctr.wakeCnt = 0 ∧ (s cap rs).env.readAnswers = rs ++ []) ∧
    (s 1 [.err]).regs.wakeCap.toNat = 1 ∧ (s 255 (List.replicate 255 .err)).regs.wakeCap.toNat = 255 ∧
    (s 3 rs).regs.wakeCap.toNat = rs.length ∧ (s 0 rs).regs.wakeCap = 0#8 ∧
    (∀ r ∈ rs, ¬ ∃ b0 b1 lo hi, clipAnswer 4 r = .data [b0, b1, lo, hi] ∧ testParams.crc16 [b0, b1] = le16 lo hi) := by
  refine ⟨fun _ _ => ⟨rfl, rfl, rfl⟩, by decide, by decide, rfl, rfl, ?_⟩
  simp only [List.forall_mem_cons, List.not_mem_nil, false_implies, implies_true, and_true]
  refine ⟨fun ⟨_, _, _, _, h, _⟩ => by simp [clipAnswer] at h, fun ⟨_, _, _, _, h, _⟩ => by simp [clipAnswer] at h, ?_⟩
  rintro ⟨b0, b1, lo, hi, h, hc⟩
  simp only [clipAnswer, ReadAnswer.data.injEq, List.take_succ_cons, List.take_zero, List.cons.injEq, and_true] at h
  obtain ⟨rfl, rfl, rfl, rfl⟩ := h
  exact absurd hc (by decide +kernel)

/-- The largest expected length. -/
theorem witness_SendRecvIsAccepted :
    let s := { openState with regs := { openState.regs with rxExpectLen := 252 } }
    s.fsm = .idle ∧ s.session ≠ .closed ∧ s.fatal = false ∧ s.regs.dataLen.toNat ≤ Config.maxDataLen.val ∧ s.regs.rxExpectLen.toNat ≤ 252 :=
  ⟨rfl, by decide, rfl, Nat.zero_le _, by decide⟩

/-- Both branches, at the two answers where they meet. -/
theorem witness_ModeASendIsFatalWhenShort :
    let s (w : Int) := { framed (runState .sendRecv .aWrite) with env := { Env.empty with writeAnswers := [w] } }
    (s 1).fsm = .run .sendRecv .aWrite ∧ (s 1).txbuf.bytes = frameF1.bytes ∧
    writeAnswer frameF1.bytes.length (s 1) ≤ 1 ∧ ¬ writeAnswer frameF1.bytes.length (s 2) ≤ 1 := by
  decide

theorem witness_DelaysLeadToReads :
    (runState .sendRecv .aDelay).env.agenda = [] ∧ (runState .sendRecv .aDelay).fsm = .run .sendRecv .aDelay ∧
    (runState .sendGetRsp .bDelay).env.agenda = [] ∧ (runState .sendGetRsp .bDelay).fsm = .run .sendGetRsp .bDelay := by
  decide

/-- Under the open parameters a checksum that holds and one that does not exist for every sequence. -/
theorem checksum_branches (f : List Byte) : (∃ lo hi, Config.crc16 f = le16 lo hi) ∧ (∃ lo hi, Config.crc16 f ≠ le16 lo hi) := by
  refine ⟨⟨_, _, (le16_lo8_hi8 _).symm⟩, lo8 (Config.crc16 f) + 1, 0, fun h => ?_⟩
  have := congrArg lo8 h
  rw [lo8_le16] at this
  exact absurd this (by generalize lo8 (Config.crc16 f) = b; revert b; decide)

/-- A status frame alone, one followed by 251 bytes, and one with a byte beyond the read; a checksum that holds and one
that does not. -/
theorem witness_ModeAStatusFrameOutcome :
    let s (n : Nat) := { runState .sendRecv .aRead with ctr := { openState.ctr with recvLen := n } }
    ((s 4).fsm = .run .sendRecv .aRead ∧ 4 ≤ (s 4).ctr.recvLen ∧ (s 4).ctr.recvLen ≤ ([] : List Byte).length + 4) ∧
    (4 ≤ (s 255).ctr.recvLen ∧ (s 255).ctr.recvLen ≤ (List.replicate 251 0x00#8).length + 4) ∧
    (s 4).ctr.recvLen ≤ ([0xAA] : List Byte).length + 4 ∧
    (∃ lo hi, Config.crc16 [0x04#8, 0x11#8] = le16 lo hi) ∧ (∃ lo hi, Config.crc16 [0x04#8, 0x11#8] ≠ le16 lo hi) :=
  ⟨⟨rfl, by decide, by decide⟩, ⟨by decide, by rw [List.length_replicate]⟩, by decide, checksum_branches _⟩

/-- The frames of 3 and of 255 bytes. -/
theorem witness_ModeADataFrameOutcome :
    let s (n : Nat) (k : Byte) := { runState .sendRecv .aRead with ctr := { openState.ctr with recvLen := n }, regs := { openState.regs with rxExpectLen := k } }
    ((s 3 0).fsm = .run .sendRecv .aRead ∧ Memory.wf (s 3 0).mem ∧ (Instr.inData 0x03 [] 0x80 0x02).wellFormed = true ∧
      (s 3 0).ctr.recvLen = (0x03#8).toNat ∧ (s 3 0).regs.rxExpectLen.toNat = ([] : List Byte).length) ∧
    (Memory.wf (s 255 252).mem ∧ (Instr.inData 0xFF (List.replicate 252 0x5A) 0 0).wellFormed = true ∧
      (s 255 252).ctr.recvLen = (0xFF#8).toNat ∧ (s 255 252).regs.rxExpectLen.toNat = (List.replicate 252 0x5A#8).length) := by
  decide +kernel

/-- `Err`, a short answer, and an answer of the asked length with a first byte of no shape. -/
theorem witness_ModeAMalformedAnswerIsNak :
    (runState .sendRecv .aRead).fsm = .run .sendRecv .aRead ∧ 3 ≤ (runState .sendRecv .aRead).ctr.recvLen ∧
    [ReadAnswer.err, .data [0x07, 0x01], .data [0x09, 0, 0, 0, 0, 0, 0]].all (fun r => match r with
      | .err => true
      | .data b => decide (b.length = 7 → (b.getD 0 0#8).toNat ≠ 7 ∧ (4 ≤ 7 → b.getD 0 0#8 ≠ 0x04#8))) = true := by
  decide

theorem witness_ModeAExhaustsOnAwake :
    let s : State := { framed (runState .sendRecv .aWrite) with
      env := { Env.empty with writeAnswers := List.replicate 10 8,
                              readAnswers := List.replicate 10 (.data (statusFrameBytes 0x11 0x33 0x43 [0, 0, 0])) ++ [] } }
    s.fsm = .run .sendRecv .aWrite ∧ s.ctr.outerLeft = 10 ∧ s.ctr.recvLen = ([0, 0, 0] : List Byte).length + 4 ∧
    testParams.crc16 [0x04#8, 0x11#8] = le16 0x33 0x43 ∧ testParams.statusMap 0x11 = some .awake ∧
    (List.replicate 10 (8 : Int)).length = 10 ∧ (∀ w ∈ List.replicate 10 (8 : Int), 2 ≤ w ∧ w ≤ s.txbuf.len) ∧ s.env.writeAnswers = List.replicate 10 8 ∧
    s.env.readAnswers = List.replicate 10 (.data (statusFrameBytes 0x11 0x33 0x43 [0, 0, 0])) ++ [] := by
  decide +kernel

/-- An error, a short answer, a first byte of no shape, and a status byte that the map sends to NAK. -/
theorem witness_UncappedNakLoopNeverEnds :
    let P : Params := { testParams with statusMap := fun _ => some .nak }
    let rs : List ReadAnswer := [.err, .data [0x07, 0x01], .data [0x09, 0, 0, 0, 0, 0, 0], .data [0x04, 0x11, 0x33, 0x43, 0, 0, 0]]
    let s : State := { runState .sendRecv .aDelay with env := { Env.empty with readAnswers := rs ++ [] } }
    s.fsm = .run .sendRecv .aDelay ∧ s.regs.nakCap = 0#8 ∧ s.env.readAnswers = rs ++ [] ∧ rs.length = 4 ∧
    ∀ r ∈ rs, classifyA P s.ctr.recvLen (clipAnswer s.ctr.recvLen r) = .nak ∨
      classifyA P s.ctr.recvLen (clipAnswer s.ctr.recvLen r) = .st .nak := by
  decide +kernel

theorem witness_SendGetRspIsAccepted :
    openState.fsm = .idle ∧ openState.session ≠ .closed ∧ openState.fatal = false ∧ openState.regs.dataLen.toNat ≤ Config.maxDataLen.val :=
  ⟨rfl, by decide, rfl, Nat.zero_le _⟩

theorem witness_ModeBSendIsNullWhenShort :
    let s (w : Int) := { framed (runState .sendGetRsp .bWrite) with env := { Env.empty with writeAnswers := [w] } }
    (s 1).fsm = .run .sendGetRsp .bWrite ∧ (s 1).txbuf.bytes = frameF1.bytes ∧
    writeAnswer frameF1.bytes.length (s 1) ≤ 1 ∧ ¬ writeAnswer frameF1.bytes.length (s 2) ≤ 1 := by
  decide

/-- Both branches of the checksum. -/
theorem witness_ModeBStatusFrameOutcome :
    (runState .sendGetRsp .bRead1).fsm = .run .sendGetRsp .bRead1 ∧ Memory.wf (runState .sendGetRsp .bRead1).mem ∧
    (∃ lo hi, Config.crc16 [0x04#8, 0xEE#8] = le16 lo hi) ∧ (∃ lo hi, Config.crc16 [0x04#8, 0xEE#8] ≠ le16 lo hi) :=
  ⟨rfl, by decide, checksum_branches _⟩

/-- Every clause: `Err` at the second and at the third attempt, a short chunk, and the first bytes 3, 5, 7 and 8 with
`RX_MAX_LEN` 7. -/
theorem witness_ModeBFirstChunkOutcome :
    let s (k : Nat) := { runState .sendGetRsp .bRead1 with ctr := { openState.ctr with rdAttempt := k } }
    (s 2).fsm = .run .sendGetRsp .bRead1 ∧ (s 2).ctr.rdAttempt < 3 ∧ ¬ (s 3).ctr.rdAttempt < 3 ∧
    ([0x07, 0x11] : List Byte).length ≠ 4 ∧
    [0x03#8, 0x05#8, 0x07#8, 0x08#8].all (fun n => decide ([n, 0, 0, 0].length = 4 ∧ [n, 0, 0, 0].getD 0 0#8 ≠ 0x04#8)) = true ∧
    (s 1).regs.rxMaxLen.toNat = 7 := by
  decide

/-- The frames of 5 and of 255 bytes. -/
theorem witness_ModeBDataFrameOutcome :
    let s (n : Byte) (p : List Byte) (lo hi : Byte) : State :=
      { runState .sendGetRsp .bRead2 with rxbuf := Buffer.ofBytes ((n :: p ++ [lo, hi]).take 4), ctr := { openState.ctr with frameTotal := n.toNat } }
    ((s 0x05 [0x42, 0x86] 0xC0 0x85).fsm = .run .sendGetRsp .bRead2 ∧ Memory.wf (s 0x05 [0x42, 0x86] 0xC0 0x85).mem ∧
      (Instr.inData 0x05 [0x42, 0x86] 0xC0 0x85).wellFormed = true ∧ (s 0x05 [0x42, 0x86] 0xC0 0x85).ctr.frameTotal = (0x05#8).toNat ∧
      5 ≤ (0x05#8).toNat ∧ (s 0x05 [0x42, 0x86] 0xC0 0x85).rxbuf.bytes = ([0x05, 0x42, 0x86] ++ [0xC0, 0x85]).take 4) ∧
    (let p := List.replicate 252 0x5A#8
     (Instr.inData 0xFF p 0 0).wellFormed = true ∧ (s 0xFF p 0 0).ctr.frameTotal = (0xFF#8).toNat ∧
      (s 0xFF p 0 0).rxbuf.bytes = (0xFF :: p ++ [0, 0]).take 4) := by
  decide +kernel

/-- `Err` and a short tail. -/
theorem witness_ModeBShortTailIsAbandoned :
    let s := { runState .sendGetRsp .bRead2 with rxbuf := Buffer.ofBytes [0x07, 0x11, 0x22, 0x33], ctr := { openState.ctr with frameTotal := 7 } }
    s.fsm = .run .sendGetRsp .bRead2 ∧ (∀ t, ReadAnswer.err = .data t → t.length ≠ s.ctr.frameTotal - 4) ∧
    (∀ t, ReadAnswer.data [0x44, 0xAC] = .data t → t.length ≠ s.ctr.frameTotal - 4) :=
  ⟨rfl, fun t h => by simp at h, fun t h => by simp only [ReadAnswer.data.injEq] at h; subst h; decide⟩

theorem witness_FirstChunkIsReadThreeTimes :
    let s := { runState .sendGetRsp .bRead1 with env := { Env.empty with readAnswers := [.err, .err, .err, .err] } }
    s.fsm = .run .sendGetRsp .bRead1 ∧ s.ctr.rdAttempt = 1 ∧ s.env.readAnswers = .err :: .err :: .err :: [.err] :=
  ⟨rfl, rfl, rfl⟩

/-- The four clauses. -/
theorem witness_WireRowsAreThePendingPortCall :
    encode .wireSleep = .outbound [0x01] ∧ outbound (runState .sleep .cWrite) = some [0x01] ∧ outbound openState ≠ some [0x01] ∧
    encode (.inStatus 0x11 0x33 0x43 []) = .inbound [0x04, 0x11, 0x33, 0x43] ∧ readWant (runState .wake .wRead) = some 4 ∧
    readWant openState = none := by
  decide

/-- A state with its buffers wiped and nothing listed in memory, during a `WAKE` or a `TEARDOWN`, meets the invariant. -/
theorem runState_inv {op : Command} {label : Label} (hl : label ∈ labelsOf op) (h : LabelInv (runState op label) label) :
    (runState op label).Inv where
  memWf := wf_nil
  memRange := fun _ h => absurd h List.not_mem_nil
  txWf := wf_nil
  rxWf := wf_nil
  resultTail := fun _ _ _ => rfl
  frameTail := fun _ _ _ => rfl
  frameLen := .inl rfl
  result := ⟨List.mem_singleton.2 rfl, .inr rfl, .inr rfl, Nat.zero_le _⟩
  counters := by constructor <;> simp [runState, openState, Counters.zero]
  fsm := ⟨hl, rfl, rfl, rfl, h⟩

theorem witness_EveryStepKeepsInvariant :
    (runState .wake .wWrite).Inv ∧ ∃ t, step (runState .wake .wWrite) = .next t :=
  ⟨runState_inv (by decide) ⟨rfl, rfl, rfl, rfl⟩, _, rfl⟩

theorem witness_InvariantStatesAlwaysStep : (runState .teardown .tClose).Inv := runState_inv (by decide) ⟨rfl, rfl, rfl⟩

/-- A `SEND_GET_RSP` about to write its frame. -/
def frameState : State := { runState .sendGetRsp .bWrite with txbuf := Buffer.ofBytes (serialize Config.params openState) }

theorem frameState_inv : frameState.Inv where
  memWf := wf_nil
  memRange := fun _ h => absurd h List.not_mem_nil
  txWf := wf_ofBytes _
  rxWf := wf_nil
  resultTail := fun _ _ _ => rfl
  frameTail := fun _ _ _ => rfl
  frameLen := .inl rfl
  result := ⟨List.mem_singleton.2 rfl, .inr rfl, .inr rfl, Nat.zero_le _⟩
  counters := by constructor <;> simp [frameState, runState, openState, Counters.zero]
  fsm := ⟨by decide, rfl, rfl, rfl, rfl, rfl, ⟨rfl, Nat.zero_le _⟩, rfl⟩

/-- Both clauses: a step that writes the pulse, and one that reads; and a state about to write a frame. -/
theorem witness_OnlySpecifiedSequencesAreSent :
    ((runState .wake .wWrite).Inv ∧
      ∃ t, step (runState .wake .wWrite) = .next t ∧ t.env.calls = .busWrite [0x00, 0x00] :: (runState .wake .wWrite).env.calls) ∧
    ((runState .wake .wRead).Inv ∧
      ∃ t, step (runState .wake .wRead) = .next t ∧ t.env.calls = .busRead 4 :: (runState .wake .wRead).env.calls) ∧
    (frameState.Inv ∧ outbound frameState = some (serialize Config.params frameState)) :=
  ⟨⟨runState_inv (by decide) ⟨rfl, rfl, rfl, rfl⟩, _, rfl, rfl⟩, ⟨runState_inv (by decide) ⟨rfl, rfl, rfl, rfl⟩, _, rfl, rfl⟩,
    frameState_inv, congrArg some (bytes_ofBytes _)⟩

/-- Both clauses: a failed open, and one that succeeds while `FATAL` is set. -/
theorem witness_FatalChangesOnlyAsSpecified :
    let s (fatal ok : Bool) := { State.reset with fatal := fatal, fsm := .run .setup .sOpen, env := { Env.empty with openAnswers := [ok] } }
    ((s false false).fatal = false ∧ nextField State.fatal (step (s false false)) = some true) ∧
    ((s true true).fatal = true ∧ nextField State.fatal (step (s true true)) = some false) := by
  decide

/-- The ends of `DATA`, at a step of the host. -/
theorem witness_BlockNeverWritesData :
    (0x100 ≤ 0x100 ∧ 0x100 < 0x200) ∧ (0x100 ≤ 0x1FF ∧ 0x1FF < 0x200) ∧
    ∃ t, step (setAgenda [.host 0x50004#19] usedState) = .next t :=
  ⟨by decide, by decide, _, rfl⟩

theorem witness_ResultsStayWhileIdle :
    let s := setAgenda [.host 0x00100#19] usedState
    s.fsm = .idle ∧ (∃ t, step s = .next t) ∧ (∀ rest, s.env.agenda ≠ .reset :: rest) ∧
    (∀ a v rest, s.env.agenda = .host (hostWord 1#1 a v) :: rest → a ≠ 0x000#10 ∧ a ≠ 0x002#10) := by
  refine ⟨rfl, ⟨_, rfl⟩, fun rest h => by simp [setAgenda] at h, fun a v rest h => ?_⟩
  simp only [setAgenda, List.cons.injEq, Turn.host.injEq] at h
  have := congrArg hostIsWrite h.1
  rw [hostIsWrite_hostWord] at this
  exact absurd this (by decide)

/-- Each reading label with a success: an acknowledgment, a Success status and a payload of Mode A, a status byte and a
payload of Mode B. -/
theorem witness_ChecksumMismatchNeverSucceeds :
    (let s := runState .wake .wRead
     s.fsm = .run .wake .wRead ∧ s.result = Result.cleared ∧ readWant s = some 4 ∧
      (receive testParams 4 (.data [0x04, 0x11, 0x33, 0x43]) s).result.kind = .ok) ∧
    (let s := runState .sendRecv .aRead
     s.fsm = .run .sendRecv .aRead ∧ s.result = Result.cleared ∧ readWant s = some 7 ∧ 3 ≤ s.ctr.recvLen ∧
      (receive testParams 7 (.data [0x04, 0x00, 0x03, 0x40, 0xAA, 0xBB, 0xCC]) s).result = { kind := .status, status := 0#3, len := 0, reason := .none } ∧
      (receive testParams 7 (.data [0x07, 0x01, 0x02, 0x03, 0x04, 0xF3, 0x28]) s).result.kind = .payload) ∧
    (let s := runState .sendGetRsp .bRead1
     s.fsm = .run .sendGetRsp .bRead1 ∧ s.result = Result.cleared ∧ readWant s = some 4 ∧
      (receive testParams 4 (.data [0x04, 0xEE, 0x31, 0x41]) s).result.kind = .payload) ∧
    (let s := { runState .sendGetRsp .bRead2 with rxbuf := Buffer.ofBytes [0x07, 0x11, 0x22, 0x33], ctr := { openState.ctr with frameTotal := 7 } }
     s.fsm = .run .sendGetRsp .bRead2 ∧ s.result = Result.cleared ∧ readWant s = some 3 ∧ s.rxbuf.len = 4 ∧ 5 ≤ s.ctr.frameTotal ∧
      (receive testParams 3 (.data [0x44, 0xAC, 0x20]) s).result.kind = .payload) := by
  decide +kernel

theorem witness_BuffersAreWipedAtFinish :
    (runState .teardown .tClose).Inv ∧ (runState .teardown .tClose).fsm ≠ .idle ∧
    ∃ t, step (runState .teardown .tClose) = .next t ∧ t.fsm = .idle :=
  ⟨runState_inv (by decide) ⟨rfl, rfl, rfl⟩, by decide, _, rfl, rfl⟩

theorem witness_BytesAfterStatusFrameDoNotMatter :
    (runState .sendRecv .aRead).fsm = .run .sendRecv .aRead ∧
    ([0, 0, 0] : List Byte).length + 4 = (runState .sendRecv .aRead).ctr.recvLen ∧
    ([0xAA, 0xBB, 0xCC] : List Byte).length = ([0, 0, 0] : List Byte).length :=
  ⟨rfl, rfl, rfl⟩

end Sys2Proof.Machine
end

