-- ==== Sys2Proof/Proofs/WireEncoding.lean ====
section
/-! PROOFS. What a wire sequence decodes to encodes back to that sequence (R84 to R86, R89, R90). -/

namespace Sys2Proof

/-- A sequence of at least two bytes is what stands before its last two bytes, followed by those two: the shape in
which both frame decoders split off the checksum (R86, R90). -/
theorem take_append_last_two {bytes : List Byte} (h : 2 ≤ bytes.length) :
    bytes.take (bytes.length - 2) ++ [bytes.getD (bytes.length - 2) 0#8, bytes.getD (bytes.length - 1) 0#8] = bytes := by
  have hdrop : bytes.drop (bytes.length - 2) = [bytes[bytes.length - 2], bytes[bytes.length - 1]] := by
    rw [List.drop_eq_getElem_cons (by omega), List.drop_eq_getElem_cons (by omega), List.drop_eq_nil_of_le (by omega)]
    simp only [show bytes.length - 2 + 1 = bytes.length - 1 by omega]
  rw [List.getD_eq_getElem _ _ (by omega), List.getD_eq_getElem _ _ (by omega), ← hdrop, List.take_append_drop]

/-- A command frame read by its `count` byte encodes back to its bytes (R86). -/
theorem encode_of_decodeCmdFrame {bytes : List Byte} {i : Instr} (h : decodeCmdFrame bytes = some i) :
    encode i = .outbound bytes := by
  unfold decodeCmdFrame at h
  split at h
  case h_1 marker count opcode param1 lo hi rest =>
    split at h
    case isTrue hshape =>
      obtain rfl := Option.some.inj h
      simp only [encode, CmdFrame.bytes, take_append_last_two hshape.1, List.cons_append, List.nil_append]
    case isFalse => cases h
  case h_2 => cases h

/-- An outbound sequence encodes back to its bytes (R84 to R86). -/
theorem encode_of_decodeOutbound {bytes : List Byte} {i : Instr} (h : decodeOutbound bytes = some i) :
    encode i = .outbound bytes := by
  unfold decodeOutbound at h
  split at h
  case isTrue hwake => obtain rfl := Option.some.inj h; rw [hwake, encode]
  case isFalse =>
    split at h
    case isTrue hsleep => obtain rfl := Option.some.inj h; rw [hsleep, encode]
    case isFalse =>
      split at h
      case isTrue hidle => obtain rfl := Option.some.inj h; rw [hidle, encode]
      case isFalse => exact encode_of_decodeCmdFrame h

/-- An inbound frame encodes back to its bytes (R89, R90). -/
theorem encode_of_decodeInbound {bytes : List Byte} {i : Instr} (h : decodeInbound bytes = some i) :
    encode i = .inbound bytes := by
  cases bytes with
  | nil => cases h
  | cons first rest =>
    simp only [decodeInbound] at h
    split at h
    case isTrue hstatus =>
      split at h
      case h_1 status lo hi trailing =>
        split at h
        case isTrue => obtain rfl := Option.some.inj h; rw [hstatus]; rfl
        case isFalse => cases h
      case h_2 => cases h
    case isFalse =>
      split at h
      case isTrue hshape =>
        obtain rfl := Option.some.inj h
        simp only [encode, dataFrameBytes, take_append_last_two hshape.1, List.cons_append, List.nil_append]
      case isFalse => cases h

end Sys2Proof
end

