-- ==== Sys2Proof/Proofs/PortTurn.lean ====
section
/-! PROOFS. A turn of the block's ports: what it fetches, and that it is one step of the block FSM (R2, R22, R23). -/

namespace Sys2Proof.Machine

/-! ### The meaning of a wire row, by the bytes it stands for -/

/-- The meaning of an outbound row is that its sequence appears on the bus (R84 to R86). -/
theorem exec_of_encode_outbound {i : Instr} {bytes : List Byte} (h : encode i = .outbound bytes) (s : State) :
    exec i s = .next (emit bytes s) := by
  cases i <;> cases h <;> rfl

/-- The meaning of an inbound row is that its frame arrives (R89, R90). -/
theorem exec_of_encode_inbound {i : Instr} {frame : List Byte} (h : encode i = .inbound frame) (s : State) :
    exec i s = .next (deliver Config.params frame s) := by
  cases i <;> cases h <;> rfl

/-! ### The block's step by the call its label makes -/

/-- No label both writes and reads (R52). -/
theorem outbound_eq_none_or_readWant_eq_none (s : State) : outbound s = none ∨ readWant s = none := by
  unfold outbound readWant
  cases s.fsm with
  | idle => exact .inl rfl
  | run op label => cases label <;> simp

theorem outbound_of_readWant {s : State} {n : Nat} (h : readWant s = some n) : outbound s = none :=
  (outbound_eq_none_or_readWant_eq_none s).resolve_right (by simp [h])

theorem blockStep_of_outbound {P : Params} {s : State} {bytes : List Byte} (h : outbound s = some bytes) :
    blockStep P s = sendBytes bytes s := by simp [blockStep, h]

theorem blockStep_of_readWant {P : Params} {s : State} {n : Nat} (h : readWant s = some n) :
    blockStep P s = receive P n (readAnswer n s) (dropRead s) := by
  simp [blockStep, outbound_of_readWant h, h]

/-- A read answer that completes an inbound row is exactly the bytes asked for, and encodes with those already
received as that row (R89, R90, R163). -/
theorem encode_of_inboundInstr {s : State} {n : Nat} {r : ReadAnswer} {i : Instr} (h : inboundInstr s n r = some i) :
    ∃ bytes, r = .data bytes ∧ bytes.length = n ∧ encode i = .inbound (completedFrame s bytes) := by
  cases r with
  | err => cases h
  | data bytes =>
    simp only [inboundInstr] at h
    split at h
    case isTrue hlen => exact ⟨bytes, rfl, hlen, encode_of_decodeInbound h⟩
    case isFalse => cases h

/-- The row that the pending sequence decodes to is the block's step. -/
theorem exec_decodeOutbound {s : State} {bytes : List Byte} {i : Instr} (hout : outbound s = some bytes)
    (hdec : decodeOutbound bytes = some i) : exec i s = .next (blockStep Config.params s) := by
  rw [exec_of_encode_outbound (encode_of_decodeOutbound hdec), emit_pending hout, blockStep_of_outbound hout]

/-- The row that the pending read's answer completes, run with that answer used up, is the block's step: the part of
the completed frame that the row delivers is the answer again. -/
theorem exec_inboundInstr {s : State} {n : Nat} {i : Instr} (hwant : readWant s = some n)
    (hin : inboundInstr s n (readAnswer n s) = some i) :
    exec i (dropRead s) = .next (blockStep Config.params s) := by
  obtain ⟨bytes, hanswer, hlen, henc⟩ := encode_of_inboundInstr hin
  rw [exec_of_encode_inbound henc, deliver_pending (by rwa [readWant_dropRead]), framePart_dropRead,
    framePart_completedFrame hlen, blockStep_of_readWant hwant, hanswer]

/-! ### What a port turn fetches -/

theorem fetch_of_agenda_nil {s : State} (h : s.env.agenda = []) : fetch s = fetchPort s := by simp [fetch, h]

theorem fetch_of_agenda_port {s : State} {rest : List Turn} (h : s.env.agenda = .port :: rest) :
    fetch s = fetchPort (setAgenda rest s) := by simp [fetch, h]

section AtLabel

variable {s : State} {op : Command} {label : Label}

theorem fetchPort_outbound {bytes : List Byte} {i : Instr} (hfsm : s.fsm = .run op label) (hl : label ∈ labelsOf op)
    (hout : outbound s = some bytes) (hdec : decodeOutbound bytes = some i) : fetchPort s = .instr i s := by
  simp [fetchPort, hfsm, hl, hout, hdec]

theorem fetchPort_inbound {n : Nat} {i : Instr} (hfsm : s.fsm = .run op label) (hl : label ∈ labelsOf op)
    (hwant : readWant s = some n) (hin : inboundInstr s n (readAnswer n s) = some i) :
    fetchPort s = .instr i (dropRead s) := by
  simp [fetchPort, hfsm, hl, outbound_of_readWant hwant, hwant, hin]

/-- At a label of the running operation a port turn fetches a wire row whose meaning is the block's step, or makes
that step itself. -/
theorem fetchPort_blockStep (hfsm : s.fsm = .run op label) (hl : label ∈ labelsOf op) :
    (∃ i t, fetchPort s = .instr i t ∧ exec i t = .next (blockStep Config.params s)) ∨
      fetchPort s = .moved (blockStep Config.params s) := by
  cases hout : outbound s with
  | some bytes =>
    cases hdec : decodeOutbound bytes with
    | some i => exact .inl ⟨i, s, fetchPort_outbound hfsm hl hout hdec, exec_decodeOutbound hout hdec⟩
    | none => exact .inr (by simp [fetchPort, hfsm, hl, hout, hdec])
  | none =>
    cases hwant : readWant s with
    | some n =>
      cases hin : inboundInstr s n (readAnswer n s) with
      | some i => exact .inl ⟨i, dropRead s, fetchPort_inbound hfsm hl hwant hin, exec_inboundInstr hwant hin⟩
      | none => exact .inr (by simp [fetchPort, hfsm, hl, hout, hwant, hin])
    | none => exact .inr (by simp [fetchPort, hfsm, hl, hout, hwant])

/-- A step that fetches as a port turn of `s`, at a label of the running operation, is the block's step from `s`. -/
theorem step_of_fetch_eq_fetchPort {u : State} (hfetch : fetch u = fetchPort s) (hfsm : s.fsm = .run op label)
    (hl : label ∈ labelsOf op) : step u = .next (blockStep Config.params s) := by
  obtain ⟨i, t, hport, hexec⟩ | hport := fetchPort_blockStep hfsm hl
  · simp [step, hfetch, hport, hexec]
  · simp [step, hfetch, hport]

end AtLabel

/-! ### The statements -/

/-- Settles O5, from what a port turn fetches at a label that writes and at a label that reads. -/
theorem portTurnRunsDecodedWireRow : Obligations.PortTurnRunsDecodedWireRow := by
  intro s op label i hagenda hfsm hl
  refine ⟨fun bytes hout hdec => ?_, fun n hwant hin => ?_⟩
  · simp [step, fetch_of_agenda_nil hagenda, fetchPort_outbound hfsm hl hout hdec]
  · simp [step, fetch_of_agenda_nil hagenda, fetchPort_inbound hfsm hl hwant hin]

/-- Settles O6: the fetched wire row, where there is one, encodes back to the bytes of the pending port call, so its
meaning is that call. -/
theorem portTurnIsOneBlockStep : Obligations.PortTurnIsOneBlockStep := by
  intro s op label rest hfsm hl
  refine ⟨fun hagenda => ?_, fun hagenda => ?_⟩
  · exact step_of_fetch_eq_fetchPort (fetch_of_agenda_nil hagenda) hfsm hl
  · exact step_of_fetch_eq_fetchPort (s := setAgenda rest s) (fetch_of_agenda_port hagenda) hfsm hl

end Sys2Proof.Machine
end

