-- ==== Sys2Proof/Proofs/InvariantRules.lean ====
section
/-! PROOFS. The rules of the invariant: what it asks of memory, of a block in the middle of an operation, of a `goto`
and of the end of an operation. Proofs about steps use these rules and do not unfold `State.Inv`. -/

namespace Sys2Proof.Machine

/-! ### Memory -/

/-- What the invariant asks of memory, by the lengths of what `RESULT` and `FRAME` hold (R50, R60). -/
structure MemoryInv (m : Memory) (resultLen frameLen : Nat) : Prop where
  wf : Memory.wf m
  range : ∀ c ∈ m, 0x100 ≤ c.1 ∧ c.1 < 0x400
  resultTail : ∀ i, resultLen ≤ i → i < 256 → loadByte m (0x200 + i) = 0x00
  frameTail : ∀ i, frameLen ≤ i → i < 256 → loadByte m (0x300 + i) = 0x00

section Memory

variable {m : Memory} {resultLen frameLen n : Nat}

theorem memoryInv_nil (resultLen frameLen : Nat) : MemoryInv [] resultLen frameLen :=
  ⟨wf_nil, by simp, fun _ _ _ => rfl, fun _ _ _ => rfl⟩

/-- A longer result only leaves less to be zero. -/
theorem MemoryInv.lengthen_result (h : MemoryInv m 0 frameLen) : MemoryInv m n frameLen :=
  { h with resultTail := fun i _ => h.resultTail i i.zero_le }

/-- The host's store to a byte of `DATA` (R100). -/
theorem MemoryInv.storeByte_data {a : Nat} (h : MemoryInv m resultLen frameLen) (hlo : 0x100 ≤ a) (hhi : a < 0x200)
    (v : Byte) : MemoryInv (storeByte m a v) resultLen frameLen where
  wf := wf_storeByte h.wf
  range c hc := (mem_storeByte hc).elim (fun hca => by omega) (h.range c)
  resultTail i hi hlt := by rw [loadByte_storeByte_ne (by omega)]; exact h.resultTail i hi hlt
  frameTail i hi hlt := by rw [loadByte_storeByte_ne (by omega)]; exact h.frameTail i hi hlt

/-- `wipe(RESULT); wipe(FRAME)` leaves no byte of a result (R104, R106). -/
theorem MemoryInv.wipeResultAndFrame (h : MemoryInv m resultLen frameLen) :
    MemoryInv (wipeResultAndFrame m) 0 0 where
  wf := wf_wipeResultAndFrame h.wf
  range c hc := h.range c (mem_wipeResultAndFrame hc)
  resultTail i _ hlt := by rw [loadByte_wipeResultAndFrame, if_pos (by omega)]; rfl
  frameTail i _ hlt := by rw [loadByte_wipeResultAndFrame, if_pos (by omega)]; rfl

/-- A payload copied to an empty `RESULT` (R157, R165). -/
theorem MemoryInv.storeBytes_result {p : List Byte} (h : MemoryInv m 0 frameLen) (hp : p.length ≤ n) (hn : n ≤ 256) :
    MemoryInv (storeBytes m resultBase p) n frameLen where
  wf := wf_storeBytes h.wf
  range c hc := (mem_storeBytes hc).elim (fun hca => by simp only [resultBase] at hca; omega) (h.range c)
  resultTail i hi hlt := by
    rw [loadByte_storeBytes_outside (by simp only [resultBase]; omega)]; exact h.resultTail i i.zero_le hlt
  frameTail i hi hlt := by
    rw [loadByte_storeBytes_outside (by simp only [resultBase]; omega)]; exact h.frameTail i hi hlt

/-- A frame stored in an empty `FRAME` (R144). -/
theorem MemoryInv.storeBytes_frame {f : List Byte} (h : MemoryInv m resultLen 0) (hf : f.length ≤ 256) :
    MemoryInv (storeBytes m frameBase f) resultLen f.length where
  wf := wf_storeBytes h.wf
  range c hc := (mem_storeBytes hc).elim (fun hca => by simp only [frameBase] at hca; omega) (h.range c)
  resultTail i hi hlt := by
    rw [loadByte_storeBytes_outside (by simp only [frameBase]; omega)]; exact h.resultTail i hi hlt
  frameTail i hi hlt := by
    rw [loadByte_storeBytes_outside (by simp only [frameBase]; omega)]; exact h.frameTail i i.zero_le hlt

end Memory

/-! ### Results -/

/-- Every result but a status or a payload, with a reason of its kind (R102, R105, R175). -/
theorem agrees_of_reason {kind : ResultKind} {why : FailReason} (h : why ∈ reasonsOf kind) :
    Result.Agrees { kind := kind, status := 0#3, len := 0#8, reason := why } :=
  ⟨h, .inr rfl, .inr rfl, by simp⟩

theorem agrees_status (st : BitVec 3) :
    Result.Agrees { kind := .status, status := st, len := 0#8, reason := .none } :=
  ⟨by simp [reasonsOf], .inl rfl, .inr rfl, by simp⟩

theorem agrees_payload {len : Byte} (h : len.toNat ≤ 252) :
    Result.Agrees { kind := .payload, status := 0#3, len := len, reason := .none } :=
  ⟨by simp [reasonsOf], .inr rfl, .inl rfl, h⟩

theorem agrees_cleared : Result.cleared.Agrees := agrees_of_reason (kind := .none) (by decide)

/-! ### The sequencer -/

theorem fsmInv_idle {s : State} (h : s.fsm = .idle) :
    FsmInv s ↔ s.txbuf = Buffer.wiped ∧ s.rxbuf = Buffer.wiped := by simp only [FsmInv, h]

theorem fsmInv_of_idle {s : State} (h : s.fsm = .idle) (htx : s.txbuf = Buffer.wiped) (hrx : s.rxbuf = Buffer.wiped) :
    FsmInv s := (fsmInv_idle h).2 ⟨htx, hrx⟩

theorem fsmInv_run {s : State} {op : Command} {label : Label} (h : s.fsm = .run op label) :
    FsmInv s ↔ label ∈ labelsOf op ∧ s.done = false ∧ s.result = Result.cleared ∧ s.frameLen = 0 ∧ LabelInv s label := by
  simp only [FsmInv, h]

/-- The operations with a label: `labelsOf` read the other way (`mem_labelsOf_iff`). -/
def operationsOf : Label → List Command
  | .sOpen => [.setup]
  | .wWrite => [.setup, .wake]
  | .wRead => [.setup, .wake]
  | .tSleep => [.teardown]
  | .tClose => [.teardown]
  | .cWrite => [.sleep, .idle]
  | .aWrite => [.sendRecv]
  | .aDelay => [.sendRecv]
  | .aRead => [.sendRecv]
  | .bWrite => [.sendGetRsp]
  | .bRead1 => [.sendGetRsp]
  | .bDelay => [.sendGetRsp]
  | .bRead2 => [.sendGetRsp]

theorem mem_labelsOf_iff {op : Command} {label : Label} : label ∈ labelsOf op ↔ op ∈ operationsOf label := by
  cases label <;> cases op <;> decide

/-- An operation that has one label has every label of the same operations. -/
theorem mem_labelsOf_of_operationsOf_eq {op : Command} {label next : Label} (hl : label ∈ labelsOf op)
    (h : operationsOf next = operationsOf label) : next ∈ labelsOf op :=
  mem_labelsOf_iff.2 (h ▸ mem_labelsOf_iff.1 hl)

/-! ### One counter advanced -/

section Counters

variable {c : Counters} {n : Nat} (h : c.InRange)
include h

theorem Counters.InRange.setOuterLeft (hn : n ≤ 10) : Counters.InRange { c with outerLeft := n } :=
  { h with outerLeft := hn }

theorem Counters.InRange.setNakCnt (hn : n ≤ 255) : Counters.InRange { c with nakCnt := n } := { h with nakCnt := hn }

theorem Counters.InRange.setRecvLen (hn : n ≤ 255) : Counters.InRange { c with recvLen := n } :=
  { h with recvLen := hn }

theorem Counters.InRange.setWakeCnt (hn : n ≤ 255) : Counters.InRange { c with wakeCnt := n } :=
  { h with wakeCnt := hn }

theorem Counters.InRange.setRdAttempt (hn : n ≤ 3) : Counters.InRange { c with rdAttempt := n } :=
  { h with rdAttempt := hn }

theorem Counters.InRange.setFrameTotal (hn : n ≤ 255) : Counters.InRange { c with frameTotal := n } :=
  { h with frameTotal := hn }

end Counters

/-! ### What the invariant does not read -/

variable {s : State}

/-- The invariant says nothing of what is outside the block. -/
theorem State.Inv.setEnv (h : s.Inv) (e : Env) : State.Inv { s with env := e } := { h with }

/-- The invariant says nothing of `REJECT`. -/
theorem State.Inv.setReject (h : s.Inv) (b : Bool) : State.Inv { s with reject := b } := { h with }

theorem State.Inv.logCall (h : s.Inv) (c : PortCall) : (logCall c s).Inv := h.setEnv _

theorem State.Inv.setAgenda (h : s.Inv) (turns : List Turn) : (setAgenda turns s).Inv := h.setEnv _

theorem State.Inv.dropWrite (h : s.Inv) : (dropWrite s).Inv := by
  unfold Machine.dropWrite; split <;> exact h.setEnv _

theorem State.Inv.dropRead (h : s.Inv) : (dropRead s).Inv := by
  unfold Machine.dropRead; split <;> exact h.setEnv _

theorem State.Inv.dropOpen (h : s.Inv) : (dropOpen s).Inv := by
  unfold Machine.dropOpen; split <;> exact h.setEnv _

theorem State.Inv.memory (h : s.Inv) : MemoryInv s.mem s.result.len.toNat s.frameLen.toNat :=
  ⟨h.memWf, h.memRange, h.resultTail, h.frameTail⟩

theorem State.Inv.buffers_wiped (h : s.Inv) (hfsm : s.fsm = .idle) :
    s.txbuf = Buffer.wiped ∧ s.rxbuf = Buffer.wiped := (fsmInv_idle hfsm).1 h.fsm

/-! ### A block in the middle of an operation -/

/-- What holds between the start of an operation (R104) and its end, whatever the label: no result is out yet (R107). -/
structure InOperation (s : State) : Prop where
  mem : MemoryInv s.mem 0 0
  txWf : Memory.wf s.txbuf.cells
  rxWf : Memory.wf s.rxbuf.cells
  counters : s.ctr.InRange
  done : s.done = false
  result : s.result = Result.cleared
  frameLen : s.frameLen = 0

/-- The invariant at a label of a running operation. -/
theorem State.Inv.running {op : Command} {label : Label} (h : s.Inv) (hfsm : s.fsm = .run op label) :
    InOperation s ∧ label ∈ labelsOf op ∧ LabelInv s label := by
  obtain ⟨hl, hdone, hresult, hframe, hlabel⟩ := (fsmInv_run hfsm).1 h.fsm
  have hmem := h.memory
  simp only [hresult, hframe, Result.cleared, BitVec.toNat_zero, BitVec.ofNat_eq_ofNat] at hmem
  exact ⟨⟨hmem, h.txWf, h.rxWf, h.counters, hdone, hresult, hframe⟩, hl, hlabel⟩

/-- The start of a command begins an operation (R104). -/
theorem State.Inv.startCommon (h : s.Inv) (v : Byte) : InOperation (startCommon v s) :=
  ⟨h.memory.wipeResultAndFrame, h.txWf, h.rxWf, h.counters, rfl, rfl, rfl⟩

theorem InOperation.setCtr (h : InOperation s) {c : Counters} (hc : c.InRange) : InOperation { s with ctr := c } :=
  { h with counters := hc }

/-- The session and `FATAL` are the labels' own conditions. -/
theorem InOperation.setSession (h : InOperation s) (a : Session) (b : Bool) :
    InOperation { s with session := a, fatal := b } := { h with }

theorem InOperation.loadTx (h : InOperation s) (bs : List Byte) :
    InOperation { s with txbuf := Buffer.ofBytes bs } := { h with txWf := wf_ofBytes bs }

theorem InOperation.wipeTx (h : InOperation s) : InOperation (wipeTx s) := h.loadTx []

theorem InOperation.loadRx (h : InOperation s) (r : ReadAnswer) : InOperation (loadRx r s) :=
  { h with rxWf := by cases r <;> exact wf_ofBytes _ }

/-- `goto label` keeps the invariant when what the label needs holds (R52). -/
theorem InOperation.gotoLabel {op : Command} {label : Label} (h : InOperation s) (hl : label ∈ labelsOf op)
    (hlabel : LabelInv s label) : (gotoLabel op label s).Inv where
  memWf := h.mem.wf
  memRange := h.mem.range
  txWf := h.txWf
  rxWf := h.rxWf
  resultTail i _ := h.mem.resultTail i i.zero_le
  frameTail i _ := h.mem.frameTail i i.zero_le
  frameLen := .inl h.frameLen
  result := by rw [gotoLabel_result, h.result]; exact agrees_cleared
  counters := h.counters
  fsm := (fsmInv_run rfl).2 ⟨hl, h.done, h.result, h.frameLen, hlabel⟩

/-- The end of an operation keeps the invariant when both scratch buffers are wiped and memory holds the results that
the result registers name (R105, R170). -/
theorem inv_finish {kind : ResultKind} {st : BitVec 3} {len : Byte} {why : FailReason}
    (hmem : MemoryInv s.mem len.toNat s.frameLen.toNat)
    (hframe : s.frameLen = 0 ∨ (8 ≤ s.frameLen.toNat ∧ s.frameLen.toNat ≤ 256)) (hctr : s.ctr.InRange)
    (htx : s.txbuf = Buffer.wiped) (hrx : s.rxbuf = Buffer.wiped)
    (hagrees : Result.Agrees { kind := kind, status := st, len := len, reason := why }) :
    (finish kind st len why s).Inv where
  memWf := hmem.wf
  memRange := hmem.range
  txWf := by rw [finish_txbuf, htx]; exact wf_nil
  rxWf := by rw [finish_rxbuf, hrx]; exact wf_nil
  resultTail := hmem.resultTail
  frameTail := hmem.frameTail
  frameLen := hframe
  result := hagrees
  counters := hctr
  fsm := fsmInv_of_idle rfl htx hrx

section Finish

variable (h : InOperation s) (htx : s.txbuf = Buffer.wiped) (hrx : s.rxbuf = Buffer.wiped)
include h htx hrx

/-- An operation that stored nothing ends. -/
theorem InOperation.finish {kind : ResultKind} {st : BitVec 3} {len : Byte} {why : FailReason}
    (hagrees : Result.Agrees { kind := kind, status := st, len := len, reason := why }) :
    (finish kind st len why s).Inv :=
  inv_finish (by simpa [h.frameLen] using h.mem.lengthen_result) (.inl h.frameLen) h.counters htx hrx hagrees

theorem InOperation.raise {kind : ResultKind} {why : FailReason} (hwhy : why ∈ reasonsOf kind) :
    (raise kind why s).Inv := h.finish htx hrx (agrees_of_reason hwhy)

theorem InOperation.finish_ok : (Machine.finish .ok 0#3 0#8 .none s).Inv :=
  h.finish htx hrx (agrees_of_reason (by decide))

/-- An operation ends with a payload in `RESULT` (R157, R165). -/
theorem InOperation.finish_payload {p : List Byte} {len : Byte} (hp : p.length ≤ len.toNat) (hlen : len.toNat ≤ 252) :
    (Machine.finish .payload 0#3 len .none (storeResult p s)).Inv :=
  inv_finish (by simpa [h.frameLen] using h.mem.storeBytes_result hp (by omega)) (.inl h.frameLen) h.counters htx hrx
    (agrees_payload hlen)

end Finish

end Sys2Proof.Machine
end

