-- ==== Sys2Proof/Proofs/BlockKeepsInvariant.lean ====
section
/-! PROOFS. Every step of the block FSM keeps the invariant (R2, R52): one lemma per label, then per kind of port call. -/

namespace Sys2Proof.Machine

open LabelInv (ModeAInv)

variable {s : State} {P : Params} {op : Command}

theorem bump_le (n : Nat) : bump n ≤ 255 := Nat.min_le_right _ _

/-- Bytes read into `RXBUF` and wiped at once leave no trace (R74, R76). -/
theorem wipeRx_loadRx (r : ReadAnswer) (hrx : s.rxbuf = Buffer.wiped) : wipeRx (loadRx r s) = s := by
  simp only [wipeRx, loadRx, ← hrx]

/-- Nor do they when a payload is copied in between (R153). -/
theorem wipeRx_copyPayload_loadRx (v : Classified) (r : ReadAnswer) (hrx : s.rxbuf = Buffer.wiped) :
    wipeRx (copyPayload v (loadRx r s)) = copyPayload v s := by
  have hcomm (t : State) : wipeRx (copyPayload v t) = copyPayload v (wipeRx t) := by cases v <;> rfl
  rw [hcomm, wipeRx_loadRx r hrx]

/-! ### Session and device control -/

theorem inv_startWake (h : InOperation s) (hl : .wWrite ∈ labelsOf op) (hopen : isOpen s = true) (hfatal : s.fatal = false)
    (htx : s.txbuf = Buffer.wiped) (hrx : s.rxbuf = Buffer.wiped) : (startWake op s).Inv :=
  (h.setCtr (h.counters.setWakeCnt (Nat.zero_le _))).gotoLabel hl ⟨hopen, hfatal, htx, hrx⟩

theorem inv_afterOpen (ok : Bool) (h : InOperation s) (hlabel : LabelInv s .sOpen) : (afterOpen ok s).Inv := by
  obtain ⟨-, htx, hrx⟩ := hlabel
  cases ok with
  | true => exact inv_startWake (h.setSession (.opened s.regs.busAddr) false) (by decide) rfl rfl htx hrx
  | false =>
    exact (h.setSession s.session true).raise (kind := .fatalErr) (why := .openFail) htx hrx (by decide)

theorem inv_afterWakeRead (r : ReadAnswer) (h : InOperation s) (hl : .wRead ∈ labelsOf op) (hlabel : LabelInv s .wRead) :
    (afterWakeRead P op r s).Inv := by
  obtain ⟨hopen, hfatal, htx, hrx⟩ := hlabel
  have hcount : InOperation { s with ctr := { s.ctr with wakeCnt := bump s.ctr.wakeCnt } } :=
    h.setCtr (h.counters.setWakeCnt (bump_le _))
  rw [afterWakeRead, wipeRx_loadRx r hrx]
  split
  · exact h.finish_ok htx hrx
  · unfold wakeRetry
    split
    · exact hcount.raise htx hrx (by decide)
    · exact hcount.gotoLabel (mem_labelsOf_of_operationsOf_eq hl rfl) ⟨hopen, hfatal, htx, hrx⟩

theorem inv_afterControlWrite (w : Int) (h : InOperation s) (hlabel : LabelInv s .cWrite) :
    (afterControlWrite w s).Inv := by
  obtain ⟨-, -, htx, hrx⟩ := hlabel
  unfold afterControlWrite
  split
  · exact h.finish_ok htx hrx
  · exact h.raise htx hrx (by decide)

/-! ### Mode A -/

/-- Mode A's condition reads no counter but `RECV_LEN` and `OUTER_LEFT`. -/
theorem modeAInv_setCtr {c : Counters} (hlabel : ModeAInv s) (hrecv : c.recvLen = s.ctr.recvLen)
    (houter : 1 ≤ c.outerLeft) : ModeAInv { s with ctr := c } := by
  obtain ⟨hopen, hfatal, hframe, hrx, -, hexpect, hlen⟩ := hlabel
  exact ⟨hopen, hfatal, hframe, hrx, houter, hexpect, hrecv.trans hlen⟩

theorem inv_afterWriteA (w : Int) (h : InOperation s) (hl : .aWrite ∈ labelsOf op) (hlabel : ModeAInv s) :
    (afterWriteA op w s).Inv := by
  obtain ⟨-, -, -, hrx, houter, -⟩ := id hlabel
  unfold afterWriteA
  split
  · exact (h.wipeTx.setSession s.session true).raise rfl hrx (by decide)
  · exact (h.setCtr (h.counters.setNakCnt (Nat.zero_le _))).gotoLabel
      (mem_labelsOf_of_operationsOf_eq hl rfl) (modeAInv_setCtr hlabel rfl houter)

/-- An outer iteration is used up (R54). -/
theorem InOperation.countOuter (h : InOperation s) :
    InOperation { s with ctr := { s.ctr with outerLeft := s.ctr.outerLeft - 1 } } :=
  h.setCtr (h.counters.setOuterLeft ((Nat.sub_le _ _).trans h.counters.outerLeft))

theorem inv_afterStatusA (c : StatusCode) (h : InOperation s) (hl : .aWrite ∈ labelsOf op) (hlabel : ModeAInv s) :
    (afterStatusA op c s).Inv := by
  obtain ⟨-, -, -, hrx, -⟩ := id hlabel
  have hcount := h.countOuter
  unfold afterStatusA endOuter
  split
  case isTrue hresend => exact hcount.gotoLabel hl (modeAInv_setCtr hlabel rfl hresend.2)
  case isFalse => exact hcount.wipeTx.finish rfl hrx (agrees_status _)

theorem inv_afterNakA (h : InOperation s) (hl : .aWrite ∈ labelsOf op) (hlabel : ModeAInv s) :
    (afterNakA op s).Inv := by
  obtain ⟨-, -, -, -, houter, -⟩ := id hlabel
  have hcount : InOperation { s with ctr := { s.ctr with nakCnt := bump s.ctr.nakCnt } } :=
    h.setCtr (h.counters.setNakCnt (bump_le _))
  have hlabel' : ModeAInv { s with ctr := { s.ctr with nakCnt := bump s.ctr.nakCnt } } :=
    modeAInv_setCtr hlabel rfl houter
  unfold afterNakA
  split
  · exact hcount.gotoLabel (mem_labelsOf_of_operationsOf_eq hl rfl) hlabel'
  · exact inv_afterStatusA .nak hcount hl hlabel'

/-- A status frame holds no payload (R152). -/
theorem parseStatus_ne_dat {f p : List Byte} : parseStatus P f ≠ .dat p := by
  unfold parseStatus
  split
  · split <;> simp
  · simp

/-- A payload is what a data frame of `RECV_LEN` bytes holds beside its length byte and its checksum (R90, R151). -/
theorem length_of_classifyA_dat {n : Nat} {r : ReadAnswer} {p : List Byte} (h : classifyA P n r = .dat p) :
    p.length ≤ n - 3 := by
  cases r with
  | err => cases h
  | data b =>
    simp only [classifyA] at h
    split at h
    case isTrue => cases h
    case isFalse =>
      split at h
      case isTrue => exact absurd h parseStatus_ne_dat
      case isFalse =>
        split at h
        case isTrue =>
          split at h
          case isTrue =>
            obtain rfl := Classified.dat.inj h
            exact List.length_take_le _ _
          case isFalse => cases h
        case isFalse => cases h

theorem inv_afterReadA (r : ReadAnswer) (h : InOperation s) (hl : .aRead ∈ labelsOf op) (hlabel : ModeAInv s) :
    (afterReadA P op r s).Inv := by
  obtain ⟨-, -, -, hrx, -, hexpect, hlen⟩ := id hlabel
  have hwrite : .aWrite ∈ labelsOf op := mem_labelsOf_of_operationsOf_eq hl rfl
  rw [afterReadA, wipeRx_copyPayload_loadRx _ r hrx]
  cases hclass : classifyA P s.ctr.recvLen r with
  | nak =>
    exact inv_afterNakA h hwrite hlabel
  | st c =>
    simp only [afterClassA, copyPayload]
    split
    · exact inv_afterNakA h hwrite hlabel
    · exact inv_afterStatusA c h hwrite hlabel
  | unmapped =>
    exact h.wipeTx.raise (kind := .internalErr) (why := .unmappedStatus) rfl hrx (by decide)
  | dat p =>
    have hp : p.length ≤ s.regs.rxExpectLen.toNat := by
      have := length_of_classifyA_dat hclass
      omega
    simp only [afterClassA, endOuter, Bool.false_eq_true, false_and, if_false]
    exact h.countOuter.wipeTx.finish_payload rfl hrx hp hexpect

/-! ### Mode B -/

theorem inv_afterWriteB (w : Int) (h : InOperation s) (hl : .bWrite ∈ labelsOf op) (hlabel : LabelInv s .bWrite) :
    (afterWriteB op w s).Inv := by
  obtain ⟨hopen, hfatal, -, hrx⟩ := hlabel
  unfold afterWriteB
  split
  · exact h.wipeTx.raise rfl hrx (by decide)
  · exact (h.wipeTx.setCtr (h.counters.setRdAttempt (n := 1) (by decide))).gotoLabel (label := .bRead1)
      (mem_labelsOf_of_operationsOf_eq hl rfl) ⟨hopen, hfatal, rfl, hrx, le_rfl⟩

theorem inv_nullResult {why : FailReason} (h : InOperation s) (htx : s.txbuf = Buffer.wiped)
    (hwhy : why ∈ reasonsOf .null) : (nullResult why s).Inv :=
  InOperation.raise (h.loadRx .err) htx rfl hwhy

/-- `VALIDATE` of a frame of `N` bytes (R165): the payload, `N - 3` bytes at most, goes to `RESULT`. -/
theorem inv_validateB (h : InOperation s) (htx : s.txbuf = Buffer.wiped) : (validateB P s).Inv := by
  have htotal := h.counters.frameTotal
  have hlen : (BitVec.ofNat 8 (s.ctr.frameTotal - 3)).toNat = s.ctr.frameTotal - 3 := by
    rw [BitVec.toNat_ofNat]; omega
  unfold validateB
  split
  · refine InOperation.finish_payload (h.loadRx .err) htx rfl ?_ (by omega)
    rw [hlen]
    exact List.length_take_le _ _
  · exact inv_nullResult h htx (by decide)

theorem inv_classifyFirstB {c : List Byte} (h : InOperation s) (hl : .bRead1 ∈ labelsOf op) (hopen : isOpen s = true)
    (hfatal : s.fatal = false) (htx : s.txbuf = Buffer.wiped) (hrx : s.rxbuf.len = 4) :
    (classifyFirstB P op c s).Inv := by
  have htotal : (byteAt c 0).toNat ≤ 255 := by omega
  unfold classifyFirstB
  split
  · exact inv_validateB (h.setCtr (h.counters.setFrameTotal (n := 4) (by decide))) htx
  · split
    case isTrue hrange =>
      exact (h.setCtr (h.counters.setFrameTotal htotal)).gotoLabel (label := .bRead2)
        (mem_labelsOf_of_operationsOf_eq hl rfl) ⟨hopen, hfatal, htx, hrx, hrange.1⟩
    case isFalse => exact inv_nullResult h htx (by decide)

theorem inv_afterRead1B (r : ReadAnswer) (h : InOperation s) (hl : .bRead1 ∈ labelsOf op) (hlabel : LabelInv s .bRead1) :
    (afterRead1B P op r s).Inv := by
  obtain ⟨hopen, hfatal, htx, hrx, -⟩ := hlabel
  cases r with
  | err =>
    simp only [afterRead1B]
    split
    case isTrue hmore =>
      exact (h.setCtr (h.counters.setRdAttempt hmore)).gotoLabel (label := .bDelay)
        (mem_labelsOf_of_operationsOf_eq hl rfl) ⟨hopen, hfatal, htx, hrx, Nat.le_add_left _ _⟩
    case isFalse => exact inv_nullResult (h.loadRx .err) htx (by decide)
  | data c =>
    simp only [afterRead1B]
    split
    case isTrue hfour => exact inv_classifyFirstB (h.loadRx (.data c)) hl hopen hfatal htx hfour
    case isFalse => exact inv_nullResult (h.loadRx (.data c)) htx (by decide)

theorem inv_afterRead2B (r : ReadAnswer) (h : InOperation s) (hlabel : LabelInv s .bRead2) : (afterRead2B P r s).Inv := by
  obtain ⟨-, -, htx, -⟩ := hlabel
  cases r with
  | err => exact inv_nullResult h htx (by decide)
  | data t =>
    simp only [afterRead2B]
    split
    · exact inv_validateB (h.loadRx (.data (s.rxbuf.bytes ++ t))) htx
    · exact inv_nullResult h htx (by decide)

/-! ### The port calls -/

/-- The step after a `BusWrite`, whatever its answer. -/
theorem State.Inv.afterWrite (h : s.Inv) (w : Int) : (afterWrite w s).Inv := by
  unfold Machine.afterWrite
  cases hfsm : s.fsm with
  | idle => exact h
  | run op label =>
    obtain ⟨hop, hl, hlabel⟩ := h.running hfsm
    cases label with
    | wWrite => exact hop.gotoLabel (mem_labelsOf_of_operationsOf_eq hl rfl) hlabel
    | tSleep =>
      obtain ⟨hopen, -, htx, hrx⟩ := hlabel
      exact hop.gotoLabel (mem_labelsOf_of_operationsOf_eq hl rfl) ⟨hopen, htx, hrx⟩
    | cWrite => exact inv_afterControlWrite w hop hlabel
    | aWrite => exact inv_afterWriteA w hop hl hlabel
    | bWrite => exact inv_afterWriteB w hop hl hlabel
    | sOpen | wRead | tClose | aDelay | aRead | bRead1 | bDelay | bRead2 => exact h

/-- The step after a `BusRead`, whatever its answer. -/
theorem State.Inv.afterRead (h : s.Inv) (r : ReadAnswer) : (afterRead P r s).Inv := by
  unfold Machine.afterRead
  cases hfsm : s.fsm with
  | idle => exact h
  | run op label =>
    obtain ⟨hop, hl, hlabel⟩ := h.running hfsm
    cases label with
    | wRead => exact inv_afterWakeRead r hop hl hlabel
    | aRead => exact inv_afterReadA r hop hl hlabel
    | bRead1 => exact inv_afterRead1B r hop hl hlabel
    | bRead2 => exact inv_afterRead2B r hop hlabel
    | sOpen | wWrite | tSleep | tClose | cWrite | aWrite | aDelay | bWrite | bDelay => exact h

/-- The step of a label that opens, closes or waits. -/
theorem State.Inv.silentStep (h : s.Inv) : (silentStep s).Inv := by
  unfold Machine.silentStep
  cases hfsm : s.fsm with
  | idle => exact h
  | run op label =>
    cases label with
    | sOpen =>
      obtain ⟨hop, -, hlabel⟩ := (h.dropOpen.logCall (.busOpen s.regs.busAddr)).running (by simpa using hfsm)
      exact inv_afterOpen _ hop hlabel
    | tClose =>
      obtain ⟨hop, -, -, htx, hrx⟩ := (h.logCall .busClose).running hfsm
      exact InOperation.finish_ok { hop with } htx hrx
    | aDelay =>
      obtain ⟨hop, hl, hlabel⟩ := (h.logCall (.delay s.regs.execTime)).running hfsm
      exact hop.gotoLabel (mem_labelsOf_of_operationsOf_eq hl rfl) hlabel
    | bDelay =>
      obtain ⟨hop, hl, hlabel⟩ := (h.logCall (.delay s.regs.execTime)).running hfsm
      exact hop.gotoLabel (mem_labelsOf_of_operationsOf_eq hl rfl) hlabel
    | wWrite | wRead | tSleep | cWrite | aWrite | aRead | bWrite | bRead1 | bRead2 => exact h

/-- Every step of the block FSM keeps the invariant, whatever the parameters and whatever the ports answer. -/
theorem State.Inv.blockStep (h : s.Inv) : (blockStep P s).Inv := by
  unfold Machine.blockStep
  split
  · exact (h.dropWrite.logCall _).afterWrite _
  · split
    · exact (h.dropRead.logCall _).afterRead _
    · exact h.silentStep

end Sys2Proof.Machine
end

