-- ==== Sys2Proof/Proofs/HostKeepsInvariant.lean ====
section
/-! PROOFS. Every host transaction keeps the invariant (R59, R99, R100, R101): a command's acceptance, `CLEAR`, a byte
written, a byte read. -/

namespace Sys2Proof.Machine

/-! ### The meaning of a host word -/

/-- A word that writes is `MemWrite` of its address and data, whichever row it decodes to (R80, R100). -/
theorem exec_decodeHost_write {w : HostWord} (h : hostIsWrite w = true) (s : State) :
    exec (decodeHost w) s = .next (memWrite Config.params (hostAddrOf w) (hostDataOf w) s) := by
  simp only [decodeHost, h, if_true, memWrite]
  split
  case isTrue =>
    unfold decodeCmd issueCommand
    cases commandOfCode (hostDataOf w) with
    | none => rfl
    | some op => cases op <;> rfl
  case isFalse hcmd =>
    split
    case isTrue =>
      unfold decodeClear
      split <;> rfl
    case isFalse hclear => simp only [exec, execRegWrite, memWrite, hcmd, hclear, if_false]

/-- A word that reads is `MemRead` of its address (R80, R99). -/
theorem exec_decodeHost_read {w : HostWord} (h : hostIsWrite w = false) (s : State) :
    exec (decodeHost w) s = .next (memRead (hostAddrOf w) s) := by
  simp only [decodeHost, h, Bool.false_eq_true, if_false]
  rfl

/-! ### Acceptance -/

/-- What a command that is accepted has passed (R101). -/
theorem rejectReason_eq_none_iff {P : Params} {op : Command} {s : State} :
    rejectReason P op s = none ↔
      (needsSession op = true → isOpen s = true) ∧ (op = .setup → isOpen s = false) ∧
      (refusedWhileFatal op = true → s.fatal = false) ∧
      (usesDescriptor op = true → s.regs.dataLen.toNat ≤ P.maxDataLen.val) ∧
      (op = .sendRecv → s.regs.rxExpectLen.toNat ≤ 252) := by
  unfold rejectReason
  cases s.fatal <;> split_ifs <;> simp_all

/-- Every reason of R101 is a reason of a REJECTED result (R175). -/
theorem rejectReason_mem_reasonsOf {P : Params} {op : Command} {s : State} {why : FailReason}
    (h : rejectReason P op s = some why) : why ∈ reasonsOf .rejected := by
  unfold rejectReason at h
  split_ifs at h <;> (obtain rfl := Option.some.inj h; decide)

section Accept

variable {s : State} (h : InOperation s) (htx : s.txbuf = Buffer.wiped) (hrx : s.rxbuf = Buffer.wiped)
include h htx hrx

theorem inv_rejectCommand {why : FailReason} (hwhy : why ∈ reasonsOf .rejected) : (rejectCommand why s).Inv :=
  (h.raise htx hrx hwhy).setReject true

/-- The frame of a descriptor in range fills `FRAME` up to its length, which is legal (R45, R141, R144). -/
theorem inv_acceptFrame {P : Params} (hlen : s.regs.dataLen.toNat ≤ P.maxDataLen.val) : (acceptFrame P s).Inv := by
  have hsize : (serialize P s).length = 8 + s.regs.dataLen.toNat := length_serialize P s
  have hbound : (serialize P s).length ≤ 256 := by have := P.maxDataLen.isLt; omega
  have hframeLen : (BitVec.ofNat 16 (serialize P s).length).toNat = (serialize P s).length := by
    rw [BitVec.toNat_ofNat]; omega
  refine inv_finish ?_ (.inr ?_) h.counters htx hrx (agrees_of_reason (by decide))
  · simpa only [hframeLen, BitVec.toNat_zero, BitVec.ofNat_eq_ofNat] using h.mem.storeBytes_frame hbound
  · simp only [hframeLen]; omega

/-- The acceptance step of every command, once the checks of R101 are passed. -/
theorem inv_acceptCommand {op : Command} (hpass : rejectReason Config.params op s = none) :
    (acceptCommand Config.params op s).Inv := by
  obtain ⟨hsession, hsetup, hfatal, hlen, hexpect⟩ := rejectReason_eq_none_iff.1 hpass
  cases op with
  | crcGen => exact InOperation.finish_ok { h with } htx hrx
  | crcCheck => exact InOperation.finish_ok { h with } htx hrx
  | frame => exact inv_acceptFrame h htx hrx (hlen rfl)
  | setup => exact h.gotoLabel (by decide) ⟨isOpen_eq_false_iff.1 (hsetup rfl), htx, hrx⟩
  | teardown =>
    simp only [acceptCommand, acceptTeardown]
    cases hf : s.fatal with
    | true => exact h.gotoLabel (by decide) ⟨hsession rfl, htx, hrx⟩
    | false => exact h.gotoLabel (by decide) ⟨hsession rfl, hf, htx, hrx⟩
  | wake => exact inv_startWake h (by decide) (hsession rfl) (hfatal rfl) htx hrx
  | sleep => exact h.gotoLabel (by decide) ⟨hsession rfl, hfatal rfl, htx, hrx⟩
  | idle => exact h.gotoLabel (by decide) ⟨hsession rfl, hfatal rfl, htx, hrx⟩
  | sendRecv =>
    have hrecv : s.regs.rxExpectLen.toNat + 3 ≤ 255 := Nat.add_le_add_right (hexpect rfl) 3
    have hctr := (h.counters.setRecvLen hrecv).setOuterLeft (n := Config.numRetries) le_rfl
    exact ((h.loadTx (serialize Config.params s)).setCtr hctr).gotoLabel (label := .aWrite) (by decide)
      ⟨hsession rfl, hfatal rfl, ⟨rfl, hlen rfl⟩, hrx, Nat.le_add_left 1 9, hexpect rfl, rfl⟩
  | sendGetRsp =>
    exact (h.loadTx (serialize Config.params s)).gotoLabel (label := .bWrite) (by decide)
      ⟨hsession rfl, hfatal rfl, ⟨rfl, hlen rfl⟩, hrx⟩

end Accept

/-! ### The transactions -/

section Transactions

variable {s : State} (h : s.Inv)
include h

/-- A `CMD` write to an IDLE block, whatever the code (R82, R101). -/
theorem inv_issueCommand (hidle : s.fsm = .idle) (v : Byte) : (issueCommand Config.params v s).Inv := by
  obtain ⟨htx, hrx⟩ := h.buffers_wiped hidle
  unfold issueCommand
  cases commandOfCode v with
  | none => exact inv_rejectCommand (h.startCommon v) htx hrx (by decide)
  | some op =>
    cases hpass : rejectReason Config.params op s with
    | none =>
      simp only [issue_accepted hpass]
      exact inv_acceptCommand (h.startCommon op.code) htx hrx hpass
    | some why =>
      simp only [issue_rejected hpass]
      exact inv_rejectCommand (h.startCommon op.code) htx hrx (rejectReason_mem_reasonsOf hpass)

/-- `CLEAR` of an IDLE block (R106). -/
theorem inv_clearResult (hidle : s.fsm = .idle) : (clearResult s).Inv := by
  obtain ⟨htx, hrx⟩ := h.buffers_wiped hidle
  have hmem := h.memory.wipeResultAndFrame
  exact
    { memWf := hmem.wf, memRange := hmem.range, txWf := h.txWf, rxWf := h.rxWf, resultTail := hmem.resultTail,
      frameTail := hmem.frameTail, frameLen := .inl rfl, result := agrees_cleared, counters := h.counters,
      fsm := fsmInv_of_idle hidle htx hrx }

/-- A byte written to an IDLE block, whatever the address (R100, R108). -/
theorem inv_writeByte (hidle : s.fsm = .idle) (a : HostAddr) (v : Byte) : (writeByte a v s).Inv := by
  obtain ⟨htx, hrx⟩ := h.buffers_wiped hidle
  unfold writeByte
  split
  case isTrue hlo =>
    split
    case isTrue hhi =>
      have hmem := h.memory.storeByte_data hlo hhi v
      exact
        { h with memWf := hmem.wf, memRange := hmem.range, resultTail := hmem.resultTail,
                 frameTail := hmem.frameTail, fsm := fsmInv_of_idle hidle htx hrx }
    case isFalse => exact h
  case isFalse =>
    split
    · exact { h with fsm := fsmInv_of_idle hidle htx hrx }
    · exact h

/-- `MemWrite` in every state: while BUSY only `REJECT` is set (R100, R103). -/
theorem inv_memWrite (a : HostAddr) (v : Byte) : (memWrite Config.params a v s).Inv := by
  by_cases hidle : s.fsm = .idle
  · rw [memWrite, whenIdle_idle hidle]
    split_ifs
    · exact inv_issueCommand h hidle v
    · exact inv_clearResult h hidle
    · exact h
    · exact inv_writeByte h hidle a v
  · rw [memWrite, whenIdle_busy hidle]
    exact h.setReject true

/-- The instruction of a host word. -/
theorem inv_exec_decodeHost {t : State} {w : HostWord} (hexec : exec (decodeHost w) s = .next t) : t.Inv := by
  cases hwrite : hostIsWrite w with
  | true =>
    rw [exec_decodeHost_write hwrite] at hexec
    obtain rfl := Host.Outcome.next.inj hexec
    exact inv_memWrite h _ _
  | false =>
    rw [exec_decodeHost_read hwrite] at hexec
    obtain rfl := Host.Outcome.next.inj hexec
    exact h.setEnv _

end Transactions

end Sys2Proof.Machine
end

