-- ==== Sys2Proof/Proofs/StateFamily.lean ====
section
/-! PROOFS. The block's state: the values after reset, and the invariant at reset and over every step (R58, R2, R3). -/

namespace Sys2Proof.Machine

/-! ### Reset -/

/-- After reset every register byte reads 0 (R58). -/
theorem readReg_reset (r : RegByte) : readReg State.reset r = 0x00 := by
  cases r <;> rfl

/-- After reset every host address reads 0: an empty buffer byte, a register, or a reserved address (R51, R58). -/
theorem readByte_reset (a : HostAddr) : readByte a State.reset = 0x00 := by
  unfold readByte
  split
  · rfl
  · split
    · exact readReg_reset _
    · rfl

/-- Settles O1, from what every host address reads after reset. -/
theorem resetLeavesSpecValues : Obligations.ResetLeavesSpecValues :=
  ⟨readByte_reset, rfl, rfl, rfl, rfl, rfl, loadByte_wiped, rfl, loadByte_wiped, rfl, rfl, rfl, rfl, rfl, rfl, rfl⟩

/-- Settles O3: reset is an IDLE block with wiped buffers and an empty memory. -/
theorem resetMeetsInvariant : Obligations.ResetMeetsInvariant where
  memWf := wf_nil
  memRange := (memoryInv_nil 0 0).range
  txWf := wf_nil
  rxWf := wf_nil
  resultTail := (memoryInv_nil 0 0).resultTail
  frameTail := (memoryInv_nil 0 0).frameTail
  frameLen := .inl rfl
  result := agrees_cleared
  counters := by constructor <;> decide
  fsm := fsmInv_of_idle rfl rfl rfl

/-- A reset in any state gives a block that meets the invariant (R191). -/
theorem inv_resetBlock (s : State) : (resetBlock s).Inv := State.Inv.setEnv resetMeetsInvariant _

/-! ### Steps -/

/-- A turn of the block's ports: an IDLE block waits (R190), a running one makes its port call (R2). -/
theorem inv_of_fetch_eq_fetchPort {s t u : State} (h : s.Inv) (hfetch : fetch u = fetchPort s)
    (hstep : step u = .next t) : t.Inv := by
  cases hfsm : s.fsm with
  | idle =>
    have hwait : step u = .next s := by simp only [step, hfetch, fetchPort, hfsm]
    obtain rfl := Host.Outcome.next.inj (hwait.symm.trans hstep)
    exact h
  | run op label =>
    obtain ⟨-, hl, -⟩ := h.running hfsm
    obtain rfl := Host.Outcome.next.inj ((step_of_fetch_eq_fetchPort hfetch hfsm hl).symm.trans hstep)
    exact h.blockStep

/-- Settles O51, by whose turn it is: the host's, a reset, or the block's own. -/
theorem everyStepKeepsInvariant : Obligations.EveryStepKeepsInvariant := by
  intro s t h hstep
  cases hagenda : s.env.agenda with
  | nil => exact inv_of_fetch_eq_fetchPort h (fetch_of_agenda_nil hagenda) hstep
  | cons turn rest =>
    cases turn with
    | host w =>
      have hexec : step s = exec (decodeHost w) (setAgenda rest s) := by simp only [step, fetch, hagenda]
      exact inv_exec_decodeHost (h.setAgenda rest) (hexec.symm.trans hstep)
    | port => exact inv_of_fetch_eq_fetchPort (h.setAgenda rest) (fetch_of_agenda_port hagenda) hstep
    | reset =>
      have hreset : step s = .next (resetBlock (setAgenda rest s)) := by simp only [step, fetch, hagenda]
      obtain rfl := Host.Outcome.next.inj (hreset.symm.trans hstep)
      exact inv_resetBlock _

end Sys2Proof.Machine
end

