-- ==== Sys2Proof/Proofs/Turns.lean ====
section
/-! PROOFS. Whose turn a step is, and what the step then does (R2, R3, R59, R190, R191): the case split that a statement
about every step starts from. -/

namespace Sys2Proof.Machine

variable {s t : State} {rest : List Turn}

/-! ### One equation per turn -/

theorem step_of_agenda_host {w : HostWord} (h : s.env.agenda = .host w :: rest) :
    step s = exec (decodeHost w) (setAgenda rest s) := by simp only [step, fetch, h]

theorem step_of_agenda_write {w : HostWord} (h : s.env.agenda = .host w :: rest) (hw : hostIsWrite w = true) :
    step s = .next (memWrite Config.params (hostAddrOf w) (hostDataOf w) (setAgenda rest s)) := by
  rw [step_of_agenda_host h, exec_decodeHost_write hw]

theorem step_of_agenda_read {w : HostWord} (h : s.env.agenda = .host w :: rest) (hw : hostIsWrite w = false) :
    step s = .next (memRead (hostAddrOf w) (setAgenda rest s)) := by
  rw [step_of_agenda_host h, exec_decodeHost_read hw]

theorem step_of_agenda_reset (h : s.env.agenda = .reset :: rest) :
    step s = .next (resetBlock (setAgenda rest s)) := by simp only [step, fetch, h]

/-- The block's turn, with `rest` left to come: a listed turn of its ports, or an empty agenda (log 2). -/
def BlockTurn (s : State) (rest : List Turn) : Prop :=
  s.env.agenda = .port :: rest ∨ (s.env.agenda = [] ∧ rest = [])

theorem fetch_of_blockTurn (h : BlockTurn s rest) : fetch s = fetchPort (setAgenda rest s) := by
  obtain hport | ⟨hnil, rfl⟩ := h
  · exact fetch_of_agenda_port hport
  · have hsame : setAgenda [] s = s := by simp only [setAgenda, ← hnil]
    rw [hsame]
    exact fetch_of_agenda_nil hnil

/-- An IDLE block waits for the host (R190). -/
theorem step_of_blockTurn_idle (h : BlockTurn s rest) (hidle : s.fsm = .idle) :
    step s = .next (setAgenda rest s) := by
  simp only [step, fetch_of_blockTurn h, fetchPort, setAgenda_fsm, hidle]

/-- At a label that is not one of the running operation's the machine stops (R52, log 8). -/
theorem step_of_blockTurn_undefined {op : Command} {label : Label} (h : BlockTurn s rest)
    (hfsm : s.fsm = .run op label) (hl : label ∉ labelsOf op) : step s = .fault .undefinedLabel := by
  simp only [step, fetch_of_blockTurn h, fetchPort, setAgenda_fsm, hfsm, hl, if_false]

/-! ### What a step can be -/

/-- The steps that go on, by the agent whose turn it is. -/
inductive TurnStep (s : State) : State → Prop
  | reset (rest : List Turn) (hagenda : s.env.agenda = .reset :: rest) : TurnStep s (resetBlock (setAgenda rest s))
  | write (w : HostWord) (rest : List Turn) (hagenda : s.env.agenda = .host w :: rest) (hw : hostIsWrite w = true) :
      TurnStep s (memWrite Config.params (hostAddrOf w) (hostDataOf w) (setAgenda rest s))
  | read (w : HostWord) (rest : List Turn) (hagenda : s.env.agenda = .host w :: rest) (hw : hostIsWrite w = false) :
      TurnStep s (memRead (hostAddrOf w) (setAgenda rest s))
  | wait (rest : List Turn) (hturn : BlockTurn s rest) (hidle : s.fsm = .idle) : TurnStep s (setAgenda rest s)
  | portCall (rest : List Turn) (op : Command) (label : Label) (hturn : BlockTurn s rest)
      (hfsm : s.fsm = .run op label) (hl : label ∈ labelsOf op) :
      TurnStep s (blockStep Config.params (setAgenda rest s))

theorem turnStep_of_blockTurn (hturn : BlockTurn s rest) (h : step s = .next t) : TurnStep s t := by
  cases hfsm : s.fsm with
  | idle =>
    obtain rfl := Host.Outcome.next.inj ((step_of_blockTurn_idle hturn hfsm).symm.trans h)
    exact .wait rest hturn hfsm
  | run op label =>
    by_cases hl : label ∈ labelsOf op
    · have hcall := step_of_fetch_eq_fetchPort (fetch_of_blockTurn hturn) hfsm hl
      obtain rfl := Host.Outcome.next.inj (hcall.symm.trans h)
      exact .portCall rest op label hturn hfsm hl
    · cases (step_of_blockTurn_undefined hturn hfsm hl).symm.trans h

/-- A step that goes on is one of these. -/
theorem turnStep_of_step (h : step s = .next t) : TurnStep s t := by
  cases hagenda : s.env.agenda with
  | nil => exact turnStep_of_blockTurn (.inr ⟨hagenda, rfl⟩) h
  | cons turn rest =>
    cases turn with
    | host w =>
      cases hw : hostIsWrite w with
      | true =>
        obtain rfl := Host.Outcome.next.inj ((step_of_agenda_write hagenda hw).symm.trans h)
        exact .write w rest hagenda hw
      | false =>
        obtain rfl := Host.Outcome.next.inj ((step_of_agenda_read hagenda hw).symm.trans h)
        exact .read w rest hagenda hw
    | port => exact turnStep_of_blockTurn (.inl hagenda) h
    | reset =>
      obtain rfl := Host.Outcome.next.inj ((step_of_agenda_reset hagenda).symm.trans h)
      exact .reset rest hagenda

/-- A word that writes, by its address and data (R80). -/
theorem eq_hostWord_of_hostIsWrite {w : HostWord} (hw : hostIsWrite w = true) :
    w = hostWord 1#1 (hostAddrOf w) (hostDataOf w) := by
  have hbit : w.extractLsb' 18 1 = 1#1 := by simpa only [hostIsWrite, beq_iff_eq] using hw
  rw [← hbit, hostWord_fields]

end Sys2Proof.Machine
end

