-- ==== Sys2Proof/Proofs/MemoryFrame.lean ====
section
/-! PROOFS. What each operation of the block does to memory (R50, R77): most leave it as it is, and those that store do
so in `RESULT` or `FRAME` only. -/

namespace Sys2Proof.Machine

variable {P : Params} {op : Command}

/-! ### Operations that leave memory alone -/

@[simp] theorem startWake_mem (op : Command) (s : State) : (startWake op s).mem = s.mem := rfl

@[simp] theorem wakeRetry_mem (op : Command) (s : State) : (wakeRetry op s).mem = s.mem := by
  unfold wakeRetry; split <;> rfl

@[simp] theorem afterWakeRead_mem (P : Params) (op : Command) (r : ReadAnswer) (s : State) :
    (afterWakeRead P op r s).mem = s.mem := by
  unfold afterWakeRead; split <;> simp

@[simp] theorem afterOpen_mem (ok : Bool) (s : State) : (afterOpen ok s).mem = s.mem := by
  cases ok <;> rfl

@[simp] theorem afterClose_mem (s : State) : (afterClose s).mem = s.mem := rfl

@[simp] theorem afterControlWrite_mem (w : Int) (s : State) : (afterControlWrite w s).mem = s.mem := by
  unfold afterControlWrite; split <;> rfl

@[simp] theorem afterWriteA_mem (op : Command) (w : Int) (s : State) : (afterWriteA op w s).mem = s.mem := by
  unfold afterWriteA; split <;> rfl

/-- The end of an outer iteration stores nothing itself. -/
theorem endOuter_mem {done : State → State} (hdone : ∀ s, (done s).mem = s.mem) (awake : Bool) (s : State) :
    (endOuter op awake done s).mem = s.mem := by
  unfold endOuter
  split
  · rfl
  · exact hdone _

@[simp] theorem afterStatusA_mem (op : Command) (c : StatusCode) (s : State) : (afterStatusA op c s).mem = s.mem := by
  rw [afterStatusA, endOuter_mem fun _ => finish_mem ..]

@[simp] theorem afterNakA_mem (op : Command) (s : State) : (afterNakA op s).mem = s.mem := by
  unfold afterNakA
  split
  · rfl
  · exact afterStatusA_mem op .nak _

@[simp] theorem afterClassA_mem (op : Command) (v : Classified) (s : State) :
    (afterClassA op v s).mem = s.mem := by
  cases v with
  | nak => exact afterNakA_mem op s
  | unmapped => rfl
  | dat p => rw [afterClassA, endOuter_mem fun _ => finish_mem ..]
  | st c =>
    simp only [afterClassA]
    split
    · exact afterNakA_mem op s
    · exact afterStatusA_mem op c s

@[simp] theorem nullResult_mem (why : FailReason) (s : State) : (nullResult why s).mem = s.mem := rfl

@[simp] theorem afterWriteB_mem (op : Command) (w : Int) (s : State) : (afterWriteB op w s).mem = s.mem := by
  unfold afterWriteB; split <;> rfl

/-- No label's step after a `BusWrite` stores a byte. -/
@[simp] theorem afterWrite_mem (w : Int) (s : State) : (afterWrite w s).mem = s.mem := by
  unfold afterWrite
  cases s.fsm with
  | idle => rfl
  | run op label => cases label <;> simp

@[simp] theorem sendBytes_mem (bytes : List Byte) (s : State) : (sendBytes bytes s).mem = s.mem := by
  simp [sendBytes]

/-- Nor does an open, a close or a delay. -/
@[simp] theorem silentStep_mem (s : State) : (silentStep s).mem = s.mem := by
  unfold silentStep
  cases s.fsm with
  | idle => rfl
  | run op label => cases label <;> simp

/-! ### `DATA` is kept -/

/-- Every byte of `DATA` reads as before (R50, R77). -/
def DataKept (m m' : Memory) : Prop := ∀ a, 0x100 ≤ a → a < 0x200 → loadByte m' a = loadByte m a

theorem DataKept.refl (m : Memory) : DataKept m m := fun _ _ _ => rfl

theorem DataKept.trans {m₁ m₂ m₃ : Memory} (h : DataKept m₁ m₂) (h' : DataKept m₂ m₃) : DataKept m₁ m₃ :=
  fun a hlo hhi => (h' a hlo hhi).trans (h a hlo hhi)

theorem dataKept_wipeResultAndFrame (m : Memory) : DataKept m (wipeResultAndFrame m) := fun a _ hhi => by
  rw [loadByte_wipeResultAndFrame, if_neg (by omega)]

theorem dataKept_storeBytes {b : Nat} (hb : 0x200 ≤ b) (m : Memory) (bs : List Byte) :
    DataKept m (storeBytes m b bs) := fun _ _ hhi => loadByte_storeBytes_outside (by omega)

/-! ### The block's steps -/

theorem dataKept_storeResult (p : List Byte) (s : State) : DataKept s.mem (storeResult p s).mem :=
  dataKept_storeBytes le_rfl s.mem p

theorem dataKept_copyPayload (v : Classified) (s : State) : DataKept s.mem (copyPayload v s).mem := by
  cases v with
  | dat p => exact dataKept_storeResult p s
  | nak | st c | unmapped => exact .refl _

theorem dataKept_afterReadA (r : ReadAnswer) (s : State) : DataKept s.mem (afterReadA P op r s).mem := by
  simpa only [afterReadA, afterClassA_mem, wipeRx_mem, loadRx_mem] using dataKept_copyPayload _ (loadRx r s)

theorem dataKept_validateB (s : State) : DataKept s.mem (validateB P s).mem := by
  unfold validateB
  split
  · exact dataKept_storeResult _ s
  · exact .refl _

theorem dataKept_classifyFirstB (c : List Byte) (s : State) : DataKept s.mem (classifyFirstB P op c s).mem := by
  unfold classifyFirstB
  split
  · exact dataKept_validateB { s with ctr := { s.ctr with frameTotal := 4 } }
  · split <;> exact .refl _

theorem dataKept_afterRead1B (r : ReadAnswer) (s : State) : DataKept s.mem (afterRead1B P op r s).mem := by
  cases r with
  | err => simp only [afterRead1B]; split <;> exact .refl _
  | data c =>
    simp only [afterRead1B]
    split
    · exact dataKept_classifyFirstB c (loadRx (.data c) s)
    · exact .refl _

theorem dataKept_afterRead2B (r : ReadAnswer) (s : State) : DataKept s.mem (afterRead2B P r s).mem := by
  cases r with
  | err => exact .refl _
  | data t =>
    simp only [afterRead2B]
    split
    · exact dataKept_validateB { s with rxbuf := Buffer.ofBytes (s.rxbuf.bytes ++ t) }
    · exact .refl _

/-- A read's answer goes to `RESULT` at most (R157, R165). -/
theorem dataKept_afterRead (r : ReadAnswer) (s : State) : DataKept s.mem (afterRead P r s).mem := by
  unfold afterRead
  cases s.fsm with
  | idle => exact .refl _
  | run op label =>
    cases label with
    | wRead => rw [afterWakeRead_mem]; exact .refl _
    | aRead => exact dataKept_afterReadA r s
    | bRead1 => exact dataKept_afterRead1B r s
    | bRead2 => exact dataKept_afterRead2B r s
    | sOpen | wWrite | tSleep | tClose | cWrite | aWrite | aDelay | bWrite | bDelay => exact .refl _

/-- No step of the block FSM writes `DATA` (R77). -/
theorem dataKept_blockStep (s : State) : DataKept s.mem (blockStep P s).mem := by
  unfold blockStep
  split
  case h_1 bytes _ => rw [sendBytes_mem]; exact .refl _
  case h_2 =>
    split
    case h_1 n _ =>
      simpa only [receive, logCall_mem, dropRead_mem] using dataKept_afterRead _ (logCall (.busRead n) (dropRead s))
    case h_2 => rw [silentStep_mem]; exact .refl _

/-! ### The host's transactions -/

theorem dataKept_acceptCommand (op : Command) (s : State) : DataKept s.mem (acceptCommand P op s).mem := by
  cases op with
  | frame => exact dataKept_storeBytes (by decide) s.mem (serialize P s)
  | crcGen | crcCheck | setup | teardown | wake | sleep | idle | sendRecv | sendGetRsp => exact .refl _

/-- A `CMD` write, whatever the code, does not touch `DATA` (R77, R104). -/
theorem dataKept_issueCommand (v : Byte) (s : State) : DataKept s.mem (issueCommand P v s).mem := by
  have hstart := dataKept_wipeResultAndFrame s.mem
  unfold issueCommand
  cases commandOfCode v with
  | none => exact hstart
  | some op =>
    cases hcheck : rejectReason P op s with
    | some why => simp only [issue_rejected hcheck]; exact hstart
    | none =>
      simp only [issue_accepted hcheck]
      exact hstart.trans (dataKept_acceptCommand op (startCommon op.code s))

/-- A byte written leaves every other byte of memory (R100, R108). -/
theorem loadByte_writeByte_ne {a : HostAddr} {b : Nat} (hb : b ≠ a.toNat) (v : Byte) (s : State) :
    loadByte (writeByte a v s).mem b = loadByte s.mem b := by
  unfold writeByte
  split
  · split
    · exact loadByte_storeByte_ne hb
    · rfl
  · split <;> rfl

/-- `MemWrite` leaves every byte of `DATA` but the one it is addressed to (R77, R100). -/
theorem loadByte_memWrite_ne {a : HostAddr} {b : Nat} (hlo : 0x100 ≤ b) (hhi : b < 0x200) (hb : b ≠ a.toNat) (v : Byte)
    (s : State) : loadByte (memWrite P a v s).mem b = loadByte s.mem b := by
  by_cases hidle : s.fsm = .idle
  · rw [memWrite, whenIdle_idle hidle]
    split_ifs
    · exact dataKept_issueCommand v s b hlo hhi
    · exact dataKept_wipeResultAndFrame s.mem b hlo hhi
    · rfl
    · exact loadByte_writeByte_ne hb v s
  · rw [memWrite, whenIdle_busy hidle]

end Sys2Proof.Machine
end

