-- ==== Sys2Proof/Proofs/MemoryFamily.lean ====
section
/-! PROOFS. The block's memory as the host sees it (20_memory.md): who writes `DATA`, and what keeps the results of a
finished operation. -/

namespace Sys2Proof.Machine

/-- Settles O4: the word at the head of the agenda is what the step fetches. -/
theorem hostTurnRunsDecodedWord : Obligations.HostTurnRunsDecodedWord :=
  fun _ _ _ hagenda => step_of_agenda_host hagenda

/-- Settles O55, by whose turn it is: the block's own steps keep `DATA`, and so does the host but for the byte its word
addresses. -/
theorem blockNeverWritesData : Obligations.BlockNeverWritesData := by
  intro s t a hlo hhi hstep
  cases turnStep_of_step hstep with
  | reset rest hagenda => exact .inr (.inl ⟨rest, hagenda⟩)
  | write w rest hagenda hw =>
    by_cases ha : a = (hostAddrOf w).toNat
    · have hword : w = hostWord 1#1 (BitVec.ofNat 10 a) (hostDataOf w) := by
        rw [ha, BitVec.ofNat_toNat, BitVec.setWidth_eq]
        exact eq_hostWord_of_hostIsWrite hw
      exact .inr (.inr ⟨hostDataOf w, rest, hword ▸ hagenda⟩)
    · exact .inl (loadByte_memWrite_ne hlo hhi ha _ (setAgenda rest s))
  | read | wait => exact .inl rfl
  | portCall rest => exact .inl (dataKept_blockStep (setAgenda rest s) a hlo hhi)

/-! ### Results while IDLE -/

/-- `t` differs from `s` at most in the operand registers, in bytes below `RESULT`, and outside the block: no result of
R69 and no flag is among these. -/
def ResultsKept (s t : State) : Prop :=
  ∃ (g : Regs) (m : Memory) (e : Env), t = { s with regs := g, mem := m, env := e } ∧
    ∀ a, 0x200 ≤ a → loadByte m a = loadByte s.mem a

/-- What is outside the block holds no result. -/
theorem resultsKept_setEnv (s : State) (e : Env) : ResultsKept s { s with env := e } :=
  ⟨s.regs, s.mem, e, rfl, fun _ _ => rfl⟩

/-- A byte written reaches a read/write register or `DATA`, and no result (R100, R108). -/
theorem resultsKept_writeByte (a : HostAddr) (v : Byte) (s : State) (e : Env) :
    ResultsKept s (writeByte a v { s with env := e }) := by
  unfold writeByte
  split
  · split
    case isTrue hhi =>
      exact ⟨s.regs, _, e, rfl, fun b hb => loadByte_storeByte_ne (by simp only [resultBase] at hhi; omega)⟩
    case isFalse => exact resultsKept_setEnv s e
  · split
    · exact ⟨_, s.mem, e, rfl, fun _ _ => rfl⟩
    · exact resultsKept_setEnv s e

/-- While IDLE a write to neither `CMD` nor `CLEAR` is a byte written (R100). -/
theorem memWrite_idle_of_ne {P : Params} {s : State} {a : HostAddr} (hidle : s.fsm = .idle) (hcmd : a ≠ 0x000#10)
    (hclear : a ≠ 0x002#10) (v : Byte) : memWrite P a v s = writeByte a v s := by
  rw [memWrite, whenIdle_idle hidle, if_neg hcmd, if_neg hclear]

/-- Settles O56, by whose turn it is: an IDLE block makes no step of its own, and of the host's transactions only `CMD`
and `CLEAR` writes reach a result. -/
theorem resultsStayWhileIdle : Obligations.ResultsStayWhileIdle := by
  intro s t hidle hstep hreset hhost
  have hkept : ResultsKept s t := by
    cases turnStep_of_step hstep with
    | reset rest hagenda => exact absurd hagenda (hreset rest)
    | write w rest hagenda hw =>
      obtain ⟨hcmd, hclear⟩ := hhost _ _ rest (eq_hostWord_of_hostIsWrite hw ▸ hagenda)
      rw [memWrite_idle_of_ne (s := setAgenda rest s) hidle hcmd hclear]
      exact resultsKept_writeByte _ _ s _
    | read | wait => exact resultsKept_setEnv s _
    | portCall rest op label hturn hfsm => cases hidle.symm.trans hfsm
  obtain ⟨g, m, e, rfl, hmem⟩ := hkept
  exact ⟨rfl, rfl, rfl, rfl, rfl, rfl, rfl, rfl, rfl, hidle, hmem⟩

end Sys2Proof.Machine
end


-- ==== Sys2Proof/Proofs/HostEncoding.lean ====
section
/-! PROOFS. Host words (R80 to R83): every 19-bit word encodes a well-formed instruction, and the decoder gives that
instruction back. -/

namespace Sys2Proof

open Machine

/-! ### Command codes -/

/-- The codes of R81 are distinct. -/
@[simp] theorem commandOfCode_code (c : Command) : commandOfCode c.code = some c := by cases c <;> rfl

theorem code_of_commandOfCode {code : Byte} {c : Command} (h : commandOfCode code = some c) : c.code = code := by
  simpa only [beq_iff_eq] using List.find?_some h

/-- A code is reserved when it selects no command (R82). -/
theorem commandOfCode_eq_none_iff {code : Byte} : commandOfCode code = none ↔ isReservedCode code = true := by
  simp [commandOfCode, isReservedCode]

theorem encode_commandInstr (c : Command) : encode c.instr = .host (hostWord 1#1 0x000#10 c.code) := by
  cases c <;> rfl

theorem wellFormed_commandInstr (c : Command) : c.instr.wellFormed = true := by cases c <;> rfl

/-! ### The data byte of `CLEAR` -/

/-- A byte is its bits 7:1 and its bit 0, the two fields of a `CLEAR` write (R83). -/
theorem clearByte_fields (v : Byte) : v.extractLsb' 1 7 ++ v.extractLsb' 0 1 = v :=
  BitVec.extractLsb'_append_extractLsb' (w := 7) (len := 1)

@[simp] theorem clearByte_ignored (ignored : BitVec 7) (bit : BitVec 1) :
    BitVec.extractLsb' 1 7 (ignored ++ bit : Byte) = ignored := BitVec.extractLsb'_append_eq_left

@[simp] theorem clearByte_bit (ignored : BitVec 7) (bit : BitVec 1) :
    BitVec.extractLsb' 0 1 (ignored ++ bit : Byte) = bit := BitVec.extractLsb'_append_eq_right

theorem decodeClear_append (ignored : BitVec 7) (bit : BitVec 1) :
    decodeClear (ignored ++ bit) = if bit = 1#1 then .clear ignored else .clearNop ignored := by
  simp only [decodeClear, clearByte_ignored, clearByte_bit]

/-- A field of one bit that is not 1 is 0. -/
theorem bit_eq_zero {bit : BitVec 1} (h : bit ≠ 1#1) : bit = 0#1 := by
  revert bit; decide

/-! ### The decoder, by the fields of the word -/

theorem decodeHost_read (a : HostAddr) (v : Byte) : decodeHost (hostWord 0#1 a v) = .regRead a v := by
  simp [decodeHost]

theorem decodeHost_cmd (code : Byte) : decodeHost (hostWord 1#1 0x000#10 code) = decodeCmd code := by
  simp [decodeHost]

theorem decodeHost_clear (v : Byte) : decodeHost (hostWord 1#1 0x002#10 v) = decodeClear v := by
  simp [decodeHost]

theorem decodeHost_write {a : HostAddr} (hcmd : a ≠ 0x000#10) (hclear : a ≠ 0x002#10) (v : Byte) :
    decodeHost (hostWord 1#1 a v) = .regWrite a v := by
  simp [decodeHost, hcmd, hclear]

/-- The word of a command decodes to the command's row (R81). -/
theorem decode_encode_commandInstr (c : Command) : decode (encode c.instr) = some c.instr := by
  simp only [encode_commandInstr, decode, decodeHost_cmd, decodeCmd, commandOfCode_code]

/-- The word of a reserved code decodes to that code (R82). -/
theorem decode_encode_cmdReserved {code : Byte} (h : isReservedCode code = true) :
    decode (encode (.cmdReserved code)) = some (.cmdReserved code) := by
  simp only [encode, decode, decodeHost_cmd, decodeCmd, commandOfCode_eq_none_iff.2 h]

/-! ### Every word is an encoding -/

/-- The encoder reaches every 19-bit word from a well-formed instruction (R80: "every 19-bit word decodes"). -/
theorem exists_encode_eq_host (w : HostWord) : ∃ i : Instr, i.wellFormed = true ∧ encode i = .host w := by
  rw [← hostWord_fields w]
  generalize w.extractLsb' 18 1 = b, hostAddrOf w = a, hostDataOf w = v
  by_cases hwrite : b = 1#1
  · subst hwrite
    by_cases hcmd : a = 0x000#10
    · subst hcmd
      cases hcode : commandOfCode v with
      | some c => exact ⟨c.instr, wellFormed_commandInstr c, code_of_commandOfCode hcode ▸ encode_commandInstr c⟩
      | none => exact ⟨.cmdReserved v, commandOfCode_eq_none_iff.1 hcode, rfl⟩
    · by_cases hclear : a = 0x002#10
      · subst hclear
        rw [← clearByte_fields v]
        by_cases hbit : v.extractLsb' 0 1 = 1#1
        · exact ⟨.clear (v.extractLsb' 1 7), rfl, by rw [hbit, encode]⟩
        · exact ⟨.clearNop (v.extractLsb' 1 7), rfl, by rw [bit_eq_zero hbit, encode]⟩
      · exact ⟨.regWrite a v, by simp [Instr.wellFormed, hcmd, hclear], rfl⟩
  · exact ⟨.regRead a v, rfl, by rw [bit_eq_zero hwrite, encode]⟩

end Sys2Proof
end

