-- ==== Sys2Proof/Proofs/WireDecoding.lean ====
section
/-! PROOFS. Wire sequences (R84 to R90): the decoders give back the instruction whose bytes they read, and read nothing
but well-formed instructions. -/

namespace Sys2Proof

/-! ### The last two bytes -/

/-- The two checksum bytes of a frame are found again at its end (R86, R90). -/
theorem split_last_two (front : List Byte) (lo hi : Byte) :
    (front ++ [lo, hi]).take ((front ++ [lo, hi]).length - 2) = front ∧
      (front ++ [lo, hi]).getD ((front ++ [lo, hi]).length - 2) 0#8 = lo ∧
      (front ++ [lo, hi]).getD ((front ++ [lo, hi]).length - 1) 0#8 = hi := by
  simp

/-! ### Outbound sequences -/

/-- The decoder reads a command frame by the frame's own fields (R86, R87). -/
theorem decodeCmdFrame_bytes {f : CmdFrame} (h : (Instr.wireCmd f).wellFormed = true) :
    decodeCmdFrame f.bytes = some (.wireCmd f) := by
  simp only [Instr.wellFormed, Bool.and_eq_true, decide_eq_true_eq] at h
  obtain ⟨hdata, hcount⟩ := h
  obtain ⟨htake, hlo, hhi⟩ := split_last_two f.data f.crcLo f.crcHi
  have hlen : (f.data ++ [f.crcLo, f.crcHi]).length = f.data.length + 2 := by simp
  simp only [CmdFrame.bytes, List.cons_append, List.nil_append, decodeCmdFrame, htake, hlo, hhi]
  rw [if_pos (by omega)]

/-- A sequence longer than the wake pulse can only be a command frame (R95). -/
theorem decodeOutbound_of_length {bytes : List Byte} (h : 2 < bytes.length) :
    decodeOutbound bytes = decodeCmdFrame bytes := by
  have hne {short : List Byte} (hshort : short.length ≤ 2) : bytes ≠ short := by rintro rfl; omega
  rw [decodeOutbound, if_neg (hne (by decide)), if_neg (hne (by decide)), if_neg (hne (by decide))]

theorem decodeOutbound_bytes {f : CmdFrame} (h : (Instr.wireCmd f).wellFormed = true) :
    decodeOutbound f.bytes = some (.wireCmd f) := by
  rw [decodeOutbound_of_length (by simp [CmdFrame.bytes]), decodeCmdFrame_bytes h]

/-- What a command frame decodes to has a payload in range and the `count` of its length (R87, R94). -/
theorem wellFormed_of_decodeCmdFrame {bytes : List Byte} {i : Instr} (h : decodeCmdFrame bytes = some i) :
    i.wellFormed = true := by
  unfold decodeCmdFrame at h
  split at h
  case h_1 =>
    split at h
    case isTrue hshape =>
      obtain rfl := Option.some.inj h
      simp only [Instr.wellFormed, List.length_take, Bool.and_eq_true, decide_eq_true_eq]
      omega
    case isFalse => cases h
  case h_2 => cases h

theorem wellFormed_of_decodeOutbound {bytes : List Byte} {i : Instr} (h : decodeOutbound bytes = some i) :
    i.wellFormed = true := by
  unfold decodeOutbound at h
  split_ifs at h
  · obtain rfl := Option.some.inj h; rfl
  · obtain rfl := Option.some.inj h; rfl
  · obtain rfl := Option.some.inj h; rfl
  · exact wellFormed_of_decodeCmdFrame h

/-! ### Inbound frames -/

theorem decodeInbound_statusFrameBytes {trailing : List Byte} (h : trailing.length ≤ 251) (status crcLo crcHi : Byte) :
    decodeInbound (statusFrameBytes status crcLo crcHi trailing) = some (.inStatus status crcLo crcHi trailing) := by
  simp only [statusFrameBytes, List.cons_append, List.nil_append, decodeInbound, if_true, if_pos h]

/-- The decoder reads a data frame by its length byte, which is not that of a status frame (R90, R93). -/
theorem decodeInbound_dataFrameBytes {total : Byte} {payload : List Byte} {crcLo crcHi : Byte}
    (h : (Instr.inData total payload crcLo crcHi).wellFormed = true) :
    decodeInbound (dataFrameBytes total payload crcLo crcHi) = some (.inData total payload crcLo crcHi) := by
  simp only [Instr.wellFormed, Bool.and_eq_true, decide_eq_true_eq, bne_iff_ne] at h
  obtain ⟨htotal, hnotStatus⟩ := h
  obtain ⟨htake, hlo, hhi⟩ := split_last_two payload crcLo crcHi
  have hlen : (payload ++ [crcLo, crcHi]).length = payload.length + 2 := by simp
  simp only [dataFrameBytes, List.cons_append, List.nil_append, decodeInbound, if_neg hnotStatus, htake, hlo, hhi]
  rw [if_pos (by omega)]

theorem wellFormed_of_decodeInbound {bytes : List Byte} {i : Instr} (h : decodeInbound bytes = some i) :
    i.wellFormed = true := by
  cases bytes with
  | nil => cases h
  | cons first rest =>
    simp only [decodeInbound] at h
    split at h
    case isTrue hstatus =>
      split at h
      case h_1 =>
        split at h
        case isTrue htrailing => obtain rfl := Option.some.inj h; exact decide_eq_true htrailing
        case isFalse => cases h
      case h_2 => cases h
    case isFalse hnotStatus =>
      split at h
      case isTrue hshape =>
        obtain rfl := Option.some.inj h
        simp only [Instr.wellFormed, List.length_take, Bool.and_eq_true, decide_eq_true_eq, bne_iff_ne]
        exact ⟨by omega, hnotStatus⟩
      case isFalse => cases h

end Sys2Proof
end

