-- ==== Sys2Proof/Proofs/RoundTrip.lean ====
section
/-! PROOFS. The decoders and the encoder are inverse to each other (R79, R80, R86, R89, R90). -/

namespace Sys2Proof

/-- Settles O8, row by row: the ten commands, the other host rows, the outbound sequences, the inbound frames. -/
theorem decodeInvertsEncode : Obligations.DecodeInvertsEncode := by
  intro i h
  cases i with
  | cmdCrcGen => exact decode_encode_commandInstr .crcGen
  | cmdCrcCheck => exact decode_encode_commandInstr .crcCheck
  | cmdFrame => exact decode_encode_commandInstr .frame
  | cmdSetup => exact decode_encode_commandInstr .setup
  | cmdTeardown => exact decode_encode_commandInstr .teardown
  | cmdWake => exact decode_encode_commandInstr .wake
  | cmdSleep => exact decode_encode_commandInstr .sleep
  | cmdIdle => exact decode_encode_commandInstr .idle
  | cmdSendRecv => exact decode_encode_commandInstr .sendRecv
  | cmdSendGetRsp => exact decode_encode_commandInstr .sendGetRsp
  | cmdReserved code => exact decode_encode_cmdReserved h
  | clear ignored => rw [encode, decode, decodeHost_clear, decodeClear_append, if_pos rfl]
  | clearNop ignored => rw [encode, decode, decodeHost_clear, decodeClear_append, if_neg (by decide)]
  | regWrite addr data =>
    simp only [Instr.wellFormed, Bool.and_eq_true, bne_iff_ne] at h
    obtain ⟨hcmd, hclear⟩ := h
    rw [encode, decode, decodeHost_write hcmd hclear]
  | regRead addr ignored => rw [encode, decode, decodeHost_read]
  | wireWake => rfl
  | wireSleep => rfl
  | wireIdle => rfl
  | wireCmd f => exact decodeOutbound_bytes h
  | inStatus status crcLo crcHi trailing =>
    exact decodeInbound_statusFrameBytes (of_decide_eq_true h) status crcLo crcHi
  | inData total payload crcLo crcHi => exact decodeInbound_dataFrameBytes h

/-- The instruction that a host word decodes to is the well-formed one that the word encodes. -/
theorem wellFormed_and_encode_decodeHost (w : HostWord) :
    (decodeHost w).wellFormed = true ∧ encode (decodeHost w) = .host w := by
  obtain ⟨i, hwf, henc⟩ := exists_encode_eq_host w
  have hdec : decodeHost w = i := Option.some.inj (by rw [← decodeInvertsEncode i hwf, henc, decode])
  exact hdec ▸ ⟨hwf, henc⟩

/-- Settles O9, by the kind of the encoding. -/
theorem encodeInvertsDecode : Obligations.EncodeInvertsDecode := by
  intro e i h
  cases e with
  | host w =>
    obtain rfl := Option.some.inj h
    exact wellFormed_and_encode_decodeHost w
  | outbound bytes => exact ⟨wellFormed_of_decodeOutbound h, encode_of_decodeOutbound h⟩
  | inbound bytes => exact ⟨wellFormed_of_decodeInbound h, encode_of_decodeInbound h⟩

/-- Settles O7: eleven fixed words, each evaluated by its decoder. -/
theorem knownWordsDecode : Obligations.KnownWordsDecode := by
  unfold Obligations.KnownWordsDecode
  decide

end Sys2Proof
end

