-- ==== Sys2Proof/Proofs/HostTable.lean ====
section
/-! PROOFS. The opcode table's `HOST` rows read field by field, and the first row that a word matches (R80). -/

namespace Sys2Proof

open Machine

/-! ### Words under a mask -/

theorem hostWord_and (b b' : BitVec 1) (a a' : HostAddr) (v v' : Byte) :
    hostWord b a v &&& hostWord b' a' v' = hostWord (b &&& b') (a &&& a') (v &&& v') := by
  calc hostWord b a v &&& hostWord b' a' v'
      = ((b ++ a) &&& (b' ++ a')) ++ (v &&& v') := BitVec.and_append
    _ = hostWord (b &&& b') (a &&& a') (v &&& v') := by rw [BitVec.and_append, hostWord]

theorem hostWord_inj {b b' : BitVec 1} {a a' : HostAddr} {v v' : Byte} :
    hostWord b a v = hostWord b' a' v' ↔ b = b' ∧ a = a' ∧ v = v' := by
  refine ⟨fun h => ⟨?_, ?_, ?_⟩, by rintro ⟨rfl, rfl, rfl⟩; rfl⟩
  · simpa only [extract_write_hostWord] using congrArg (·.extractLsb' 18 1) h
  · simpa only [hostAddrOf_hostWord] using congrArg hostAddrOf h
  · simpa only [hostDataOf_hostWord] using congrArg hostDataOf h

/-- A word matches a row when each of its fields does. -/
theorem matches_hostWord (b mb pb : BitVec 1) (a ma pa : HostAddr) (v mv pv : Byte) :
    HostRow.matches ⟨hostWord mb ma mv, hostWord pb pa pv⟩ (hostWord b a v) = true ↔
      b &&& mb = pb ∧ a &&& ma = pa ∧ v &&& mv = pv := by
  simp only [HostRow.matches, beq_iff_eq, hostWord_and, hostWord_inj]

/-! ### The rows by their fields (`hostTable_eq`) -/

/-- A `CMD` write of one code (R81). -/
def commandRow (c : Command) : HostRow :=
  ⟨hostWord 1#1 (BitVec.allOnes 10) (BitVec.allOnes 8), hostWord 1#1 0x000#10 c.code⟩

/-- A `CMD` write of any code (R82). -/
def reservedRow : HostRow := ⟨hostWord 1#1 (BitVec.allOnes 10) 0#8, hostWord 1#1 0x000#10 0#8⟩

/-- A `CLEAR` write with the given bit 0 (R83). -/
def clearRow (bit : BitVec 1) : HostRow :=
  ⟨hostWord 1#1 (BitVec.allOnes 10) (0#7 ++ 1#1), hostWord 1#1 0x002#10 (0#7 ++ bit)⟩

/-- Any word with the given `W` bit (R80). -/
def accessRow (write : BitVec 1) : HostRow := ⟨hostWord 1#1 0#10 0#8, hostWord write 0#10 0#8⟩

theorem hostTable_eq :
    hostTable =
      Command.all.map commandRow ++ [reservedRow, clearRow 1#1, clearRow 0#1, accessRow 1#1, accessRow 0#1] := by
  decide

section Rows

variable {b : BitVec 1} {a : HostAddr} {v : Byte}

@[simp] theorem and_one_bit (b : BitVec 1) : b &&& 1#1 = b := BitVec.and_allOnes

@[simp] theorem matches_commandRow {c : Command} :
    (commandRow c).matches (hostWord b a v) = true ↔ b = 1#1 ∧ a = 0x000#10 ∧ v = c.code := by
  simp only [commandRow, matches_hostWord, and_one_bit, BitVec.and_allOnes]

@[simp] theorem matches_reservedRow :
    reservedRow.matches (hostWord b a v) = true ↔ b = 1#1 ∧ a = 0x000#10 := by
  simp only [reservedRow, matches_hostWord, and_one_bit, BitVec.and_allOnes, BitVec.and_zero, and_true]

@[simp] theorem matches_clearRow {bit : BitVec 1} :
    (clearRow bit).matches (hostWord b a v) = true ↔ b = 1#1 ∧ a = 0x002#10 ∧ v.extractLsb' 0 1 = bit := by
  have hbit : v &&& (0#7 ++ 1#1) = 0#7 ++ v.extractLsb' 0 1 := by
    conv_lhs => rw [← clearByte_fields v]
    rw [BitVec.and_append, BitVec.and_zero, and_one_bit]
  rw [clearRow, matches_hostWord, hbit, BitVec.append_right_inj, and_one_bit, BitVec.and_allOnes]

@[simp] theorem matches_accessRow {write : BitVec 1} :
    (accessRow write).matches (hostWord b a v) = true ↔ b = write := by
  simp [accessRow, matches_hostWord]

end Rows

/-! ### The first match -/

/-- A word that no command row matches is decided by the five rows below them. -/
theorem findIdx?_hostTable_of_no_command {w : HostWord} (h : ∀ c, (commandRow c).matches w = false) :
    (hostTable.findIdx? fun r => r.matches w) =
      if reservedRow.matches w then some 10 else if (clearRow 1#1).matches w then some 11
      else if (clearRow 0#1).matches w then some 12 else if (accessRow 1#1).matches w then some 13
      else if (accessRow 0#1).matches w then some 14 else none := by
  have hnone : (Command.all.map commandRow).findIdx? (fun r => r.matches w) = none := by
    simp only [List.findIdx?_eq_none_iff, List.forall_mem_map]
    exact fun c _ => h c
  rw [hostTable_eq, List.findIdx?_append, hnone]
  simp only [List.findIdx?_cons, List.findIdx?_nil]
  split_ifs <;> rfl

theorem findIdx?_command (c : Command) :
    (hostTable.findIdx? fun r => r.matches (hostWord 1#1 0x000#10 c.code)) = c.instr.hostRow := by
  cases c <;> decide

/-- No command row matches a word that is not a `CMD` write of a code of R81. -/
theorem matches_commandRow_eq_false {b : BitVec 1} {a : HostAddr} {v : Byte}
    (h : b = 1#1 → a = 0x000#10 → isReservedCode v = true) (c : Command) :
    (commandRow c).matches (hostWord b a v) = false := by
  rw [Bool.eq_false_iff, ne_eq, matches_commandRow]
  rintro ⟨hb, ha, rfl⟩
  cases (commandOfCode_code c).symm.trans (commandOfCode_eq_none_iff.2 (h hb ha))

/-- The first row that the word of a well-formed instruction matches is the instruction's own. -/
theorem findIdx?_of_encode {i : Instr} {w : HostWord} (h : i.wellFormed = true) (henc : encode i = .host w) :
    (hostTable.findIdx? fun r => r.matches w) = i.hostRow := by
  cases i with
  | cmdCrcGen => cases henc; exact findIdx?_command .crcGen
  | cmdCrcCheck => cases henc; exact findIdx?_command .crcCheck
  | cmdFrame => cases henc; exact findIdx?_command .frame
  | cmdSetup => cases henc; exact findIdx?_command .setup
  | cmdTeardown => cases henc; exact findIdx?_command .teardown
  | cmdWake => cases henc; exact findIdx?_command .wake
  | cmdSleep => cases henc; exact findIdx?_command .sleep
  | cmdIdle => cases henc; exact findIdx?_command .idle
  | cmdSendRecv => cases henc; exact findIdx?_command .sendRecv
  | cmdSendGetRsp => cases henc; exact findIdx?_command .sendGetRsp
  | cmdReserved code =>
    cases henc
    rw [findIdx?_hostTable_of_no_command (matches_commandRow_eq_false fun _ _ => h)]
    simp [Instr.hostRow]
  | clear ignored =>
    cases henc
    rw [findIdx?_hostTable_of_no_command (matches_commandRow_eq_false (by simp))]
    simp [Instr.hostRow]
  | clearNop ignored =>
    cases henc
    rw [findIdx?_hostTable_of_no_command (matches_commandRow_eq_false (by simp))]
    simp [Instr.hostRow]
  | regWrite addr data =>
    cases henc
    simp only [Instr.wellFormed, Bool.and_eq_true, bne_iff_ne] at h
    obtain ⟨hcmd, hclear⟩ := h
    rw [findIdx?_hostTable_of_no_command (matches_commandRow_eq_false fun _ ha => absurd ha hcmd)]
    simp [Instr.hostRow, hcmd, hclear]
  | regRead addr ignored =>
    cases henc
    rw [findIdx?_hostTable_of_no_command (matches_commandRow_eq_false (by simp))]
    simp [Instr.hostRow]
  | wireWake | wireSleep | wireIdle | wireCmd | inStatus | inData => cases henc

/-- Settles O10: every word encodes the well-formed instruction that it decodes to, whose row is the first match. -/
theorem hostDecodeTakesFirstTableRow : Obligations.HostDecodeTakesFirstTableRow := by
  intro w
  obtain ⟨hwf, henc⟩ := wellFormed_and_encode_decodeHost w
  exact findIdx?_of_encode hwf henc

end Sys2Proof
end

