-- ==== Sys2Proof/Proofs/CallFrame.lean ====
section
/-! PROOFS. The port calls a step issues (R22, R52): the computation after an answer issues none, and a port step issues
exactly the one call of its label. -/

namespace Sys2Proof.Machine

/-! ### The computation after an answer leaves what is outside the block -/

@[simp] theorem startWake_env (op : Command) (s : State) : (startWake op s).env = s.env := rfl

@[simp] theorem wakeRetry_env (op : Command) (s : State) : (wakeRetry op s).env = s.env := by
  unfold wakeRetry; split <;> rfl

@[simp] theorem afterWakeRead_env (P : Params) (op : Command) (r : ReadAnswer) (s : State) :
    (afterWakeRead P op r s).env = s.env := by
  unfold afterWakeRead; split <;> simp

@[simp] theorem afterOpen_env (ok : Bool) (s : State) : (afterOpen ok s).env = s.env := by
  cases ok <;> rfl

@[simp] theorem afterClose_env (s : State) : (afterClose s).env = s.env := rfl

@[simp] theorem afterControlWrite_env (w : Int) (s : State) : (afterControlWrite w s).env = s.env := by
  unfold afterControlWrite; split <;> rfl

@[simp] theorem afterWriteA_env (op : Command) (w : Int) (s : State) : (afterWriteA op w s).env = s.env := by
  unfold afterWriteA; split <;> rfl

/-- The end of an outer iteration resends by a `goto`, which issues nothing yet. -/
theorem endOuter_env {done : State → State} (hdone : ∀ s, (done s).env = s.env) (awake : Bool) (s : State) :
    (endOuter op awake done s).env = s.env := by
  unfold endOuter
  split
  · rfl
  · exact hdone _

@[simp] theorem afterStatusA_env (op : Command) (c : StatusCode) (s : State) : (afterStatusA op c s).env = s.env := by
  rw [afterStatusA, endOuter_env fun _ => finish_env ..]

@[simp] theorem afterNakA_env (op : Command) (s : State) : (afterNakA op s).env = s.env := by
  unfold afterNakA
  split
  · rfl
  · exact afterStatusA_env op .nak _

@[simp] theorem afterClassA_env (op : Command) (v : Classified) (s : State) : (afterClassA op v s).env = s.env := by
  cases v with
  | nak => exact afterNakA_env op s
  | unmapped => rfl
  | dat p => rw [afterClassA, endOuter_env fun _ => finish_env ..]
  | st c =>
    simp only [afterClassA]
    split
    · exact afterNakA_env op s
    · exact afterStatusA_env op c s

@[simp] theorem copyPayload_env (v : Classified) (s : State) : (copyPayload v s).env = s.env := by
  cases v <;> rfl

@[simp] theorem afterReadA_env (P : Params) (op : Command) (r : ReadAnswer) (s : State) :
    (afterReadA P op r s).env = s.env := by simp [afterReadA]

@[simp] theorem nullResult_env (why : FailReason) (s : State) : (nullResult why s).env = s.env := rfl

@[simp] theorem afterWriteB_env (op : Command) (w : Int) (s : State) : (afterWriteB op w s).env = s.env := by
  unfold afterWriteB; split <;> rfl

@[simp] theorem validateB_env (P : Params) (s : State) : (validateB P s).env = s.env := by
  unfold validateB; split <;> rfl

@[simp] theorem classifyFirstB_env (P : Params) (op : Command) (c : List Byte) (s : State) :
    (classifyFirstB P op c s).env = s.env := by
  unfold classifyFirstB
  split
  · exact validateB_env P _
  · split <;> rfl

@[simp] theorem afterRead1B_env (P : Params) (op : Command) (r : ReadAnswer) (s : State) :
    (afterRead1B P op r s).env = s.env := by
  cases r with
  | err => simp only [afterRead1B]; split <;> rfl
  | data c => simp only [afterRead1B]; split <;> simp

@[simp] theorem afterRead2B_env (P : Params) (r : ReadAnswer) (s : State) : (afterRead2B P r s).env = s.env := by
  cases r with
  | err => rfl
  | data t => simp only [afterRead2B]; split <;> simp

@[simp] theorem afterWrite_env (w : Int) (s : State) : (afterWrite w s).env = s.env := by
  unfold afterWrite
  cases s.fsm with
  | idle => rfl
  | run op label => cases label <;> simp

@[simp] theorem afterRead_env (P : Params) (r : ReadAnswer) (s : State) : (afterRead P r s).env = s.env := by
  unfold afterRead
  cases s.fsm with
  | idle => rfl
  | run op label => cases label <;> simp

/-! ### The call of a port step -/

@[simp] theorem sendBytes_calls (bytes : List Byte) (s : State) :
    (sendBytes bytes s).env.calls = .busWrite bytes :: s.env.calls := by simp [sendBytes]

@[simp] theorem receive_calls (P : Params) (n : Nat) (r : ReadAnswer) (s : State) :
    (receive P n r s).env.calls = .busRead n :: s.env.calls := by simp [receive]

/-- A call that carries no bytes: open, close, delay (R124). -/
def PortCall.Silent : PortCall → Prop
  | .busOpen _ => True
  | .busClose => True
  | .delay _ => True
  | .busWrite _ => False
  | .busRead _ => False

/-- A label that neither writes nor reads issues one silent call; elsewhere nothing is issued. -/
theorem silentStep_calls (s : State) :
    (silentStep s).env.calls = s.env.calls ∨ ∃ c, c.Silent ∧ (silentStep s).env.calls = c :: s.env.calls := by
  unfold silentStep
  cases s.fsm with
  | idle => exact .inl rfl
  | run op label =>
    cases label with
    | sOpen => exact .inr ⟨.busOpen s.regs.busAddr, trivial, by simp⟩
    | tClose => exact .inr ⟨.busClose, trivial, by simp⟩
    | aDelay | bDelay => exact .inr ⟨.delay s.regs.execTime, trivial, by simp⟩
    | wWrite | wRead | tSleep | cWrite | aWrite | aRead | bWrite | bRead1 | bRead2 => exact .inl rfl

/-- What a step of the block FSM issues: the write or the read that is pending, a silent call, or nothing. -/
theorem blockStep_calls (P : Params) (s : State) :
    (∃ bytes, outbound s = some bytes ∧ (blockStep P s).env.calls = .busWrite bytes :: s.env.calls) ∨
      (∃ n, readWant s = some n ∧ (blockStep P s).env.calls = .busRead n :: s.env.calls) ∨
      (blockStep P s).env.calls = s.env.calls ∨ ∃ c, c.Silent ∧ (blockStep P s).env.calls = c :: s.env.calls := by
  cases hout : outbound s with
  | some bytes => exact .inl ⟨bytes, rfl, by rw [blockStep_of_outbound hout, sendBytes_calls]⟩
  | none =>
    cases hwant : readWant s with
    | some n => exact .inr (.inl ⟨n, rfl, by rw [blockStep_of_readWant hwant, receive_calls, dropRead_calls]⟩)
    | none =>
      have hsilent : blockStep P s = silentStep s := by simp only [blockStep, hout, hwant]
      exact .inr (.inr (hsilent ▸ silentStep_calls s))

/-! ### The host issues no port call -/

theorem acceptCommand_env (P : Params) (op : Command) (s : State) : (acceptCommand P op s).env = s.env := by
  cases op <;> rfl

theorem issueCommand_env (P : Params) (v : Byte) (s : State) : (issueCommand P v s).env = s.env := by
  unfold issueCommand
  cases commandOfCode v with
  | none => rfl
  | some op =>
    cases hcheck : rejectReason P op s with
    | some why => simp only [issue_rejected hcheck]; rfl
    | none => simp only [issue_accepted hcheck, acceptCommand_env, startCommon_env]

theorem writeByte_env (a : HostAddr) (v : Byte) (s : State) : (writeByte a v s).env = s.env := by
  unfold writeByte
  split
  · split <;> rfl
  · split <;> rfl

/-- `MemWrite` leaves what is outside the block (R100). -/
@[simp] theorem memWrite_env (P : Params) (a : HostAddr) (v : Byte) (s : State) : (memWrite P a v s).env = s.env := by
  by_cases hidle : s.fsm = .idle
  · rw [memWrite, whenIdle_idle hidle]
    split_ifs
    · exact issueCommand_env P v s
    · exact clearResult_env s
    · rfl
    · exact writeByte_env a v s
  · rw [memWrite, whenIdle_busy hidle]

end Sys2Proof.Machine
end

