-- ==== Sys2Proof/Proofs/EncodingFamily.lean ====
section
/-! PROOFS. The effects of the rows of 30_encoding.md: the host rows without an operation, the wire rows as port calls,
and what the block puts on the bus (R82, R83, R95, R133). -/

namespace Sys2Proof.Machine

variable {s t : State}

/-! ### Host rows that start no operation -/

/-- Settles O17, by the BUSY rule at an IDLE block. -/
theorem clearNopHasNoEffect : Obligations.ClearNopHasNoEffect :=
  fun _ _ hidle => congrArg Host.Outcome.next (whenIdle_idle hidle)

/-- Settles O18: the start of a command, then a rejection. -/
theorem reservedCodeIsRejected : Obligations.ReservedCodeIsRejected := by
  intro code s hidle _
  have hexec : exec (.cmdReserved code) s = .next (issueReserved code s) :=
    congrArg Host.Outcome.next (whenIdle_idle hidle)
  refine ⟨_, hexec, resultsWiped_of_mem rfl, ?_⟩
  simp only [issueReserved, rejectCommand, finish, startCommon, ← hidle]

/-! ### The wire rows -/

/-- Settles O50, by the direction of the row and whether it is pending. -/
theorem wireRowsAreThePendingPortCall : Obligations.WireRowsAreThePendingPortCall := by
  intro i s bytes
  refine ⟨fun henc => ⟨fun hout => ?_, fun hout => ?_⟩, fun henc => ⟨fun n hwant => ?_, fun hwant => ?_⟩⟩
  · rw [exec_of_encode_outbound henc, emit_pending hout]
  · rw [exec_of_encode_outbound henc, emit_other hout]
  · rw [exec_of_encode_inbound henc, deliver_pending hwant]
  · rw [exec_of_encode_inbound henc, deliver_none hwant]

/-! ### What the block puts on the bus -/

/-- The sequences that the block may write (R84 to R86, R95): a wake pulse, a control byte, or the frame of the
descriptor, in range (R149). -/
def SpecifiedSequence (s : State) (bytes : List Byte) : Prop :=
  bytes = [0x00, 0x00] ∨ bytes = [0x01] ∨ bytes = [0x02] ∨
    (bytes = serialize Config.params s ∧ s.regs.dataLen.toNat ≤ Config.maxDataLen.val)

theorem specifiedSequence_txbuf (h : LabelInv.FrameInTx s) : SpecifiedSequence s s.txbuf.bytes := by
  obtain ⟨htx, hlen⟩ := h
  exact .inr (.inr (.inr ⟨by rw [htx, bytes_ofBytes], hlen⟩))

/-- A label that writes has an open session and a specified sequence to send (R133, R149). -/
theorem State.Inv.outbound_specified (h : s.Inv) {bytes : List Byte} (hout : outbound s = some bytes) :
    isOpen s = true ∧ SpecifiedSequence s bytes := by
  unfold outbound at hout
  cases hfsm : s.fsm with
  | idle => simp [hfsm] at hout
  | run op label =>
    obtain ⟨-, -, hlabel⟩ := h.running hfsm
    simp only [hfsm] at hout
    cases label with
    | wWrite => cases hout; exact ⟨hlabel.1, .inl rfl⟩
    | tSleep => cases hout; exact ⟨hlabel.1, .inr (.inl rfl)⟩
    | cWrite =>
      cases hout
      refine ⟨hlabel.1, ?_⟩
      split
      · exact .inr (.inr (.inl rfl))
      · exact .inr (.inl rfl)
    | aWrite | bWrite =>
      cases hout
      obtain ⟨hopen, -, hframe, -⟩ := hlabel
      exact ⟨hopen, specifiedSequence_txbuf hframe⟩
    | sOpen | wRead | tClose | aDelay | aRead | bRead1 | bDelay | bRead2 => cases hout

/-- A label that reads has an open session (R133). -/
theorem State.Inv.isOpen_of_readWant (h : s.Inv) {n : Nat} (hwant : readWant s = some n) : isOpen s = true := by
  unfold readWant at hwant
  cases hfsm : s.fsm with
  | idle => simp [hfsm] at hwant
  | run op label =>
    obtain ⟨-, -, hlabel⟩ := h.running hfsm
    simp only [hfsm] at hwant
    cases label with
    | wRead | aRead | bRead1 | bRead2 => exact hlabel.1
    | sOpen | wWrite | tSleep | tClose | cWrite | aWrite | aDelay | bWrite | bDelay => cases hwant

/-- The calls that a state may issue (R95, R133). -/
def CallAllowed (s : State) : PortCall → Prop
  | .busWrite bytes => isOpen s = true ∧ SpecifiedSequence s bytes
  | .busRead _ => isOpen s = true
  | .busOpen _ => True
  | .busClose => True
  | .delay _ => True

/-- Whose turn comes next is no part of what a call needs. -/
theorem callAllowed_setAgenda {turns : List Turn} {c : PortCall} :
    CallAllowed (setAgenda turns s) c ↔ CallAllowed s c := by
  cases c <;> exact Iff.rfl

theorem callAllowed_of_silent {c : PortCall} (h : c.Silent) : CallAllowed s c := by
  cases c with
  | busOpen | busClose | delay => trivial
  | busWrite | busRead => exact h.elim

/-- The step of the block FSM issues an allowed call, or none. -/
theorem blockStep_callAllowed (h : s.Inv) (P : Params) :
    (blockStep P s).env.calls = s.env.calls ∨
      ∃ c, CallAllowed s c ∧ (blockStep P s).env.calls = c :: s.env.calls := by
  obtain ⟨bytes, hout, hcalls⟩ | ⟨n, hwant, hcalls⟩ | hcalls | ⟨c, hsilent, hcalls⟩ := blockStep_calls P s
  · exact .inr ⟨.busWrite bytes, h.outbound_specified hout, hcalls⟩
  · exact .inr ⟨.busRead n, h.isOpen_of_readWant hwant, hcalls⟩
  · exact .inl hcalls
  · exact .inr ⟨c, callAllowed_of_silent hsilent, hcalls⟩

/-- Every step issues an allowed call or none, by whose turn it is: only the block's own turn issues any. -/
theorem step_callAllowed (h : s.Inv) (hstep : step s = .next t) :
    t.env.calls = s.env.calls ∨ ∃ c, CallAllowed s c ∧ t.env.calls = c :: s.env.calls := by
  cases turnStep_of_step hstep with
  | reset rest => exact .inl (abandonCall_calls (setAgenda rest s))
  | write w rest => exact .inl (by rw [memWrite_env]; rfl)
  | read | wait => exact .inl rfl
  | portCall rest =>
    obtain hnone | ⟨c, hallowed, hcalls⟩ := blockStep_callAllowed (h.setAgenda rest) Config.params
    · exact .inl hnone
    · exact .inr ⟨c, callAllowed_setAgenda.1 hallowed, hcalls⟩

/-- A call that a step issued was allowed. -/
theorem callAllowed_of_issued (h : s.Inv) (hstep : step s = .next t) {c : PortCall}
    (hissued : t.env.calls = c :: s.env.calls) : CallAllowed s c := by
  obtain hnone | ⟨c', hallowed, hcalls⟩ := step_callAllowed h hstep
  · exact absurd (hissued.symm.trans hnone) (List.cons_ne_self _ _)
  · obtain ⟨rfl, -⟩ := List.cons.inj (hissued.symm.trans hcalls)
    exact hallowed

/-- Settles O53, from the calls that a state of the invariant may issue. -/
theorem onlySpecifiedSequencesAreSent : Obligations.OnlySpecifiedSequencesAreSent :=
  fun _ _ bytes h hstep =>
    ⟨fun hissued => callAllowed_of_issued h hstep (c := .busWrite bytes) hissued,
      fun n hissued => callAllowed_of_issued h hstep (c := .busRead n) hissued⟩

end Sys2Proof.Machine
end

