-- ==== Sys2Proof/Proofs/RegisterSpace.lean ====
section
/-! PROOFS. The host register space (R61): which byte an address names, and what a host read gives after a byte was
written, at the address written and at every other one (R64, R99, R100). -/

namespace Sys2Proof.Machine

/-! ### Bytes of a register put in place (R64) -/

@[simp] theorem lo8_setLo8 (x : Half) (b : Byte) : lo8 (setLo8 x b) = b := lo8_le16 b (hi8 x)

@[simp] theorem hi8_setLo8 (x : Half) (b : Byte) : hi8 (setLo8 x b) = hi8 x := hi8_le16 b (hi8 x)

@[simp] theorem lo8_setHi8 (x : Half) (b : Byte) : lo8 (setHi8 x b) = lo8 x := lo8_le16 (lo8 x) b

@[simp] theorem hi8_setHi8 (x : Half) (b : Byte) : hi8 (setHi8 x b) = b := hi8_le16 (lo8 x) b

/-- A byte put in place is read back, and the other three bytes stay. -/
theorem byte32_setByte32 (x : BitVec 32) (b : Byte) {i j : Nat} (hi : i < 4) (hj : j < 4) :
    byte32 (setByte32 x i b) j = if j = i then b else byte32 x j := by
  have hbytes (b0 b1 b2 b3 : Byte) : byte32 (le32 b0 b1 b2 b3) j = [b0, b1, b2, b3][j] := by
    obtain ⟨h0, h1, h2, h3⟩ := byte32_le32 b0 b1 b2 b3
    interval_cases j <;> assumption
  interval_cases i <;> exact (hbytes _ _ _ _).trans (by interval_cases j <;> rfl)

/-- Seven bits read as a register byte: bit 7 reads 0 (R42). -/
theorem zeroExtend_low7 (v : Byte) : (v.extractLsb' 0 7).zeroExtend 8 = v &&& 0x7F#8 := by
  have hmask : v.toNat &&& 0x7F = v.toNat % 128 := Nat.and_two_pow_sub_one_eq_mod v.toNat 7
  have hbyte : v.toNat % 128 < 256 := by omega
  apply BitVec.eq_of_toNat_eq
  simp [hmask, hbyte]

/-! ### The address map -/

/-- The read/write register bytes of R61: the operands a host program sets. -/
def RegByte.isOperand (r : RegByte) : Bool :=
  r ∈ [.opcode, .param1, .param2Lo, .param2Hi, .dataLen, .rxExpectLen, .rxMaxLen, .busAddr, .execTime0, .execTime1,
    .execTime2, .execTime3, .wakeCap, .nakCap, .crcLen, .crcExpectLo, .crcExpectHi]

/-- Their addresses (R61). -/
def OperandAddr (n : Nat) : Prop := (0x008 ≤ n ∧ n ≤ 0x015) ∨ n = 0x018 ∨ n = 0x01C ∨ n = 0x01D

/-- Each register byte has its one address. -/
theorem regAt_eq_some_iff {n : Nat} {r : RegByte} : regAt n = some r ↔ n = registerMap.idxOf r := by
  have hmem : r ∈ registerMap := by cases r <;> decide
  have hat : regAt (registerMap.idxOf r) = some r := List.getElem?_idxOf hmem
  refine ⟨fun h => ?_, by rintro rfl; exact hat⟩
  exact ((List.getElem?_inj (List.idxOf_lt_length_iff.2 hmem) (by decide)).1 (hat.trans h.symm)).symm

theorem regAt_of_le {n : Nat} (h : 30 ≤ n) : regAt n = none := List.getElem?_eq_none h

theorem regAt_lt {n : Nat} {r : RegByte} (h : regAt n = some r) : n < 30 := by
  by_contra hn
  cases h.symm.trans (regAt_of_le (not_lt.1 hn))

/-- The operands are where R61 puts them. -/
theorem isOperand_regAt {n : Nat} {r : RegByte} (h : regAt n = some r) : r.isOperand = true ↔ OperandAddr n := by
  obtain rfl := regAt_eq_some_iff.1 h
  unfold OperandAddr
  cases r <;> decide

theorem eq_of_regAt_eq {a b : HostAddr} {r : RegByte} (ha : regAt a.toNat = some r) (hb : regAt b.toNat = some r) :
    a = b := BitVec.eq_of_toNat_eq ((regAt_eq_some_iff.1 ha).trans (regAt_eq_some_iff.1 hb).symm)

theorem exists_regAt_of_operandAddr {n : Nat} (h : OperandAddr n) : ∃ r, regAt n = some r ∧ r.isOperand = true := by
  have hn : n < registerMap.length := by
    have hlen : registerMap.length = 30 := rfl
    unfold OperandAddr at h
    omega
  have hr : regAt n = some registerMap[n] := List.getElem?_eq_getElem hn
  exact ⟨_, hr, (isOperand_regAt hr).2 h⟩

/-! ### A read, by the range of its address (R99) -/

theorem readByte_of_buffer {a : HostAddr} (h : 0x100 ≤ a.toNat) (s : State) : readByte a s = loadByte s.mem a.toNat :=
  if_pos h

/-- Below the buffers: a register byte, or 0 at a reserved address (R51). -/
theorem readByte_of_lt {a : HostAddr} (h : a.toNat < 0x100) (s : State) :
    readByte a s = (regAt a.toNat).elim 0x00 (readReg s) := by
  refine (if_neg (not_le.2 h)).trans ?_
  cases regAt a.toNat <;> rfl

theorem readByte_of_regAt {a : HostAddr} {r : RegByte} (h : regAt a.toNat = some r) (s : State) :
    readByte a s = readReg s r := by
  rw [readByte_of_lt ((regAt_lt h).trans (by decide)), h, Option.elim_some]

theorem readByte_of_reserved {a : HostAddr} (hlo : 0x01E ≤ a.toNat) (hhi : a.toNat ≤ 0x0FF) (s : State) :
    readByte a s = 0x00 := by
  rw [readByte_of_lt (Nat.lt_succ_of_le hhi), regAt_of_le hlo, Option.elim_none]

/-! ### A write, by the range of its address (R100, R108) -/

theorem writeByte_of_data {a : HostAddr} (hlo : 0x100 ≤ a.toNat) (hhi : a.toNat < 0x200) (v : Byte) (s : State) :
    writeByte a v s = { s with mem := storeByte s.mem a.toNat v } := (if_pos hlo).trans (if_pos hhi)

theorem writeByte_of_regAt {a : HostAddr} {r : RegByte} (h : regAt a.toNat = some r) (v : Byte) (s : State) :
    writeByte a v s = { s with regs := writeReg s.regs v r } := by
  have hlt : a.toNat < dataBase := (regAt_lt h).trans (by decide)
  simp only [writeByte, if_neg (not_le.2 hlt), h]

/-- A byte written reaches nothing but the operands and memory. -/
theorem writeByte_frame (a : HostAddr) (v : Byte) (s : State) :
    writeByte a v s = { s with regs := (writeByte a v s).regs, mem := (writeByte a v s).mem } := by
  unfold writeByte
  split
  · split <;> rfl
  · split <;> rfl

/-- Below the buffers no memory is written. -/
theorem writeByte_mem_of_lt {a : HostAddr} (h : a.toNat < 0x100) (v : Byte) (s : State) :
    (writeByte a v s).mem = s.mem := by
  unfold writeByte
  split
  case isTrue hlo => exact absurd hlo (not_le.2 h)
  case isFalse => split <;> rfl

/-- From the buffers up no operand is written. -/
theorem writeByte_regs_of_le {a : HostAddr} (h : 0x100 ≤ a.toNat) (v : Byte) (s : State) :
    (writeByte a v s).regs = s.regs := by
  unfold writeByte
  split
  case isTrue => split <;> rfl
  case isFalse hlo => exact absurd h hlo

/-- A register byte that is no operand keeps nothing of a write (R108). -/
theorem writeReg_of_not_isOperand {r : RegByte} (h : r.isOperand = false) (g : Regs) (v : Byte) :
    writeReg g v r = g := by
  cases r with
  | cmd | status | clear | resultKind | resultStatus | resultLen | failReason | retryLeft | frameLenLo | frameLenHi
  | crcValid | crcResultLo | crcResultHi => rfl
  | opcode | param1 | param2Lo | param2Hi | dataLen | rxExpectLen | rxMaxLen | busAddr | execTime0 | execTime1
  | execTime2 | execTime3 | wakeCap | nakCap | crcLen | crcExpectLo | crcExpectHi => cases h

/-- Nothing is stored outside `DATA` and the operands (R108). -/
theorem writeByte_of_readOnly {a : HostAddr} (hdata : a.toNat < 0x100 ∨ 0x200 ≤ a.toNat) (hreg : ¬ OperandAddr a.toNat)
    (v : Byte) (s : State) : writeByte a v s = s := by
  cases hr : regAt a.toNat with
  | some r =>
    have hop : r.isOperand = false := Bool.eq_false_iff.2 (hreg ∘ (isOperand_regAt hr).1)
    rw [writeByte_of_regAt hr, writeReg_of_not_isOperand hop]
  | none =>
    unfold writeByte
    rw [hr]
    split
    case isTrue hlo => exact if_neg (by simp only [dataBase, resultBase] at hlo ⊢; omega)
    case isFalse => rfl

/-! ### A read after a write -/

/-- What an operand byte keeps of a byte written to it: `BUS_ADDR` has no bit 7 (R42). -/
def keptByte (r : RegByte) (v : Byte) : Byte := if r = .busAddr then v &&& 0x7F else v

/-- What a register byte reads after a byte was written to an operand: at that operand the byte, elsewhere what it read
before, be it in another register or another byte of the same one (R64). -/
theorem readReg_writeReg {r : RegByte} (h : r.isOperand = true) (r' : RegByte) (v : Byte) (s : State) :
    readReg { s with regs := writeReg s.regs v r } r' = if r' = r then keptByte r v else readReg s r' := by
  cases r with
  | opcode | param1 | dataLen | rxExpectLen | rxMaxLen | wakeCap | nakCap | crcLen => cases r' <;> rfl
  | busAddr => cases r' with
    | busAddr => exact zeroExtend_low7 v
    | _ => rfl
  | param2Lo => cases r' with
    | param2Lo => exact lo8_setLo8 s.regs.param2 v
    | param2Hi => exact hi8_setLo8 s.regs.param2 v
    | _ => rfl
  | param2Hi => cases r' with
    | param2Lo => exact lo8_setHi8 s.regs.param2 v
    | param2Hi => exact hi8_setHi8 s.regs.param2 v
    | _ => rfl
  | crcExpectLo => cases r' with
    | crcExpectLo => exact lo8_setLo8 s.regs.crcExpect v
    | crcExpectHi => exact hi8_setLo8 s.regs.crcExpect v
    | _ => rfl
  | crcExpectHi => cases r' with
    | crcExpectLo => exact lo8_setHi8 s.regs.crcExpect v
    | crcExpectHi => exact hi8_setHi8 s.regs.crcExpect v
    | _ => rfl
  | execTime0 | execTime1 | execTime2 | execTime3 => cases r' with
    | execTime0 | execTime1 | execTime2 | execTime3 =>
      exact byte32_setByte32 s.regs.execTime v (by decide) (by decide)
    | _ => rfl
  | cmd | status | clear | resultKind | resultStatus | resultLen | failReason | retryLeft | frameLenLo | frameLenHi
  | crcValid | crcResultLo | crcResultHi => cases h

theorem keptByte_of_regAt {a : HostAddr} {r : RegByte} (h : regAt a.toNat = some r) (v : Byte) :
    keptByte r v = if a = 0x00F#10 then v &&& 0x7F else v := by
  have hbus : regAt (0x00F#10).toNat = some .busAddr := rfl
  have hiff : r = .busAddr ↔ a = 0x00F#10 :=
    ⟨by rintro rfl; exact eq_of_regAt_eq h hbus, by rintro rfl; exact Option.some.inj (h.symm.trans hbus)⟩
  simp only [keptByte, hiff]

/-- `MemRead` after `MemWrite` to an operand (R99, R100). -/
theorem readByte_writeByte_operand {a : HostAddr} (h : OperandAddr a.toNat) (b : HostAddr) (v : Byte) (s : State) :
    readByte b (writeByte a v s) =
      if b = a then (if a = 0x00F#10 then v &&& 0x7F else v) else readByte b s := by
  obtain ⟨r, hr, hop⟩ := exists_regAt_of_operandAddr h
  rw [writeByte_of_regAt hr]
  split
  case isTrue hba =>
    subst hba
    rw [readByte_of_regAt hr, readReg_writeReg hop, if_pos rfl, keptByte_of_regAt hr]
  case isFalse hba =>
    cases hr' : regAt b.toNat with
    | none => simp only [readByte, hr']
    | some r' =>
      have hne : r' ≠ r := by rintro rfl; exact hba (eq_of_regAt_eq hr' hr)
      rw [readByte_of_regAt hr', readByte_of_regAt hr', readReg_writeReg hop, if_neg hne]

/-- No register byte is read from memory. -/
theorem readReg_setMem (m : Memory) (s : State) : readReg { s with mem := m } = readReg s := by
  funext r
  cases r <;> rfl

/-- `MemRead` after `MemWrite` to a byte of `DATA` (R99, R100). -/
theorem readByte_writeByte_data {a : HostAddr} {s : State} (hlo : 0x100 ≤ a.toNat) (hhi : a.toNat < 0x200)
    (hmem : Memory.wf s.mem) (b : HostAddr) (v : Byte) :
    readByte b (writeByte a v s) = if b = a then v else readByte b s := by
  rw [writeByte_of_data hlo hhi]
  by_cases hbuf : 0x100 ≤ b.toNat
  · simp only [readByte_of_buffer hbuf, loadByte_storeByte hmem, BitVec.toNat_inj]
  · have hne : b ≠ a := by rintro rfl; exact hbuf hlo
    rw [if_neg hne, readByte_of_lt (not_le.1 hbuf), readByte_of_lt (not_le.1 hbuf), readReg_setMem]

/-- `MemRead` after `MemWrite` to a read/write location (R61, R99, R100). -/
theorem readByte_writeByte {a : HostAddr} {s : State} (hmem : Memory.wf s.mem)
    (ha : OperandAddr a.toNat ∨ (0x100 ≤ a.toNat ∧ a.toNat < 0x200)) (b : HostAddr) (v : Byte) :
    readByte b (writeByte a v s) =
      if b = a then (if a = 0x00F#10 then v &&& 0x7F else v) else readByte b s := by
  obtain hop | ⟨hlo, hhi⟩ := ha
  · exact readByte_writeByte_operand hop b v s
  · have hbus : a ≠ 0x00F#10 := by rintro rfl; revert hlo; decide
    rw [readByte_writeByte_data hlo hhi hmem, if_neg hbus]

end Sys2Proof.Machine
end

