-- ==== Sys2Proof/Proofs/HostInterfaceFamily.lean ====
section
/-! PROOFS. The host's transactions (40_host_interface.md): reads, writes while IDLE and while BUSY, `CLEAR`, and the
commands that are refused (R99 to R106). -/

namespace Sys2Proof.Machine

variable {P : Params} {op : Command} {s : State}

/-! ### Write words -/

/-- Settles O11, from the meaning of a word that writes. -/
theorem hostWriteWordIsMemWrite : Obligations.HostWriteWordIsMemWrite := by
  intro a v s
  have hwrite : hostIsWrite (hostWord 1#1 a v) = true := hostIsWrite_hostWord 1#1 a v
  rw [exec_decodeHost_write hwrite, hostAddrOf_hostWord, hostDataOf_hostWord]

/-- Settles O15: every write word is a `MemWrite`, and the BUSY rule comes first in it (R100, R180). -/
theorem busyWritesOnlySetReject : Obligations.BusyWritesOnlySetReject := by
  intro a v s hbusy
  rw [hostWriteWordIsMemWrite a v s, memWrite, whenIdle_busy hbusy]

/-! ### `CLEAR` -/

/-- Settles O16, by the BUSY rule at an IDLE block. -/
theorem clearReleasesResults : Obligations.ClearReleasesResults :=
  fun _ s hidle => ⟨clearResult s, congrArg Host.Outcome.next (whenIdle_idle hidle), clearResult_wipes s, rfl⟩

/-! ### Bytes written while IDLE -/

theorem exec_regWrite_idle (hidle : s.fsm = .idle) {a : HostAddr} (hcmd : a ≠ 0x000#10) (hclear : a ≠ 0x002#10)
    (v : Byte) : exec (.regWrite a v) s = .next (writeByte a v s) :=
  congrArg Host.Outcome.next (memWrite_idle_of_ne hidle hcmd hclear v)

/-- Settles O14: the addresses listed in R108 are outside `DATA` and the operands. -/
theorem readOnlyWritesAreIgnored : Obligations.ReadOnlyWritesAreIgnored := by
  intro a v s hidle ha
  have hcmd : a ≠ 0x000#10 := by rintro rfl; revert ha; decide
  have hclear : a ≠ 0x002#10 := by rintro rfl; revert ha; decide
  rw [exec_regWrite_idle hidle hcmd hclear]
  simp only [BitVec.toNat_eq, BitVec.toNat_ofNat] at ha
  rw [writeByte_of_readOnly (by omega) (by unfold OperandAddr; omega)]

/-- Settles O13: the byte goes to an operand or to `DATA`. -/
theorem regWriteStoresByteReadBack : Obligations.RegWriteStoresByteReadBack := by
  intro a v s hidle hmem ha
  have hcmd : a ≠ 0x000#10 := by rintro rfl; revert ha; decide
  have hclear : a ≠ 0x002#10 := by rintro rfl; revert ha; decide
  have hwritable : OperandAddr a.toNat ∨ (0x100 ≤ a.toNat ∧ a.toNat < 0x200) := by
    simp only [BitVec.toNat_eq, BitVec.toNat_ofNat] at ha
    unfold OperandAddr
    omega
  have hread := readByte_writeByte hmem hwritable (v := v)
  refine ⟨writeByte a v s, exec_regWrite_idle hidle hcmd hclear v, writeByte_frame a v s,
    fun h => writeByte_mem_of_lt h v s, fun h => writeByte_regs_of_le h v s, ?_, fun b hb => ?_⟩
  · rw [hread, if_pos rfl]
  · rw [hread, if_neg hb]

/-! ### Bytes read -/

theorem isBusy_eq_decide (s : State) : isBusy s = decide (s.fsm ≠ .idle) := by
  simp only [isBusy, bne, ne_eq, decide_not, beq_eq_decide]

theorem isOpen_eq_decide (s : State) : isOpen s = decide (s.session ≠ .closed) := by
  rw [Bool.eq_iff_iff, isOpen_iff, decide_eq_true_iff]

/-- The bits of `STATUS`, from BUSY upward (R28). -/
theorem statusByte_bits (s : State) :
    (statusByte s).getLsbD 0 = isBusy s ∧ (statusByte s).getLsbD 1 = s.done ∧ (statusByte s).getLsbD 2 = s.fatal ∧
      (statusByte s).getLsbD 3 = s.reject ∧ (statusByte s).getLsbD 4 = isOpen s ∧
      (statusByte s).extractLsb' 5 3 = 0 := by
  unfold statusByte
  generalize isBusy s = busy, s.done = done, s.fatal = fatal, s.reject = reject, isOpen s = opened
  revert busy done fatal reject opened
  decide

/-- A field in the low bits of a register byte, and 0 in the reserved bits above it. -/
theorem zeroExtend_fields {n : Nat} (h : n ≤ 8) (x : BitVec n) :
    (x.zeroExtend 8).extractLsb' 0 n = x ∧ (x.zeroExtend 8).extractLsb' n (8 - n) = 0 := by
  constructor
  · rw [BitVec.zeroExtend, BitVec.extractLsb'_setWidth_of_le (by omega), BitVec.extractLsb'_eq_self]
  · ext i hi
    simp

/-- `CRC_VALID` is bit 0, and bits 7:1 read 0 (R46). -/
theorem flagByte_bits : ∀ b : Bool, (flagByte b).getLsbD 0 = b ∧ (flagByte b).extractLsb' 1 7 = 0 := by decide

/-- Settles O12, address by address as the map of R61 names them; a read changes only what the host was given. -/
theorem regReadReturnsAddressedByte : Obligations.RegReadReturnsAddressedByte := by
  intro a d s
  refine ⟨readByte a s, rfl, fun h => readByte_of_buffer h s, fun hlo hhi => readByte_of_reserved hlo hhi s, ?cmd,
    ?status, ?clear, ?resultKind, ?resultStatus, ?resultLen, ?failReason, ?retryLeft, ?opcode, ?param1, ?param2Lo,
    ?param2Hi, ?dataLen, ?rxExpectLen, ?rxMaxLen, ?busAddr, ?execTime0, ?execTime1, ?execTime2, ?execTime3, ?wakeCap,
    ?nakCap, ?frameLenLo, ?frameLenHi, ?crcLen, ?crcValid, ?crcResultLo, ?crcResultHi, ?crcExpectLo, ?crcExpectHi⟩ <;>
    rintro rfl
  case status =>
    rw [← isBusy_eq_decide, ← isOpen_eq_decide]
    exact statusByte_bits s
  case resultStatus => exact zeroExtend_fields (by decide) s.result.status
  case busAddr =>
    have hbit7 : (s.regs.busAddr.zeroExtend 8).getLsbD 7 = false := by simp
    exact ⟨(zeroExtend_fields (by decide) s.regs.busAddr).1, hbit7⟩
  case crcValid => exact flagByte_bits s.crcValid
  all_goals rfl

/-! ### Refused commands -/

/-- While IDLE a command's row is `issue_command` of its operation (R101). -/
theorem exec_commandInstr_idle (op : Command) (hidle : s.fsm = .idle) :
    exec op.instr s = .next (issue Config.params op (acceptCommand Config.params op) s) := by
  rw [← whenIdle_idle (f := issue _ _ _) hidle]
  cases op <;> rfl

theorem needsSession_iff : needsSession op = true ↔ op ∈ [.teardown, .wake, .sleep, .idle, .sendRecv, .sendGetRsp] := by
  cases op <;> decide

theorem refusedWhileFatal_iff :
    refusedWhileFatal op = true ↔ op ∈ [.wake, .sleep, .idle, .sendRecv, .sendGetRsp] := by
  cases op <;> decide

theorem usesDescriptor_iff : usesDescriptor op = true ↔ op ∈ [.frame, .sendRecv, .sendGetRsp] := by
  cases op <;> decide

theorem needsSession_of_refusedWhileFatal (h : refusedWhileFatal op = true) : needsSession op = true :=
  needsSession_iff.2 (List.mem_cons_of_mem _ (refusedWhileFatal_iff.1 h))

/-- A session is asked for first (R101, R180). -/
theorem rejectReason_noSession (hop : needsSession op = true) (hclosed : s.session = .closed) :
    rejectReason P op s = some .noSession := if_pos ⟨hop, isOpen_eq_false_iff.2 hclosed⟩

/-- Once the session check is passed, `SETUP` asks for a closed one. -/
theorem rejectReason_sessionOpen (hopen : s.session ≠ .closed) : rejectReason P .setup s = some .sessionOpen := by
  simp [rejectReason, needsSession, isOpen_iff.2 hopen]

theorem rejectReason_fatalLock (hop : refusedWhileFatal op = true) (hopen : s.session ≠ .closed)
    (hfatal : s.fatal = true) : rejectReason P op s = some .fatalLock := by
  have hsetup : op ≠ .setup := by rintro rfl; cases hop
  simp [rejectReason, isOpen_iff.2 hopen, hsetup, hfatal, hop]

/-- The operand ranges are the last checks, and give one reason. -/
theorem rejectReason_range (hsession : needsSession op = true → s.session ≠ .closed ∧ s.fatal = false)
    (hrange : (usesDescriptor op = true ∧ P.maxDataLen.val < s.regs.dataLen.toNat) ∨
      (op = .sendRecv ∧ 252 < s.regs.rxExpectLen.toNat)) :
    rejectReason P op s = some .range := by
  have hopen : ¬ (needsSession op = true ∧ isOpen s = false) := by
    rintro ⟨hop, hclosed⟩
    exact (hsession hop).1 (isOpen_eq_false_iff.1 hclosed)
  have hsetup : ¬ (op = .setup ∧ isOpen s = true) := by
    rintro ⟨rfl, -⟩
    simp [usesDescriptor] at hrange
  have hfatal : ¬ (s.fatal = true ∧ refusedWhileFatal op = true) := by
    rintro ⟨hfatal, hop⟩
    simp [(hsession (needsSession_of_refusedWhileFatal hop)).2] at hfatal
  rw [rejectReason, if_neg hopen, if_neg hsetup, if_neg hfatal]
  obtain hlen | hexpect := hrange
  · rw [if_pos hlen]
  · rw [if_pos hexpect, ite_self]

/-- What a refused command leaves (R102, R104). -/
theorem exec_refused {why : FailReason} (hidle : s.fsm = .idle) (hcheck : rejectReason Config.params op s = some why) :
    ∃ t, exec op.instr s = .next t ∧ ResultsWiped s t ∧
      t = { s with lastOp := op.code, done := true, reject := true, frameLen := 0#16,
                   result := { kind := .rejected, status := 0#3, len := 0#8, reason := why }, mem := t.mem } := by
  have hexec : exec op.instr s = .next (rejectCommand why (startCommon op.code s)) := by
    rw [exec_commandInstr_idle op hidle, issue_rejected hcheck]
  refine ⟨_, hexec, resultsWiped_of_mem rfl, ?_⟩
  simp only [rejectCommand, finish, startCommon, ← hidle]

/-- Settles O19, by the first check that fails. -/
theorem failedChecksRejectInOrder : Obligations.FailedChecksRejectInOrder := by
  intro op s why hidle hfails
  refine exec_refused hidle ?_
  obtain ⟨hop, hclosed, rfl⟩ | ⟨rfl, hopen, rfl⟩ | ⟨hop, hopen, hfatal, rfl⟩ | ⟨rfl, hlen, rfl⟩ |
    ⟨hop, hopen, hfatal, hlen, rfl⟩ | ⟨rfl, hopen, hfatal, hexpect, rfl⟩ := hfails
  · exact rejectReason_noSession (needsSession_iff.2 hop) hclosed
  · exact rejectReason_sessionOpen hopen
  · exact rejectReason_fatalLock (refusedWhileFatal_iff.2 hop) hopen hfatal
  · exact rejectReason_range (fun hop => by cases hop) (.inl ⟨rfl, hlen⟩)
  · have huses : usesDescriptor op = true := usesDescriptor_iff.2 (List.mem_cons_of_mem _ hop)
    exact rejectReason_range (fun _ => ⟨hopen, hfatal⟩) (.inl ⟨huses, hlen⟩)
  · exact rejectReason_range (fun _ => ⟨hopen, hfatal⟩) (.inr ⟨rfl, hexpect⟩)

end Sys2Proof.Machine
end

