-- ==== Sys2Proof/Proofs/ChecksumFamily.lean ====
section
/-! PROOFS. The checksum unit (41_checksum.md): the commands `CRC_GEN` and `CRC_CHECK`, and the default algorithm on
zero bytes (R114, R115, R117, R118, R120). -/

namespace Sys2Proof.Machine

variable {P : Params} {op : Command} {s : State}

/-! ### Accepted commands -/

/-- While IDLE a command that passes the checks runs its acceptance step on what its start leaves (R101, R104). -/
theorem exec_accepted (hidle : s.fsm = .idle) (hcheck : rejectReason Config.params op s = none) :
    exec op.instr s = .next (acceptCommand Config.params op (startCommon op.code s)) := by
  rw [exec_commandInstr_idle op hidle, issue_accepted hcheck]

/-- No check of R101 is about a command of the checksum unit: any session, any `FATAL`, any operands. -/
theorem rejectReason_checksum (hop : op = .crcGen ∨ op = .crcCheck) : rejectReason P op s = none := by
  rw [rejectReason_eq_none_iff]
  obtain rfl | rfl := hop <;> simp [needsSession, refusedWhileFatal, usesDescriptor]

/-! ### The operand -/

/-- The checksum operand after the start of a command, which wipes only buffers above `DATA`, is
`DATA[0..<CRC_LEN]` as the host left it (R46, R77, R104). -/
theorem crcData_startCommon_eq_bytesAt (v : Byte) (s : State) :
    crcData (startCommon v s) = bytesAt s.mem 0x100 s.regs.crcLen.toNat :=
  (crcData_startCommon v s).trans (loadBytes_eq_bytesAt s.mem dataBase s.regs.crcLen.toNat)

/-- The validator is equality with the generator (R115). -/
theorem crcMatches_eq_decide (P : Params) (bytes : List Byte) (expected : Half) :
    crcMatches P bytes expected = decide (P.crc16 bytes = expected) := beq_eq_decide _ _

/-! ### `CRC_GEN` and `CRC_CHECK` -/

/-- Settles O20: the start of a command, then the checksum and the OK finish. -/
theorem crcGenStoresChecksum : Obligations.CrcGenStoresChecksum := by
  intro s hidle
  refine ⟨_, exec_accepted (op := .crcGen) hidle (rejectReason_checksum (.inl rfl)), resultsWiped_of_mem rfl, ?_⟩
  simp only [acceptCommand, acceptCrcGen, crcData_startCommon_eq_bytesAt, finish, ← hidle]
  rfl

/-- Settles O21: as `CRC_GEN`, with the validator's answer stored beside the checksum. -/
theorem crcCheckStoresVerdict : Obligations.CrcCheckStoresVerdict := by
  intro s hidle
  refine ⟨_, exec_accepted (op := .crcCheck) hidle (rejectReason_checksum (.inr rfl)), resultsWiped_of_mem rfl, ?_⟩
  simp only [acceptCommand, acceptCrcCheck, crcData_startCommon_eq_bytesAt, startCommon_regs, crcMatches_eq_decide,
    finish, ← hidle]
  rfl

/-! ### The default algorithm -/

/-- A 0 bit into a register of 0: the bit shifted out is 0 too, so the polynomial is not added (R114). -/
theorem crcBit_zero_false : crcBit 0#16 false = 0#16 := by decide

theorem crcByte_zero_zero : crcByte 0 0x00 = 0 := by simp [crcByte, crcBit_zero_false]

/-- The register starts at 0 (R114), so a leading zero byte leaves no trace in the checksum. -/
theorem crc16Default_zero_cons (bytes : List Byte) : crc16Default (0x00 :: bytes) = crc16Default bytes := by
  rw [crc16Default, List.foldl_cons, crcByte_zero_zero, crc16Default]

/-- Settles O22, by induction on the number of zero bytes. -/
theorem zeroBytesHaveZeroDefaultChecksum : Obligations.ZeroBytesHaveZeroDefaultChecksum := by
  intro n
  induction n with
  | zero => rfl
  | succ n ih => rw [List.replicate_succ, crc16Default_zero_cons, ih]

end Sys2Proof.Machine
end

