-- ==== Sys2Proof/Proofs/TransportSteps.lean ====
section
/-! PROOFS. The steps of the transport's labels (R126 to R132): what each port call leads to, and what its answer leaves
of the environment. -/

namespace Sys2Proof.Machine

variable {P : Params} {op : Command} {s : State}

/-! ### A call issued and its answer used up (R22, R123, R124) -/

theorem logCall_dropWrite (c : PortCall) (s : State) :
    logCall c (dropWrite s) = { s with env := called s c (dropWrite s) } := by
  unfold dropWrite; split <;> rfl

theorem logCall_dropOpen (c : PortCall) (s : State) :
    logCall c (dropOpen s) = { s with env := called s c (dropOpen s) } := by
  unfold dropOpen; split <;> rfl

/-- A listed read answer is the next one received, cut to the bytes asked for (R123). -/
theorem readAnswer_listed {r : ReadAnswer} {rest : List ReadAnswer} (h : s.env.readAnswers = r :: rest) (n : Nat) :
    readAnswer n s = clipAnswer n r := by simp only [readAnswer, h]

@[simp] theorem dropRead_readAnswers (s : State) : (dropRead s).env.readAnswers = s.env.readAnswers.tail := by
  unfold dropRead; split <;> simp [*]

/-! ### Counting the calls -/

@[simp] theorem writesIn_busWrite (bytes : List Byte) (calls : List PortCall) :
    writesIn (.busWrite bytes :: calls) = writesIn calls + 1 := List.countP_cons_of_pos rfl

@[simp] theorem writesIn_busRead (n : Nat) (calls : List PortCall) :
    writesIn (.busRead n :: calls) = writesIn calls := List.countP_cons_of_neg Bool.false_ne_true

@[simp] theorem readsIn_busWrite (bytes : List Byte) (calls : List PortCall) :
    readsIn (.busWrite bytes :: calls) = readsIn calls := List.countP_cons_of_neg Bool.false_ne_true

@[simp] theorem readsIn_busRead (n : Nat) (calls : List PortCall) :
    readsIn (.busRead n :: calls) = readsIn calls + 1 := List.countP_cons_of_pos rfl

/-! ### Runs of the block FSM -/

theorem blockSteps_two (P : Params) (s : State) : blockSteps P 2 s = blockStep P (blockStep P s) := rfl

theorem blockSteps_add (P : Params) (m n : Nat) (s : State) :
    blockSteps P (m + n) s = blockSteps P n (blockSteps P m s) := by
  induction m generalizing s with
  | zero => rw [Nat.zero_add]; rfl
  | succ m ih => rw [Nat.succ_add, blockSteps, ih, blockSteps]

/-! ### Labels that write -/

/-- The wake pulse leads to the read whatever its write answers (R127, R136). -/
theorem sendBytes_wWrite (h : s.fsm = .run op .wWrite) (bytes : List Byte) :
    sendBytes bytes s = gotoLabel op .wRead (logCall (.busWrite bytes) (dropWrite s)) := by
  simp [sendBytes, afterWrite, h]

/-- The sleep byte of `TEARDOWN` leads to the close whatever its write answers (R129). -/
theorem sendBytes_tSleep (h : s.fsm = .run op .tSleep) (bytes : List Byte) :
    sendBytes bytes s = gotoLabel op .tClose (logCall (.busWrite bytes) (dropWrite s)) := by
  simp [sendBytes, afterWrite, h]

theorem sendBytes_cWrite (h : s.fsm = .run op .cWrite) (bytes : List Byte) :
    sendBytes bytes s =
      afterControlWrite (writeAnswer bytes.length s) (logCall (.busWrite bytes) (dropWrite s)) := by
  simp [sendBytes, afterWrite, h]

/-- A control byte ends its operation, and only the result depends on the answer (R131, R132). -/
theorem afterControlWrite_eq (w : Int) (s : State) :
    afterControlWrite w s =
      { s with fsm := .idle, done := true,
               result := if w = 1 then { kind := .ok, status := 0#3, len := 0#8, reason := .none }
                         else { kind := .fail, status := 0#3, len := 0#8, reason := .writeCount } } := by
  unfold afterControlWrite; split <;> rfl

/-! ### Labels that open, close or wait -/

theorem blockStep_sOpen (h : s.fsm = .run op .sOpen) (P : Params) :
    blockStep P s = afterOpen (openAnswer s) (logCall (.busOpen s.regs.busAddr) (dropOpen s)) := by
  simp [blockStep, outbound, readWant, silentStep, h]

theorem blockStep_tClose (h : s.fsm = .run op .tClose) (P : Params) :
    blockStep P s = afterClose (logCall .busClose s) := by
  simp [blockStep, outbound, readWant, silentStep, h]

theorem blockStep_bDelay (h : s.fsm = .run op .bDelay) (P : Params) :
    blockStep P s = gotoLabel op .bRead1 (logCall (.delay s.regs.execTime) s) := by
  simp [blockStep, outbound, readWant, silentStep, h]

/-! ### Labels that read -/

theorem receive_wRead (h : s.fsm = .run op .wRead) (P : Params) (n : Nat) (r : ReadAnswer) :
    receive P n r s = afterWakeRead P op r (logCall (.busRead n) s) := by
  simp [receive, afterRead, h]

theorem receive_bRead1 (h : s.fsm = .run op .bRead1) (P : Params) (n : Nat) (r : ReadAnswer) :
    receive P n r s = afterRead1B P op r (logCall (.busRead n) s) := by
  simp [receive, afterRead, h]

end Sys2Proof.Machine
end

