-- ==== Sys2Proof/Proofs/WakeProcedure.lean ====
section
/-! PROOFS. The wake procedure (R127, R135, R136): which answers acknowledge a pulse, and how a run of pulses that none
acknowledges goes on or ends. -/

namespace Sys2Proof.Machine

variable {P : Params} {op : Command} {s : State} {r : ReadAnswer}

/-! ### Acknowledgment -/

/-- Four bytes whose last two are the checksum of the first two, whatever the first byte (R135). -/
def Acknowledges (P : Params) (r : ReadAnswer) : Prop :=
  ∃ b0 b1 lo hi, r = .data [b0, b1, lo, hi] ∧ P.crc16 [b0, b1] = le16 lo hi

/-- The checksum of a frame of four bytes covers its first two (R116). -/
theorem frameChecks_four (P : Params) (b0 b1 lo hi : Byte) :
    frameChecks P [b0, b1, lo, hi] = decide (P.crc16 [b0, b1] = le16 lo hi) :=
  crcMatches_eq_decide P [b0, b1] (le16 lo hi)

/-- The model's test is that of R135. -/
theorem wakeAck_iff : wakeAck P r = true ↔ Acknowledges P r := by
  constructor
  · intro hack
    cases r with
    | err => cases hack
    | data bytes =>
      simp only [wakeAck, Bool.and_eq_true, decide_eq_true_eq] at hack
      obtain ⟨hlen, hchecks⟩ := hack
      obtain ⟨b0, b1, lo, hi, rfl⟩ := List.length_eq_four.1 hlen
      exact ⟨b0, b1, lo, hi, rfl, by simpa only [frameChecks_four, decide_eq_true_eq] using hchecks⟩
  · rintro ⟨b0, b1, lo, hi, rfl, hcrc⟩
    simp [wakeAck, frameChecks_four, hcrc]

theorem afterWakeRead_of_acknowledges (h : Acknowledges P r) (op : Command) (s : State) :
    afterWakeRead P op r s = finish .ok 0#3 0#8 .none (wipeRx s) := by
  rw [afterWakeRead, if_pos (wakeAck_iff.2 h)]; rfl

theorem afterWakeRead_of_not_acknowledges (h : ¬ Acknowledges P r) (op : Command) (s : State) :
    afterWakeRead P op r s = wakeRetry op (wipeRx s) := by
  rw [afterWakeRead, if_neg (mt wakeAck_iff.1 h)]; rfl

/-- Settles O33, by whether the answer acknowledges. -/
theorem wakeReadAcknowledgesOrRetries : Obligations.WakeReadAcknowledgesOrRetries := by
  intro P op r s hfsm u k
  rw [receive_wRead hfsm]
  exact ⟨fun hack => afterWakeRead_of_acknowledges hack op _, fun hnak => afterWakeRead_of_not_acknowledges hnak op _⟩

/-! ### One pulse -/

/-- A failed attempt is counted (R55, R127). -/
def countAttempt (s : State) : State := { s with ctr := { s.ctr with wakeCnt := bump s.ctr.wakeCnt } }

@[simp] theorem countAttempt_regs (s : State) : (countAttempt s).regs = s.regs := rfl

@[simp] theorem countAttempt_env (s : State) : (countAttempt s).env = s.env := rfl

@[simp] theorem countAttempt_wakeCnt (s : State) : (countAttempt s).ctr.wakeCnt = bump s.ctr.wakeCnt := rfl

/-- An attempt below the cap, or without one, leads to another pulse (R127). -/
theorem wakeRetry_below_cap (h : s.regs.wakeCap = 0#8 ∨ bump s.ctr.wakeCnt < s.regs.wakeCap.toNat) (op : Command) :
    wakeRetry op s = gotoLabel op .wWrite (countAttempt s) :=
  if_neg fun ⟨hcapped, hreached⟩ => h.elim hcapped (Nat.not_lt.2 hreached)

/-- The attempt that reaches the cap is the last (R127). -/
theorem wakeRetry_at_cap (hcapped : s.regs.wakeCap ≠ 0#8) (hreached : s.regs.wakeCap.toNat ≤ bump s.ctr.wakeCnt)
    (op : Command) : wakeRetry op s = raise .fail .wakeTimeout (countAttempt s) :=
  if_pos ⟨hcapped, hreached⟩

/-- `s` after a wake pulse and the read of four bytes that follows it, before the answer is acted on (R127). -/
def pulsed (op : Command) (s : State) : State :=
  wipeRx (logCall (.busRead 4) (dropRead (gotoLabel op .wRead (logCall (.busWrite wakePulse) (dropWrite s)))))

@[simp] theorem pulsed_regs (op : Command) (s : State) : (pulsed op s).regs = s.regs := by simp [pulsed]

@[simp] theorem pulsed_ctr (op : Command) (s : State) : (pulsed op s).ctr = s.ctr := by simp [pulsed]

@[simp] theorem pulsed_calls (op : Command) (s : State) :
    (pulsed op s).env.calls = .busRead 4 :: .busWrite wakePulse :: s.env.calls := by simp [pulsed]

@[simp] theorem pulsed_readAnswers (op : Command) (s : State) :
    (pulsed op s).env.readAnswers = s.env.readAnswers.tail := by simp [pulsed]

/-- Two block steps at W_WRITE are a pulse and its read; without an acknowledgment the attempt is counted. -/
theorem blockSteps_two_unacknowledged {rest : List ReadAnswer} (hfsm : s.fsm = .run op .wWrite)
    (hanswers : s.env.readAnswers = r :: rest) (hnak : ¬ Acknowledges P (clipAnswer 4 r)) :
    blockSteps P 2 s = wakeRetry op (pulsed op s) := by
  have hwrite : blockStep P s = gotoLabel op .wRead (logCall (.busWrite wakePulse) (dropWrite s)) := by
    rw [blockStep_of_outbound (bytes := wakePulse) (by simp [outbound, hfsm]), sendBytes_wWrite hfsm]
  have hread : readWant (blockStep P s) = some 4 := by simp [hwrite, readWant]
  have hanswer : readAnswer 4 (blockStep P s) = clipAnswer 4 r := readAnswer_listed (by simpa [hwrite] using hanswers) 4
  rw [blockSteps_two, blockStep_of_readWant hread, hanswer,
    receive_wRead (op := op) (by simp [hwrite]), afterWakeRead_of_not_acknowledges hnak, hwrite]
  rfl

/-! ### A run of pulses -/

section Run

variable {rs rest : List ReadAnswer}

theorem blockSteps_two_mul_cons (P : Params) (r : ReadAnswer) (rs : List ReadAnswer) (s : State) :
    blockSteps P (2 * (r :: rs).length) s = blockSteps P (2 * rs.length) (blockSteps P 2 s) := by
  rw [List.length_cons, Nat.mul_succ, Nat.add_comm, blockSteps_add]

/-- Without a cap no number of unacknowledged pulses ends the procedure (R43, R127). -/
theorem fsm_blockSteps_uncapped (hfsm : s.fsm = .run op .wWrite) (hcap : s.regs.wakeCap = 0#8)
    (hanswers : s.env.readAnswers = rs ++ rest) (hfail : ∀ r ∈ rs, ¬ Acknowledges P (clipAnswer 4 r)) :
    (blockSteps P (2 * rs.length) s).fsm = .run op .wWrite := by
  induction rs generalizing s with
  | nil => exact hfsm
  | cons r rs ih =>
    obtain ⟨hnak, hrest⟩ := List.forall_mem_cons.1 hfail
    rw [blockSteps_two_mul_cons, blockSteps_two_unacknowledged hfsm hanswers hnak,
      wakeRetry_below_cap (.inl (by simpa using hcap))]
    exact ih rfl (by simpa using hcap) (by simp [hanswers]) hrest

/-- What is left of the cap is what is left of the pulses: the last of them ends the procedure (R43, R127). -/
theorem blockSteps_capped (hfsm : s.fsm = .run op .wWrite) (hanswers : s.env.readAnswers = rs ++ rest)
    (hfail : ∀ r ∈ rs, ¬ Acknowledges P (clipAnswer 4 r)) (hrs : rs ≠ [])
    (hcap : s.ctr.wakeCnt + rs.length = s.regs.wakeCap.toNat) :
    (blockSteps P (2 * rs.length) s).fsm = .idle ∧ (blockSteps P (2 * rs.length) s).result.reason = .wakeTimeout ∧
      writesIn (blockSteps P (2 * rs.length) s).env.calls = writesIn s.env.calls + rs.length ∧
      readsIn (blockSteps P (2 * rs.length) s).env.calls = readsIn s.env.calls + rs.length := by
  induction rs generalizing s with
  | nil => exact absurd rfl hrs
  | cons r rs ih =>
    obtain ⟨hnak, hrest⟩ := List.forall_mem_cons.1 hfail
    rw [List.length_cons] at hcap
    have hcount : bump s.ctr.wakeCnt = s.ctr.wakeCnt + 1 := by
      have := s.regs.wakeCap.isLt
      unfold bump; omega
    rw [blockSteps_two_mul_cons, blockSteps_two_unacknowledged hfsm hanswers hnak]
    cases rs with
    | nil =>
      have hcapped : s.regs.wakeCap ≠ 0#8 := fun h => by simp [h] at hcap
      rw [wakeRetry_at_cap (by simpa using hcapped) (by simp [hcount, ← hcap])]
      simp [blockSteps]
    | cons r' rs' =>
      have hleft : (gotoLabel op .wWrite (countAttempt (pulsed op s))).ctr.wakeCnt + (r' :: rs').length =
          s.regs.wakeCap.toNat := by
        simp only [gotoLabel_ctr, countAttempt_wakeCnt, pulsed_ctr, hcount]; omega
      obtain ⟨hidle, hreason, hwrites, hreads⟩ := ih (s := gotoLabel op .wWrite (countAttempt (pulsed op s))) rfl
        (by simp [hanswers]) hrest (List.cons_ne_nil _ _) (by simpa using hleft)
      rw [wakeRetry_below_cap (.inr (by simp [hcount, ← hcap]))]
      refine ⟨hidle, hreason, hwrites.trans ?_, hreads.trans ?_⟩
      · simp only [gotoLabel_env, countAttempt_env, pulsed_calls, writesIn_busRead, writesIn_busWrite, List.length_cons]
        omega
      · simp only [gotoLabel_env, countAttempt_env, pulsed_calls, readsIn_busRead, readsIn_busWrite, List.length_cons]
        omega

end Run

/-- Settles O34, by induction on the answers that do not acknowledge. -/
theorem wakeCapBoundsPulses : Obligations.WakeCapBoundsPulses := by
  intro P op s n rs rest hfsm hcnt hanswers hlen hnak
  subst hlen
  refine ⟨fun hpos hcap => ?_, fun hcap => fsm_blockSteps_uncapped hfsm hcap hanswers hnak⟩
  exact blockSteps_capped hfsm hanswers hnak (List.ne_nil_of_length_pos hpos) (by rw [hcnt, hcap, Nat.zero_add])

end Sys2Proof.Machine
end

