-- ==== Sys2Proof/Proofs/TransportFamily.lean ====
section
/-! PROOFS. Session and device control, and the bounded retry of a read (42_transport.md): which commands are accepted,
and the steps of their labels (R126, R128 to R132, R136). -/

namespace Sys2Proof.Machine

variable {P : Params} {op : Command} {s : State}

/-! ### Accepted commands -/

/-- `SETUP` asks for a closed session and nothing else (R101, R128). -/
theorem rejectReason_setup (hclosed : s.session = .closed) : rejectReason P .setup s = none := by
  simp [rejectReason_eq_none_iff, isOpen_eq_false_iff, hclosed, needsSession, refusedWhileFatal, usesDescriptor]

/-- A command that sends no descriptor, on an open session, is refused by `FATAL` at most (R101). -/
theorem rejectReason_control (hop : op ∈ [.teardown, .wake, .sleep, .idle]) (hopen : s.session ≠ .closed)
    (hfatal : refusedWhileFatal op = true → s.fatal = false) : rejectReason P op s = none := by
  have hdescriptor : usesDescriptor op = false ∧ op ≠ .setup ∧ op ≠ .sendRecv := by
    revert hop; cases op <;> decide
  obtain ⟨huses, hsetup, hsend⟩ := hdescriptor
  simpa [rejectReason_eq_none_iff, isOpen_iff.2 hopen, huses, hsetup, hsend] using hfatal

/-- Settles O26: the start of a command, then a `goto`. -/
theorem setupIsAccepted : Obligations.SetupIsAccepted :=
  fun _ hidle hclosed =>
    ⟨_, exec_accepted (op := .setup) hidle (rejectReason_setup hclosed), resultsWiped_of_mem rfl, rfl⟩

/-- Settles O28: as `SETUP`, with `FATAL` choosing the first label. -/
theorem teardownIsAccepted : Obligations.TeardownIsAccepted :=
  fun _ hidle hopen =>
    ⟨_, exec_accepted (op := .teardown) hidle (rejectReason_control (by decide) hopen (fun h => by cases h)),
      resultsWiped_of_mem rfl, rfl⟩

/-- Settles O30: the three commands pass the same checks. -/
theorem wakeSleepIdleAreAccepted : Obligations.WakeSleepIdleAreAccepted := by
  intro s hidle hopen hfatal
  have hcheck {op : Command} (hop : op ∈ [.wake, .sleep, .idle]) : rejectReason Config.params op s = none :=
    rejectReason_control (List.mem_cons_of_mem _ hop) hopen fun _ => hfatal
  exact ⟨⟨_, exec_accepted (op := .wake) hidle (hcheck (by decide)), resultsWiped_of_mem rfl, rfl⟩,
    ⟨_, exec_accepted (op := .sleep) hidle (hcheck (by decide)), resultsWiped_of_mem rfl, rfl⟩,
    ⟨_, exec_accepted (op := .idle) hidle (hcheck (by decide)), resultsWiped_of_mem rfl, rfl⟩⟩

/-! ### Open and close -/

/-- With nothing on the agenda the step is the block's (R2, log 2). -/
theorem step_of_agenda_nil {label : Label} (hfsm : s.fsm = .run op label) (hl : label ∈ labelsOf op)
    (hagenda : s.env.agenda = []) : step s = .next (blockStep Config.params s) :=
  step_of_fetch_eq_fetchPort (fetch_of_agenda_nil hagenda) hfsm hl

/-- Settles O27, by what `BusOpen` answers. -/
theorem setupOpenStepBindsOrFails : Obligations.SetupOpenStepBindsOrFails := by
  intro s hfsm hagenda
  rw [step_of_agenda_nil hfsm (by decide) hagenda, blockStep_sOpen hfsm, logCall_dropOpen]
  cases openAnswer s <;> rfl

/-- Settles O29: the close is issued, and the operation finishes OK. -/
theorem teardownCloseStepDropsSession : Obligations.TeardownCloseStepDropsSession := by
  intro s hfsm hagenda
  rw [step_of_agenda_nil hfsm (by decide) hagenda, blockStep_tClose hfsm]
  rfl

/-! ### The fixed sequences -/

/-- A row whose sequence is pending is that sequence's write (R84 to R86). -/
theorem exec_pending {i : Instr} {bytes : List Byte} (henc : encode i = .outbound bytes)
    (hout : outbound s = some bytes) : exec i s = .next (sendBytes bytes s) := by
  rw [exec_of_encode_outbound henc, emit_pending hout]

/-- Settles O31: no case of the step after the pulse reads the answer. -/
theorem wakePulseLeadsToRead : Obligations.WakePulseLeadsToRead := by
  intro op s hfsm
  rw [exec_pending (i := .wireWake) rfl (by simp [outbound, hfsm, wakePulse]), sendBytes_wWrite hfsm, logCall_dropWrite]
  rfl

/-- A control byte at C_WRITE, of either operation (R131, R132). -/
theorem sendBytes_control (hfsm : s.fsm = .run op .cWrite) (b : Byte) :
    sendBytes [b] s =
      { s with fsm := .idle, done := true, env := called s (.busWrite [b]) (dropWrite s),
               result := if writeAnswer 1 s = 1 then { kind := .ok, status := 0#3, len := 0#8, reason := .none }
                         else { kind := .fail, status := 0#3, len := 0#8, reason := .writeCount } } := by
  rw [sendBytes_cWrite hfsm, logCall_dropWrite, afterControlWrite_eq]
  rfl

/-- Settles O32: the two operations of C_WRITE end by the answer, T_SLEEP goes on without it. -/
theorem controlBytesReportWriteCount : Obligations.ControlBytesReportWriteCount := by
  intro s
  refine ⟨fun hfsm => ?_, fun hfsm => ?_, fun hfsm => ?_⟩
  · rw [exec_pending (i := .wireSleep) rfl (by simp [outbound, hfsm, sleepByte]), sendBytes_control hfsm]
  · rw [exec_pending (i := .wireIdle) rfl (by simp [outbound, hfsm, idleByte]), sendBytes_control hfsm]
  · rw [exec_pending (i := .wireSleep) rfl (by simp [outbound, hfsm, sleepByte]), sendBytes_tSleep hfsm, logCall_dropWrite]
    rfl

/-! ### The bounded retry of a read (R126) -/

/-- A first read answered `Err`, the answer used up (R126). -/
theorem blockStep_bRead1_err {rest : List ReadAnswer} (hfsm : s.fsm = .run op .bRead1)
    (hanswers : s.env.readAnswers = .err :: rest) (P : Params) :
    blockStep P s = afterRead1B P op .err (logCall (.busRead 4) (dropRead s)) := by
  rw [blockStep_of_readWant (n := 4) (by simp [readWant, hfsm]), readAnswer_listed hanswers,
    receive_bRead1 (by rwa [dropRead_fsm])]
  rfl

/-- `s` after a failed read that is tried again, once the delay is over (R126). -/
def readAgain (op : Command) (s : State) : State :=
  gotoLabel op .bRead1 (logCall (.delay s.regs.execTime) (logCall (.busRead 4)
    { dropRead s with ctr := { s.ctr with rdAttempt := s.ctr.rdAttempt + 1 } }))

@[simp] theorem readAgain_fsm (op : Command) (s : State) : (readAgain op s).fsm = .run op .bRead1 := rfl

@[simp] theorem readAgain_rdAttempt (op : Command) (s : State) :
    (readAgain op s).ctr.rdAttempt = s.ctr.rdAttempt + 1 := rfl

@[simp] theorem readAgain_regs (op : Command) (s : State) : (readAgain op s).regs = s.regs := by simp [readAgain]

@[simp] theorem readAgain_calls (op : Command) (s : State) :
    (readAgain op s).env.calls = .delay s.regs.execTime :: .busRead 4 :: s.env.calls := by simp [readAgain]

@[simp] theorem readAgain_readAnswers (op : Command) (s : State) :
    (readAgain op s).env.readAnswers = s.env.readAnswers.tail := by simp [readAgain]

/-- Before the third attempt `Err` leads through the delay to another read (R9, R126). -/
theorem blockSteps_two_readAgain {rest : List ReadAnswer} (hfsm : s.fsm = .run op .bRead1)
    (hanswers : s.env.readAnswers = .err :: rest) (hmore : s.ctr.rdAttempt < 3) (P : Params) :
    blockSteps P 2 s = readAgain op s := by
  have hread : blockStep P s = gotoLabel op .bDelay (logCall (.busRead 4)
      { dropRead s with ctr := { s.ctr with rdAttempt := s.ctr.rdAttempt + 1 } }) := by
    rw [blockStep_bRead1_err hfsm hanswers, afterRead1B, if_pos (by simpa [Config.readMaxAttempts] using hmore)]
    simp [gotoLabel, logCall]
  rw [blockSteps_two, blockStep_bDelay (op := op) (by simp [hread]), hread]
  simp [readAgain, gotoLabel, logCall]

/-- The third attempt is the last (R9, R126). -/
theorem blockStep_lastRead {rest : List ReadAnswer} (hfsm : s.fsm = .run op .bRead1)
    (hanswers : s.env.readAnswers = .err :: rest) (hlast : s.ctr.rdAttempt = 3) (P : Params) :
    blockStep P s = nullResult .readError (loadRx .err (logCall (.busRead 4) (dropRead s))) := by
  rw [blockStep_bRead1_err hfsm hanswers, afterRead1B, if_neg (by simp [hlast, Config.readMaxAttempts])]

/-- Settles O49: two reads are tried again, and the third is the last. -/
theorem firstChunkIsReadThreeTimes : Obligations.FirstChunkIsReadThreeTimes := by
  intro P op s rest hfsm hfirst hanswers
  have hanswers₂ : (readAgain op s).env.readAnswers = .err :: .err :: rest := by simp [hanswers]
  have hanswers₃ : (readAgain op (readAgain op s)).env.readAnswers = .err :: rest := by simp [hanswers]
  have hrun : blockSteps P 5 s =
      nullResult .readError (loadRx .err (logCall (.busRead 4) (dropRead (readAgain op (readAgain op s))))) :=
    calc blockSteps P 5 s = blockStep P (blockSteps P 2 (blockSteps P 2 s)) := rfl
      _ = blockStep P (blockSteps P 2 (readAgain op s)) := by
        rw [blockSteps_two_readAgain hfsm hanswers (by simp [hfirst])]
      _ = blockStep P (readAgain op (readAgain op s)) := by
        rw [blockSteps_two_readAgain (readAgain_fsm op s) hanswers₂ (by simp [hfirst])]
      _ = _ := blockStep_lastRead (readAgain_fsm op _) hanswers₃ (by simp [hfirst]) P
  rw [hrun]
  simp [nullResult, hanswers]

end Sys2Proof.Machine
end

