-- ==== Sys2Proof/Proofs/FramerFamily.lean ====
section
/-! PROOFS. The command framer (43_framer.md): a command frame byte by byte at the offsets of R86, the descriptor's
frame and what parsing it gives back, and the command `FRAME` (R141 to R146). -/

namespace Sys2Proof.Machine

variable {P : Params} {s : State}

/-! ### The bytes of a command frame (R86) -/

section Offsets

variable (f : CmdFrame)

theorem getD_bytes_data {i : Nat} (h : i < f.data.length) : f.bytes.getD (6 + i) 0 = f.data.getD i 0 := by
  simp [CmdFrame.bytes, Nat.add_comm 6 i, List.getElem?_append_left h]

theorem getD_bytes_crcLo : f.bytes.getD (6 + f.data.length) 0 = f.crcLo := by
  simp [CmdFrame.bytes, Nat.add_comm 6]

theorem getD_bytes_crcHi : f.bytes.getD (7 + f.data.length) 0 = f.crcHi := by
  simp [CmdFrame.bytes, Nat.add_comm 7]

end Offsets

/-! ### The descriptor's frame (R142) -/

/-- The frame that the framer makes of the operand registers and `DATA` (R142). -/
def descriptorFrame (P : Params) (s : State) : CmdFrame where
  marker := P.marker
  count := BitVec.ofNat 8 (7 + s.regs.dataLen.toNat)
  opcode := s.regs.opcode
  param1 := s.regs.param1
  param2Lo := lo8 s.regs.param2
  param2Hi := hi8 s.regs.param2
  data := commandData s
  crcLo := lo8 (P.crc16 (frameBody s))
  crcHi := hi8 (P.crc16 (frameBody s))

theorem serialize_eq_bytes (P : Params) (s : State) : serialize P s = (descriptorFrame P s).bytes := by
  simp [serialize, frameBody, CmdFrame.bytes, descriptorFrame]

theorem length_descriptorFrame_data (P : Params) (s : State) :
    (descriptorFrame P s).data.length = s.regs.dataLen.toNat := length_commandData s

/-- The payload is `DATA` as the host left it (R37). -/
theorem commandData_eq_bytesAt (s : State) : commandData s = bytesAt s.mem 0x100 s.regs.dataLen.toNat :=
  loadBytes_eq_bytesAt s.mem dataBase s.regs.dataLen.toNat

/-- In range the `count` byte holds the frame's length minus 1: it does not wrap (R87, R141). -/
theorem toNat_descriptorFrame_count (hrange : s.regs.dataLen.toNat ≤ P.maxDataLen.val) :
    (descriptorFrame P s).count.toNat = 7 + s.regs.dataLen.toNat := by
  have hmax := P.maxDataLen.isLt
  rw [descriptorFrame, BitVec.toNat_ofNat, Nat.mod_eq_of_lt (by omega)]

theorem wellFormed_descriptorFrame (hrange : s.regs.dataLen.toNat ≤ P.maxDataLen.val) :
    (Instr.wireCmd (descriptorFrame P s)).wellFormed = true := by
  have hmax := P.maxDataLen.isLt
  have hdata : s.regs.dataLen.toNat ≤ 248 := by omega
  simpa [Instr.wellFormed, toNat_descriptorFrame_count hrange, length_descriptorFrame_data] using hdata

/-- The checksum covers every byte between the marker and the checksum (R143). -/
theorem serialize_covered (P : Params) (s : State) :
    ((serialize P s).drop 1).take (5 + s.regs.dataLen.toNat) = frameBody s := by
  rw [← length_frameBody s]
  simp [serialize]

section Serialized

variable (P s)

theorem getD_serialize_data {i : Nat} (h : i < s.regs.dataLen.toNat) :
    (serialize P s).getD (6 + i) 0 = loadByte s.mem (0x100 + i) := by
  rw [serialize_eq_bytes, getD_bytes_data _ (by rwa [length_descriptorFrame_data])]
  simp [descriptorFrame, commandData_eq_bytesAt, bytesAt, h]

theorem getD_serialize_crcLo :
    (serialize P s).getD (6 + s.regs.dataLen.toNat) 0 = lo8 (P.crc16 (frameBody s)) := by
  rw [serialize_eq_bytes, ← length_descriptorFrame_data P s, getD_bytes_crcLo, descriptorFrame]

theorem getD_serialize_crcHi :
    (serialize P s).getD (7 + s.regs.dataLen.toNat) 0 = hi8 (P.crc16 (frameBody s)) := by
  rw [serialize_eq_bytes, ← length_descriptorFrame_data P s, getD_bytes_crcHi, descriptorFrame]

end Serialized

/-- Settles O24: the length, the `count` byte and the checksum, each read at its offset. -/
theorem serializedFrameIsConsistent : Obligations.SerializedFrameIsConsistent := by
  intro P s hrange
  refine ⟨length_serialize P s, ?_, ?_⟩
  · have hcount : ((serialize P s).getD 1 0).toNat = 7 + s.regs.dataLen.toNat := toNat_descriptorFrame_count hrange
    rw [hcount, length_serialize]
    omega
  · rw [getD_serialize_crcLo, getD_serialize_crcHi, le16_lo8_hi8, serialize_covered]

/-- Settles O25: the serialized bytes are those of a well-formed frame, which the decoder gives back. -/
theorem serializedFrameParsesBack : Obligations.SerializedFrameParsesBack := by
  intro P s hrange
  refine ⟨descriptorFrame P s, ?_, rfl, rfl, le16_lo8_hi8 _, ?_, commandData_eq_bytesAt s⟩
  · rw [serialize_eq_bytes, decodeOutbound_bytes (wellFormed_descriptorFrame hrange)]
  · rw [toNat_descriptorFrame_count hrange, Nat.add_sub_cancel_left]

/-! ### The command `FRAME` (R144) -/

/-- A range of what was stored. -/
theorem bytesAt_storeBytes {m : Memory} {a i k : Nat} {bs : List Byte} (hm : Memory.wf m) (hk : i + k ≤ bs.length) :
    bytesAt (storeBytes m a bs) (a + i) k = (bs.drop i).take k := by
  apply List.ext_getElem (by rw [length_bytesAt, List.length_take, List.length_drop]; omega)
  intro j hj _
  rw [length_bytesAt] at hj
  simp [bytesAt, Nat.add_assoc, loadByte_storeBytes_inside hm (show i + j < bs.length by omega)]

/-- `FRAME` asks for a payload in range and nothing else (R101, R144). -/
theorem rejectReason_frame (hrange : s.regs.dataLen.toNat ≤ P.maxDataLen.val) : rejectReason P .frame s = none := by
  simpa [rejectReason_eq_none_iff, needsSession, refusedWhileFatal, usesDescriptor] using hrange

/-- The memory that `FRAME` leaves: the serialized descriptor in a wiped `FRAME` buffer (R104, R144). -/
def framedMemory (P : Params) (s : State) : Memory :=
  storeBytes (wipeResultAndFrame s.mem) frameBase (serialize P s)

theorem exec_cmdFrame (hidle : s.fsm = .idle) (hrange : s.regs.dataLen.toNat ≤ Config.maxDataLen.val) :
    exec .cmdFrame s = .next
      { s with lastOp := 0x10#8, done := true, frameLen := BitVec.ofNat 16 (8 + s.regs.dataLen.toNat),
               result := { kind := .ok, status := 0#3, len := 0#8, reason := .none },
               mem := framedMemory Config.params s } := by
  refine (exec_accepted (op := .frame) hidle (rejectReason_frame hrange)).trans ?_
  simp only [acceptCommand, acceptFrame, serialize_startCommon, length_serialize, finish, ← hidle]
  rfl

theorem loadByte_framedMemory_inside (hmem : Memory.wf s.mem) (i : Nat) (h : i < 8 + s.regs.dataLen.toNat) :
    loadByte (framedMemory P s) (0x300 + i) = (serialize P s).getD i 0 := by
  have hi : i < (serialize P s).length := by rwa [length_serialize]
  rw [List.getD_eq_getElem _ _ hi]
  exact loadByte_storeBytes_inside (wf_wipeResultAndFrame hmem) hi

theorem loadByte_framedMemory_outside {a : Nat} (h : a < 0x300 ∨ 0x308 + s.regs.dataLen.toNat ≤ a) :
    loadByte (framedMemory P s) a = if 0x200 ≤ a ∧ a < 0x400 then 0x00 else loadByte s.mem a := by
  rw [framedMemory, loadByte_storeBytes_outside (by rw [length_serialize, frameBase]; omega),
    loadByte_wipeResultAndFrame]
  rfl

/-- The bytes of the buffer that the checksum covers are those the framer computed it from (R143, R144). -/
theorem bytesAt_framedMemory_covered (hmem : Memory.wf s.mem) :
    bytesAt (framedMemory P s) 0x301 (5 + s.regs.dataLen.toNat) = frameBody s :=
  (bytesAt_storeBytes (a := frameBase) (i := 1) (wf_wipeResultAndFrame hmem)
    (by rw [length_serialize]; omega)).trans (serialize_covered P s)

/-- Settles O23: inside the frame every byte is the serialized one, outside it memory is wiped or as before. -/
theorem frameCommandWritesFrame : Obligations.FrameCommandWritesFrame := by
  rintro s _ hidle hmem rfl hrange
  have hinside := loadByte_framedMemory_inside (P := Config.params) hmem
  refine ⟨_, exec_cmdFrame hidle hrange, rfl, hinside 0 (by omega), hinside 1 (by omega), hinside 2 (by omega),
    hinside 3 (by omega), hinside 4 (by omega), hinside 5 (by omega), fun i hi => ?data, ?crcLo, ?crcHi,
    fun a hlo hhi => ?tail, fun a hlo hhi => ?result, fun a ha => ?rest⟩
  case data =>
    rw [show 0x306 + i = 0x300 + (6 + i) by omega, hinside _ (by omega), getD_serialize_data _ _ hi]
  case crcLo =>
    rw [show 0x306 + s.regs.dataLen.toNat = 0x300 + (6 + s.regs.dataLen.toNat) by omega, hinside _ (by omega),
      getD_serialize_crcLo, bytesAt_framedMemory_covered hmem]
    rfl
  case crcHi =>
    rw [show 0x307 + s.regs.dataLen.toNat = 0x300 + (7 + s.regs.dataLen.toNat) by omega, hinside _ (by omega),
      getD_serialize_crcHi, bytesAt_framedMemory_covered hmem]
    rfl
  case tail => rw [loadByte_framedMemory_outside (.inr hlo), if_pos ⟨by omega, hhi⟩]
  case result => rw [loadByte_framedMemory_outside (.inl hhi), if_pos ⟨hlo, by omega⟩]
  case rest => rw [loadByte_framedMemory_outside (by omega), if_neg (by omega)]

end Sys2Proof.Machine
end

