-- ==== Sys2Proof/Proofs/EngineSteps.lean ====
section
/-! PROOFS. The steps of the engine's labels (R151 to R167) and the classification of what they read: the checksum of an
inbound frame, the shapes of Mode A's answers, and what a valid frame leaves in memory. -/

namespace Sys2Proof.Machine

variable {P : Params} {op : Command} {s : State}

/-! ### The labels' port calls -/

theorem sendBytes_aWrite (h : s.fsm = .run op .aWrite) (bytes : List Byte) :
    sendBytes bytes s = afterWriteA op (writeAnswer bytes.length s) (logCall (.busWrite bytes) (dropWrite s)) := by
  simp [sendBytes, afterWrite, h]

theorem sendBytes_bWrite (h : s.fsm = .run op .bWrite) (bytes : List Byte) :
    sendBytes bytes s = afterWriteB op (writeAnswer bytes.length s) (logCall (.busWrite bytes) (dropWrite s)) := by
  simp [sendBytes, afterWrite, h]

theorem blockStep_aDelay (h : s.fsm = .run op .aDelay) (P : Params) :
    blockStep P s = gotoLabel op .aRead (logCall (.delay s.regs.execTime) s) := by
  simp [blockStep, outbound, readWant, silentStep, h]

theorem receive_aRead (h : s.fsm = .run op .aRead) (P : Params) (n : Nat) (r : ReadAnswer) :
    receive P n r s = afterReadA P op r (logCall (.busRead n) s) := by
  simp [receive, afterRead, h]

theorem receive_bRead2 (h : s.fsm = .run op .bRead2) (P : Params) (n : Nat) (r : ReadAnswer) :
    receive P n r s = afterRead2B P r (logCall (.busRead n) s) := by
  simp [receive, afterRead, h]

theorem readWant_aRead (h : s.fsm = .run op .aRead) : readWant s = some s.ctr.recvLen := by simp [readWant, h]

theorem readWant_bRead1 (h : s.fsm = .run op .bRead1) : readWant s = some 4 := by simp [readWant, h]

theorem readWant_bRead2 (h : s.fsm = .run op .bRead2) : readWant s = some (s.ctr.frameTotal - 4) := by
  simp [readWant, h]

/-! ### The checksum of an inbound frame (R116) -/

theorem slice_zero (f : List Byte) (j : Nat) : slice f 0 j = f.take (j + 1) := rfl

/-- The first four bytes of a longer answer are the status frame that is parsed (R91, R151). -/
theorem frameChecks_head {f : List Byte} (h : 4 ≤ f.length) :
    frameChecks P (slice f 0 3) = decide (P.crc16 (f.take 2) = le16 (f.getD 2 0#8) (f.getD 3 0#8)) := by
  match f, h with
  | b0 :: b1 :: lo :: hi :: _, _ => exact frameChecks_four P b0 b1 lo hi

/-- The checksum covers all but the last two bytes, and those two carry it, low byte first. -/
theorem frameChecks_eq {f : List Byte} (h : 3 ≤ f.length) :
    frameChecks P f =
      decide (P.crc16 (f.take (f.length - 2)) = le16 (f.getD (f.length - 2) 0#8) (f.getD (f.length - 1) 0#8)) := by
  rw [frameChecks, slice_zero, show f.length - 3 + 1 = f.length - 2 by omega, crcMatches_eq_decide]
  rfl

/-- A data frame's first byte is its length, and not that of a status frame (R90, R93). -/
theorem wellFormed_inData_iff {n lo hi : Byte} {p : List Byte} :
    (Instr.inData n p lo hi).wellFormed = true ↔ n.toNat = p.length + 3 ∧ n ≠ 0x04#8 := by
  simp only [Instr.wellFormed, Bool.and_eq_true, decide_eq_true_eq, bne_iff_ne]

@[simp] theorem length_dataFrameBytes (n : Byte) (p : List Byte) (lo hi : Byte) :
    (dataFrameBytes n p lo hi).length = p.length + 3 := by simp [dataFrameBytes]

/-- The checksum of a data frame covers its length byte and its payload (R90). -/
theorem frameChecks_dataFrame (P : Params) (n : Byte) (p : List Byte) (lo hi : Byte) :
    frameChecks P (dataFrameBytes n p lo hi) = decide (P.crc16 (n :: p) = le16 lo hi) := by
  rw [frameChecks_eq (by simp)]
  simp [dataFrameBytes]

/-- The payload of a data frame stands between its length byte and its checksum (R90). -/
theorem slice_dataFrame (n : Byte) (p : List Byte) (lo hi : Byte) :
    slice (dataFrameBytes n p lo hi) 1 p.length = p := by
  simp [slice, dataFrameBytes]

/-! ### Mode A's classification (R91, R151, R152) -/

/-- A status frame is what the map makes of its status byte, or Communication-Error (R152). -/
theorem parseStatus_four (P : Params) (b0 b lo hi : Byte) :
    parseStatus P [b0, b, lo, hi] =
      if P.crc16 [b0, b] = le16 lo hi then (P.statusMap b).elim .unmapped .st else .st .communicationError := by
  rw [parseStatus, frameChecks_four]
  cases hmap : P.statusMap b <;> simp [byteAt, hmap]

/-- A status frame that fits the read, whatever follows it (R172). -/
theorem classifyA_statusFrame {n : Nat} {trailing : List Byte} (hfour : 4 ≤ n) (hn : n ≤ trailing.length + 4)
    (b lo hi : Byte) :
    classifyA P n (.data ((statusFrameBytes b lo hi trailing).take n)) = parseStatus P [0x04#8, b, lo, hi] := by
  obtain ⟨k, rfl⟩ := Nat.exists_eq_add_of_le' hfour
  have hk : k ≤ trailing.length := by omega
  simp [classifyA, statusFrameBytes, byteAt, slice_zero, hk]

/-- A data frame of the expected length (R157). -/
theorem classifyA_dataFrame {n : Byte} {p : List Byte} {lo hi : Byte}
    (h : (Instr.inData n p lo hi).wellFormed = true) :
    classifyA P n.toNat (.data (dataFrameBytes n p lo hi)) =
      if P.crc16 (n :: p) = le16 lo hi then .dat p else .st .communicationError := by
  obtain ⟨hlen, hne⟩ := wellFormed_inData_iff.1 h
  have hfirst : byteAt (dataFrameBytes n p lo hi) 0 = n := rfl
  simp [classifyA, hfirst, hne, frameChecks_dataFrame, hlen, slice_dataFrame]

/-- An answer of neither shape is a NAK (R91, R151). -/
theorem classifyA_malformed {n : Nat} {r : ReadAnswer}
    (h : ∀ b, r = .data b → b.length = n → (byteAt b 0).toNat ≠ n ∧ (4 ≤ n → byteAt b 0 ≠ 0x04#8)) :
    classifyA P n r = .nak := by
  cases r with
  | err => rfl
  | data b =>
    simp only [classifyA]
    split
    case isTrue => rfl
    case isFalse hlen =>
      obtain ⟨htotal, hstatus⟩ := h b rfl (not_not.1 hlen)
      rw [if_neg fun ⟨hfirst, hfour⟩ => hstatus hfour hfirst, if_neg htotal]

/-! ### Mode A's labels -/

/-- An outer iteration is used up (R54, R153). -/
def spendOuter (s : State) : State := { s with ctr := { s.ctr with outerLeft := s.ctr.outerLeft - 1 } }

/-- A NAK is counted (R54, R155). -/
def countNak (s : State) : State := { s with ctr := { s.ctr with nakCnt := bump s.ctr.nakCnt } }

/-- Awake is resent while an outer iteration is left (R153, R154). -/
theorem afterStatusA_awake_resend (h : 0 < s.ctr.outerLeft - 1) (op : Command) :
    afterStatusA op .awake s = gotoLabel op .aWrite (spendOuter s) := if_pos ⟨rfl, h⟩

/-- The last Awake ends the operation (R154, R159). -/
theorem afterStatusA_awake_last (h : ¬ 0 < s.ctr.outerLeft - 1) (op : Command) :
    afterStatusA op .awake s = finish .status 4#3 0#8 .none (wipeTx (spendOuter s)) := if_neg fun hleft => h hleft.2

/-- Any other status ends the operation with its index (R24, R153). -/
theorem afterStatusA_of_ne_awake {c : StatusCode} (h : c ≠ .awake) (op : Command) (s : State) :
    afterStatusA op c s = finish .status (statusIndex c) 0#8 .none (wipeTx (spendOuter s)) :=
  if_neg fun hleft => h (by simpa using hleft.1)

theorem afterNakA_eq (op : Command) (s : State) :
    afterNakA op s =
      if s.regs.nakCap = 0#8 ∨ bump s.ctr.nakCnt < s.regs.nakCap.toNat then gotoLabel op .aDelay (countNak s)
      else finish .status 6#3 0#8 .none (wipeTx (spendOuter (countNak s))) := by
  rw [afterNakA, afterStatusA_of_ne_awake (by decide)]
  rfl

/-- Without a cap a NAK is always re-read (R155, R198). -/
theorem afterNakA_uncapped (h : s.regs.nakCap = 0#8) (op : Command) :
    afterNakA op s = gotoLabel op .aDelay (countNak s) := by rw [afterNakA_eq, if_pos (.inl h)]

/-- A payload always ends the operation (R153, R158). -/
theorem afterClassA_dat (op : Command) (p : List Byte) (s : State) :
    afterClassA op (.dat p) s = finish .payload 0#3 s.regs.rxExpectLen .none (wipeTx (spendOuter s)) := rfl

/-- A status that is neither re-read nor resent ends the operation (R153, R158). -/
theorem afterClassA_st_final {c : StatusCode} (hnak : c ≠ .nak) (hawake : c ≠ .awake) (op : Command) (s : State) :
    afterClassA op (.st c) s = finish .status (statusIndex c) 0#8 .none (wipeTx (spendOuter s)) :=
  (if_neg hnak).trans (afterStatusA_of_ne_awake hawake op s)

/-- What a read of Mode A leads to, by its classification: nothing of the answer stays in `RXBUF`. -/
theorem receive_aRead_of_class {r : ReadAnswer} {v : Classified} (hfsm : s.fsm = .run op .aRead)
    (hclass : classifyA P s.ctr.recvLen r = v) (n : Nat) :
    receive P n r s = afterClassA op v (copyPayload v (wipeRx (logCall (.busRead n) s))) := by
  rw [receive_aRead hfsm, afterReadA, logCall_ctr, hclass]
  cases v <;> rfl

/-! ### What a read leaves in memory (R157, R165) -/

/-- `RESULT` holds the payload if its frame is valid, and memory is untouched otherwise. -/
def storedIf (valid : Prop) [Decidable valid] (p : List Byte) (m : Memory) : Memory :=
  if valid then storeBytes m resultBase p else m

section StoredIf

variable {valid : Prop} [Decidable valid] {p : List Byte} {m : Memory}

theorem storedIf_invalid (h : ¬ valid) : storedIf valid p m = m := if_neg h

theorem bytesAt_storedIf (hm : Memory.wf m) (h : valid) : bytesAt (storedIf valid p m) 0x200 p.length = p := by
  rw [storedIf, if_pos h, ← loadBytes_eq_bytesAt]
  exact loadBytes_storeBytes hm

theorem loadByte_storedIf_outside {a : Nat} (h : a < 0x200 ∨ 0x200 + p.length ≤ a) :
    loadByte (storedIf valid p m) a = loadByte m a := by
  unfold storedIf
  split
  · exact loadByte_storeBytes_outside h
  · rfl

end StoredIf

/-! ### Mode B's validation (R164, R165) -/

/-- `VALIDATE` of a data frame in `RXBUF`, or of a status frame taken as one of one byte (R166). -/
theorem validateB_dataFrame {n lo hi : Byte} {p : List Byte} (htotal : s.ctr.frameTotal = p.length + 3) :
    validateB P (loadRx (.data (dataFrameBytes n p lo hi)) s) =
      { s with rxbuf := Buffer.wiped, fsm := .idle, done := true,
               result := if P.crc16 (n :: p) = le16 lo hi
                         then { kind := .payload, status := 0#3, len := BitVec.ofNat 8 p.length, reason := .none }
                         else { kind := .null, status := 0#3, len := 0#8, reason := .checksum },
               mem := storedIf (P.crc16 (n :: p) = le16 lo hi) p s.mem } := by
  have hbytes : (loadRx (.data (dataFrameBytes n p lo hi)) s).rxbuf.bytes = dataFrameBytes n p lo hi := bytes_ofBytes _
  rw [validateB, hbytes, frameChecks_dataFrame, loadRx_ctr, htotal, Nat.add_sub_cancel, slice_dataFrame]
  by_cases hcrc : P.crc16 (n :: p) = le16 lo hi
  · simp only [hcrc, decide_true, if_true, storedIf]; rfl
  · simp only [hcrc, decide_false, Bool.false_eq_true, if_false, storedIf]; rfl

end Sys2Proof.Machine
end

