-- ==== Sys2Proof/Proofs/ModeAFamily.lean ====
section
/-! PROOFS. Mode A (R151 to R159): its acceptance and its labels one by one, with the frame of each step. -/

namespace Sys2Proof.Machine

variable {P : Params} {op : Command} {s : State}

/-! ### Accepted commands -/

/-- The two operations of the engine ask for an open session, `FATAL` clear and operands in range (R101). -/
theorem rejectReason_exchange (hop : op = .sendRecv ∨ op = .sendGetRsp) (hopen : s.session ≠ .closed)
    (hfatal : s.fatal = false) (hrange : s.regs.dataLen.toNat ≤ P.maxDataLen.val)
    (hexpect : op = .sendRecv → s.regs.rxExpectLen.toNat ≤ 252) : rejectReason P op s = none :=
  rejectReason_eq_none_iff.2
    ⟨fun _ => isOpen_iff.2 hopen, by obtain rfl | rfl := hop <;> simp, fun _ => hfatal, fun _ => hrange, hexpect⟩

/-- Settles O35: the start of a command, then the serialized descriptor and a `goto`. -/
theorem sendRecvIsAccepted : Obligations.SendRecvIsAccepted := by
  intro s hidle hopen hfatal hrange hexpect
  have hcheck := rejectReason_exchange (P := Config.params) (.inl rfl) hopen hfatal hrange fun _ => hexpect
  refine ⟨_, exec_accepted (op := .sendRecv) hidle hcheck, resultsWiped_of_mem rfl, ?_⟩
  simp only [acceptCommand, acceptSendRecv, serialize_startCommon]
  rfl

/-! ### The write and the delays -/

/-- Settles O36, by whether the answer counts as sent. -/
theorem modeASendIsFatalWhenShort : Obligations.ModeASendIsFatalWhenShort := by
  intro f op s hfsm htx
  rw [exec_pending (i := .wireCmd f) rfl (by simp [outbound, hfsm, htx]), sendBytes_aWrite hfsm, logCall_dropWrite,
    afterWriteA]
  split <;> rfl

/-- Settles O37: a delay is one silent step. -/
theorem delaysLeadToReads : Obligations.DelaysLeadToReads := by
  refine fun s hagenda => ⟨fun hfsm => ?_, fun hfsm => ?_⟩
  · rw [step_of_agenda_nil hfsm (by decide) hagenda, blockStep_aDelay hfsm]; rfl
  · rw [step_of_agenda_nil hfsm (by decide) hagenda, blockStep_bDelay hfsm]; rfl

/-! ### The read -/

/-- An inbound row at Mode A's read answers it with the frame's first `RECV_LEN` bytes (R153). -/
theorem exec_inbound_aRead {i : Instr} {frame : List Byte} (henc : encode i = .inbound frame)
    (hfsm : s.fsm = .run op .aRead) :
    exec i s = .next (receive Config.params s.ctr.recvLen (.data (frame.take s.ctr.recvLen)) s) := by
  have hpart : framePart s s.ctr.recvLen frame = frame.take s.ctr.recvLen := by simp [framePart, hfsm]
  rw [exec_of_encode_inbound henc, deliver_pending (readWant_aRead hfsm), hpart]

/-- A status frame is acted on by its four bytes alone (R152, R172). -/
theorem exec_inStatus_aRead (hfsm : s.fsm = .run op .aRead) (hfour : 4 ≤ s.ctr.recvLen) {trailing : List Byte}
    (hlen : s.ctr.recvLen ≤ trailing.length + 4) (b lo hi : Byte) :
    exec (.inStatus b lo hi trailing) s = .next
      (afterClassA op (parseStatus Config.params [0x04#8, b, lo, hi])
        (wipeRx (logCall (.busRead s.ctr.recvLen) s))) := by
  rw [exec_inbound_aRead (i := .inStatus b lo hi trailing) rfl hfsm,
    receive_aRead_of_class hfsm (classifyA_statusFrame hfour hlen b lo hi)]
  cases hclass : parseStatus Config.params [0x04#8, b, lo, hi] with
  | dat p => exact absurd hclass parseStatus_ne_dat
  | nak | st c | unmapped => rfl

/-- Settles O59: no byte after the fourth is in what the frame leads to. -/
theorem bytesAfterStatusFrameDoNotMatter : Obligations.BytesAfterStatusFrameDoNotMatter := by
  intro b lo hi x y op s hfsm hx hy
  rw [exec_inStatus_aRead hfsm (by omega) (by omega), exec_inStatus_aRead hfsm (by omega) (by omega)]

/-- Settles O38, by the checksum, then by what the map makes of the status byte. -/
theorem modeAStatusFrameOutcome : Obligations.ModeAStatusFrameOutcome := by
  intro op b lo hi trailing s hfsm hfour hlen u v ended k
  have hended (c : StatusCode) (hnak : c ≠ .nak) (hawake : c ≠ .awake) :
      afterClassA op (.st c) u = ended (statusIndex c) := afterClassA_st_final hnak hawake op u
  rw [exec_inStatus_aRead hfsm hfour hlen, parseStatus_four]
  refine congrArg Host.Outcome.next ?_
  by_cases hcrc : Config.crc16 [0x04#8, b] = le16 lo hi
  · rw [if_pos hcrc, if_pos (show Config.params.crc16 [0x04#8, b] = le16 lo hi from hcrc)]
    change afterClassA op ((Config.statusMap b).elim .unmapped .st) u = _
    cases Config.statusMap b with
    | none => rfl
    | some c =>
      cases c with
      | nak => exact afterNakA_eq op u
      | awake =>
        by_cases hleft : 0 < s.ctr.outerLeft - 1
        · exact (afterStatusA_awake_resend (s := u) hleft op).trans (if_pos hleft).symm
        · exact (afterStatusA_awake_last (s := u) hleft op).trans (if_neg hleft).symm
      | success | checkMacMiscompare | parseError | executionError | communicationError | eccFault =>
        exact hended _ (by decide) (by decide)
  · rw [if_neg hcrc, if_neg (show ¬ Config.params.crc16 [0x04#8, b] = le16 lo hi from hcrc)]
    exact hended .communicationError (by decide) (by decide)

/-- The step of a data frame of the expected length, as one update of the state (R157, R158). -/
theorem exec_inData_aRead {n lo hi : Byte} {p : List Byte} (hfsm : s.fsm = .run op .aRead)
    (hwf : (Instr.inData n p lo hi).wellFormed = true) (hrecv : s.ctr.recvLen = n.toNat) :
    exec (.inData n p lo hi) s = .next
      { s with rxbuf := Buffer.wiped, txbuf := Buffer.wiped, fsm := .idle, done := true,
               ctr := { s.ctr with outerLeft := s.ctr.outerLeft - 1 },
               result := if Config.crc16 (n :: p) = le16 lo hi
                         then { kind := .payload, status := 0#3, len := s.regs.rxExpectLen, reason := .none }
                         else { kind := .status, status := 5#3, len := 0#8, reason := .none },
               env := called s (.busRead s.ctr.recvLen) s,
               mem := storedIf (Config.crc16 (n :: p) = le16 lo hi) p s.mem } := by
  obtain ⟨htotal, -⟩ := wellFormed_inData_iff.1 hwf
  have hall : (dataFrameBytes n p lo hi).take s.ctr.recvLen = dataFrameBytes n p lo hi :=
    List.take_of_length_le (by rw [length_dataFrameBytes]; omega)
  have hclass : classifyA Config.params s.ctr.recvLen (.data (dataFrameBytes n p lo hi)) =
      if Config.crc16 (n :: p) = le16 lo hi then .dat p else .st .communicationError :=
    hrecv ▸ classifyA_dataFrame hwf
  rw [exec_inbound_aRead (i := .inData n p lo hi) rfl hfsm, hall, receive_aRead_of_class hfsm hclass]
  by_cases hcrc : Config.crc16 (n :: p) = le16 lo hi
  · simp only [hcrc, if_true, storedIf, copyPayload, storeResult, afterClassA_dat, finish, wipeTx, spendOuter, wipeRx,
      logCall, called]
  · simp only [hcrc, if_false, storedIf, copyPayload,
      afterClassA_st_final (c := .communicationError) (by decide) (by decide), statusIndex, finish, wipeTx, spendOuter,
      wipeRx, logCall, called]

/-- Settles O39: the step as one update, and what it leaves in memory. -/
theorem modeADataFrameOutcome : Obligations.ModeADataFrameOutcome := by
  intro op n p lo hi s hfsm hmem hwf hrecv _
  exact ⟨_, exec_inData_aRead hfsm hwf hrecv, rfl, storedIf_invalid, bytesAt_storedIf hmem,
    fun _ => loadByte_storedIf_outside⟩

/-- Settles O40: the answer is a NAK, which the cap ends or the delay follows. -/
theorem modeAMalformedAnswerIsNak : Obligations.ModeAMalformedAnswerIsNak := by
  intro P op r s hfsm _ hmalformed u
  rw [receive_aRead_of_class hfsm (classifyA_malformed hmalformed)]
  simp only [u, afterClassA, copyPayload, afterNakA_eq, bump, gotoLabel, finish, wipeTx, spendOuter, countNak, wipeRx,
    logCall, called]
  rfl

end Sys2Proof.Machine
end

