-- ==== Sys2Proof/Proofs/ModeALoops.lean ====
section
/-! PROOFS. The two loops of Mode A: the outer one, which resends on Awake and is bounded by `NUM_RETRIES` (R154, R159),
and the inner one, which re-reads on NAK and has no bound of its own (R155, R198). -/

namespace Sys2Proof.Machine

variable {P : Params} {op : Command} {s : State}

@[simp] theorem writesIn_delay (t : BitVec 32) (calls : List PortCall) :
    writesIn (.delay t :: calls) = writesIn calls := List.countP_cons_of_neg Bool.false_ne_true

@[simp] theorem dropWrite_writeAnswers (s : State) : (dropWrite s).env.writeAnswers = s.env.writeAnswers.tail := by
  unfold dropWrite; split <;> simp [*]

@[simp] theorem spendOuter_outerLeft (s : State) : (spendOuter s).ctr.outerLeft = s.ctr.outerLeft - 1 := rfl

@[simp] theorem spendOuter_recvLen (s : State) : (spendOuter s).ctr.recvLen = s.ctr.recvLen := rfl

@[simp] theorem spendOuter_txbuf (s : State) : (spendOuter s).txbuf = s.txbuf := rfl

@[simp] theorem spendOuter_env (s : State) : (spendOuter s).env = s.env := rfl

@[simp] theorem countNak_regs (s : State) : (countNak s).regs = s.regs := rfl

@[simp] theorem countNak_recvLen (s : State) : (countNak s).ctr.recvLen = s.ctr.recvLen := rfl

@[simp] theorem countNak_env (s : State) : (countNak s).env = s.env := rfl

/-! ### The delay and the read -/

/-- `s` after the delay and the read of Mode A, before the answer's classification is acted on (R153). -/
def reread (op : Command) (s : State) : State :=
  wipeRx (logCall (.busRead s.ctr.recvLen) (dropRead (gotoLabel op .aRead (logCall (.delay s.regs.execTime) s))))

@[simp] theorem reread_regs (op : Command) (s : State) : (reread op s).regs = s.regs := by simp [reread]

@[simp] theorem reread_ctr (op : Command) (s : State) : (reread op s).ctr = s.ctr := by simp [reread]

@[simp] theorem reread_txbuf (op : Command) (s : State) : (reread op s).txbuf = s.txbuf := by simp [reread]

@[simp] theorem reread_calls (op : Command) (s : State) :
    (reread op s).env.calls = .busRead s.ctr.recvLen :: .delay s.regs.execTime :: s.env.calls := by simp [reread]

@[simp] theorem reread_readAnswers (op : Command) (s : State) :
    (reread op s).env.readAnswers = s.env.readAnswers.tail := by simp [reread]

@[simp] theorem reread_writeAnswers (op : Command) (s : State) :
    (reread op s).env.writeAnswers = s.env.writeAnswers := by simp [reread]

/-- Two block steps at A_DELAY are the delay and the read of the next answer. -/
theorem blockSteps_two_aDelay {r : ReadAnswer} {rest : List ReadAnswer} {v : Classified}
    (hfsm : s.fsm = .run op .aDelay) (hanswers : s.env.readAnswers = r :: rest)
    (hclass : classifyA P s.ctr.recvLen (clipAnswer s.ctr.recvLen r) = v) :
    blockSteps P 2 s = afterClassA op v (copyPayload v (reread op s)) := by
  have hdelay : blockStep P s = gotoLabel op .aRead (logCall (.delay s.regs.execTime) s) := blockStep_aDelay hfsm P
  have hwant : readWant (blockStep P s) = some s.ctr.recvLen := by simp [hdelay, readWant]
  have hanswer : readAnswer s.ctr.recvLen (blockStep P s) = clipAnswer s.ctr.recvLen r :=
    readAnswer_listed (by simpa [hdelay] using hanswers) _
  rw [blockSteps_two, blockStep_of_readWant hwant, hanswer,
    receive_aRead_of_class (op := op) (v := v) (by simp [hdelay]) (by simpa [hdelay] using hclass), hdelay]
  rfl

/-! ### The inner loop (R155, R198) -/

/-- Without a cap a NAK, malformed or mapped, leads back to the delay. -/
theorem blockSteps_two_nak {r : ReadAnswer} {rest : List ReadAnswer} (hfsm : s.fsm = .run op .aDelay)
    (hcap : s.regs.nakCap = 0#8) (hanswers : s.env.readAnswers = r :: rest)
    (hnak : classifyA P s.ctr.recvLen (clipAnswer s.ctr.recvLen r) = .nak ∨
      classifyA P s.ctr.recvLen (clipAnswer s.ctr.recvLen r) = .st .nak) :
    blockSteps P 2 s = gotoLabel op .aDelay (countNak (reread op s)) := by
  have huncapped := afterNakA_uncapped (s := reread op s) (by simpa using hcap) op
  obtain hmalformed | hmapped := hnak
  · exact (blockSteps_two_aDelay hfsm hanswers hmalformed).trans huncapped
  · exact (blockSteps_two_aDelay hfsm hanswers hmapped).trans huncapped

/-- Settles O42, by induction on the answers: each is one more delay and read. -/
theorem uncappedNakLoopNeverEnds : Obligations.UncappedNakLoopNeverEnds := by
  intro P op s n rs rest hfsm hcap hanswers hlen hnak
  subst hlen
  induction rs generalizing s with
  | nil => exact ⟨hfsm, rfl⟩
  | cons r rs ih =>
    obtain ⟨hhead, htail⟩ := List.forall_mem_cons.1 hnak
    rw [blockSteps_two_mul_cons, blockSteps_two_nak hfsm hcap hanswers hhead]
    simpa using ih (s := gotoLabel op .aDelay (countNak (reread op s))) rfl (by simpa using hcap) (by simp [hanswers])
      (by simpa using htail)

/-! ### The outer loop (R154, R159) -/

/-- `s` after its frame is sent from A_WRITE (R153). -/
def sentA (op : Command) (s : State) : State :=
  gotoLabel op .aDelay
    { logCall (.busWrite s.txbuf.bytes) (dropWrite s) with ctr := { s.ctr with nakCnt := 0 } }

@[simp] theorem sentA_fsm (op : Command) (s : State) : (sentA op s).fsm = .run op .aDelay := rfl

@[simp] theorem sentA_recvLen (op : Command) (s : State) : (sentA op s).ctr.recvLen = s.ctr.recvLen := rfl

@[simp] theorem sentA_outerLeft (op : Command) (s : State) : (sentA op s).ctr.outerLeft = s.ctr.outerLeft := rfl

@[simp] theorem sentA_txbuf (op : Command) (s : State) : (sentA op s).txbuf = s.txbuf := by simp [sentA]

@[simp] theorem sentA_calls (op : Command) (s : State) :
    (sentA op s).env.calls = .busWrite s.txbuf.bytes :: s.env.calls := by simp [sentA]

@[simp] theorem sentA_readAnswers (op : Command) (s : State) :
    (sentA op s).env.readAnswers = s.env.readAnswers := by simp [sentA]

@[simp] theorem sentA_writeAnswers (op : Command) (s : State) :
    (sentA op s).env.writeAnswers = s.env.writeAnswers.tail := by simp [sentA]

/-- The next write counts as sent: its listed answer is from 2 to the frame's length (R123, R125). -/
def NextWriteSent (s : State) : Prop := ∃ w ws, s.env.writeAnswers = w :: ws ∧ 2 ≤ w ∧ w ≤ s.txbuf.len

theorem blockStep_aWrite_sent (hfsm : s.fsm = .run op .aWrite) (hsent : NextWriteSent s) (P : Params) :
    blockStep P s = sentA op s := by
  obtain ⟨w, ws, hlisted, hlo, hhi⟩ := hsent
  rw [blockStep_of_outbound (bytes := s.txbuf.bytes) (by simp [outbound, hfsm]), sendBytes_aWrite hfsm, length_bytes,
    writeAnswer_listed hlisted hhi, afterWriteA, if_neg (by omega)]
  simp [sentA]

/-- A frame sent is not the end: the delay and the read are still to come (R153). -/
theorem fsm_blockSteps_lt_three (hfsm : s.fsm = .run op .aWrite) (hsent : NextWriteSent s) {n : Nat} (hn : n < 3) :
    (blockSteps P n s).fsm ≠ .idle := by
  have hdelay := blockStep_aDelay (sentA_fsm op s) P
  match n, hn with
  | 0, _ => simp [blockSteps, hfsm]
  | 1, _ => simp [blockSteps, blockStep_aWrite_sent hfsm hsent]
  | 2, _ => simp [blockSteps, blockStep_aWrite_sent hfsm hsent, hdelay]

/-- One outer iteration answered Awake: a write, a delay and a read. -/
theorem blockSteps_three_awake {r : ReadAnswer} {rest : List ReadAnswer} (hfsm : s.fsm = .run op .aWrite)
    (hsent : NextWriteSent s) (hanswers : s.env.readAnswers = r :: rest)
    (hawake : classifyA P s.ctr.recvLen (clipAnswer s.ctr.recvLen r) = .st .awake) :
    blockSteps P 3 s = afterStatusA op .awake (reread op (sentA op s)) := by
  calc blockSteps P 3 s = blockSteps P 2 (blockStep P s) := rfl
    _ = blockSteps P 2 (sentA op s) := by rw [blockStep_aWrite_sent hfsm hsent]
    _ = _ := blockSteps_two_aDelay (sentA_fsm op s) ((sentA_readAnswers op s).trans hanswers) hawake

/-- `s` after an outer iteration that is answered Awake and resent (R154). -/
def resent (op : Command) (s : State) : State := gotoLabel op .aWrite (spendOuter (reread op (sentA op s)))

theorem blockSteps_three_mul_cons (P : Params) (r : ReadAnswer) (rs : List ReadAnswer) (s : State) :
    blockSteps P (3 * (r :: rs).length) s = blockSteps P (3 * rs.length) (blockSteps P 3 s) := by
  rw [List.length_cons, Nat.mul_succ, Nat.add_comm, blockSteps_add]

/-- A run of outer iterations, as many as are left, each sent and each answered Awake: the last of them ends the
operation, and none before it does (R154, R159). -/
theorem blockSteps_awake {rs rest : List ReadAnswer} (hrs : rs ≠ []) (hfsm : s.fsm = .run op .aWrite)
    (houter : s.ctr.outerLeft = rs.length) (hwrites : s.env.writeAnswers.length = rs.length)
    (hsent : ∀ w ∈ s.env.writeAnswers, 2 ≤ w ∧ w ≤ s.txbuf.len) (hanswers : s.env.readAnswers = rs ++ rest)
    (hawake : ∀ r ∈ rs, classifyA P s.ctr.recvLen (clipAnswer s.ctr.recvLen r) = .st .awake) :
    (blockSteps P (3 * rs.length) s).fsm = .idle ∧
      (blockSteps P (3 * rs.length) s).result = { kind := .status, status := 4#3, len := 0#8, reason := .none } ∧
      (blockSteps P (3 * rs.length) s).ctr.outerLeft = 0 ∧
      writesIn (blockSteps P (3 * rs.length) s).env.calls = writesIn s.env.calls + rs.length ∧
      ∀ n, n < 3 * rs.length → (blockSteps P n s).fsm ≠ .idle := by
  induction rs generalizing s with
  | nil => exact absurd rfl hrs
  | cons r rs ih =>
    obtain ⟨w, ws, hlisted⟩ := List.exists_cons_of_length_eq_add_one hwrites
    rw [hlisted] at hwrites hsent
    obtain ⟨hhead, htail⟩ := List.forall_mem_cons.1 hawake
    obtain ⟨hw, hws⟩ := List.forall_mem_cons.1 hsent
    have hnext : NextWriteSent s := ⟨w, ws, hlisted, hw⟩
    have hthree := blockSteps_three_awake hfsm hnext hanswers hhead
    rw [blockSteps_three_mul_cons]
    cases rs with
    | nil =>
      rw [hthree, afterStatusA_awake_last (by simp [houter])]
      refine ⟨rfl, rfl, by simp [blockSteps, houter], by simp [blockSteps], fun n hn => ?_⟩
      exact fsm_blockSteps_lt_three hfsm hnext hn
    | cons r' rs' =>
      have hresent : blockSteps P 3 s = resent op s :=
        hthree.trans (afterStatusA_awake_resend (by simp [houter]) op)
      obtain ⟨hidle, hresult, hleft, hcount, hrunning⟩ := ih (s := resent op s) (List.cons_ne_nil _ _) rfl
        (by simp [resent, houter]) (by simpa [resent, hlisted] using hwrites) (by simpa [resent, hlisted] using hws)
        (by simp [resent, hanswers]) (by simpa [resent] using htail)
      rw [hresent]
      refine ⟨hidle, hresult, hleft, hcount.trans ?_, fun n hn => ?_⟩
      · simp [resent]; omega
      · by_cases hlt : n < 3
        · exact fsm_blockSteps_lt_three hfsm hnext hlt
        · obtain ⟨m, rfl⟩ := Nat.exists_eq_add_of_le (Nat.not_lt.1 hlt)
          rw [blockSteps_add, hresent]
          exact hrunning m (by rw [List.length_cons] at hn; omega)

/-- Settles O41: ten iterations are left, and each is sent and answered by the same Awake status frame. -/
theorem modeAExhaustsOnAwake : Obligations.ModeAExhaustsOnAwake := by
  intro P op b lo hi trailing ws rest s hfsm houter hrecv hcrc hmap hlen hsent hwrites hanswers
  subst hwrites
  have hawake : classifyA P s.ctr.recvLen (clipAnswer s.ctr.recvLen (.data (statusFrameBytes b lo hi trailing))) =
      .st .awake := by
    rw [clipAnswer, classifyA_statusFrame (by omega) (by omega), parseStatus_four, if_pos hcrc, hmap]
    rfl
  exact blockSteps_awake (rs := List.replicate 10 (.data (statusFrameBytes b lo hi trailing))) (by simp) hfsm
    (by simpa using houter) (by simpa using hlen) hsent hanswers (by simpa using hawake)

end Sys2Proof.Machine
end

