-- ==== Sys2Proof/Proofs/ModeBFamily.lean ====
section
/-! PROOFS. Mode B (R160 to R167): its acceptance and its labels one by one, with the frame of each step. -/

namespace Sys2Proof.Machine

variable {P : Params} {op : Command} {s : State}

/-- Settles O43: the start of a command, then the serialized descriptor and a `goto`. -/
theorem sendGetRspIsAccepted : Obligations.SendGetRspIsAccepted := by
  intro s hidle hopen hfatal hrange
  have hcheck := rejectReason_exchange (P := Config.params) (.inr rfl) hopen hfatal hrange (fun h => by cases h)
  refine ⟨_, exec_accepted (op := .sendGetRsp) hidle hcheck, resultsWiped_of_mem rfl, ?_⟩
  simp only [acceptCommand, acceptSendGetRsp, serialize_startCommon]
  rfl

/-- Settles O44, by whether the answer counts as sent; `TXBUF` is wiped before that is asked. -/
theorem modeBSendIsNullWhenShort : Obligations.ModeBSendIsNullWhenShort := by
  intro f op s hfsm htx
  rw [exec_pending (i := .wireCmd f) rfl (by simp [outbound, hfsm, htx]), sendBytes_bWrite hfsm, logCall_dropWrite,
    afterWriteB]
  split <;> rfl

/-! ### The first read -/

/-- What was read into `RXBUF` leaves no trace in a NULL result (R74, R167). -/
theorem nullResult_loadRx (why : FailReason) (r : ReadAnswer) (s : State) :
    nullResult why (loadRx r s) = nullResult why s := rfl

/-- A chunk of another length than four bytes is not retried (R161). -/
theorem afterRead1B_short {c : List Byte} (h : c.length ≠ 4) (P : Params) (op : Command) (s : State) :
    afterRead1B P op (.data c) s = nullResult .readError s := (if_neg h).trans (nullResult_loadRx _ _ _)

/-- A chunk that is no status frame announces a total length in range, or is refused (R162, R169). -/
theorem afterRead1B_chunk {c : List Byte} (h : c.length = 4) (hfirst : byteAt c 0 ≠ 0x04#8) (P : Params) (op : Command)
    (s : State) :
    afterRead1B P op (.data c) s =
      if 5 ≤ (byteAt c 0).toNat ∧ (byteAt c 0).toNat ≤ s.regs.rxMaxLen.toNat then
        gotoLabel op .bRead2
          { loadRx (.data c) s with ctr := { s.ctr with frameTotal := (byteAt c 0).toNat } }
      else nullResult .badLength s := (if_pos h).trans (if_neg hfirst)

/-- Settles O46, by the answer: `Err` by the attempt, a chunk by its length and its first byte. -/
theorem modeBFirstChunkOutcome : Obligations.ModeBFirstChunkOutcome := by
  intro P op r s hfsm e null
  have hnull (why : FailReason) : nullResult why (logCall (.busRead 4) s) = null why := rfl
  rw [receive_bRead1 hfsm]
  refine ⟨?err, ?short, ?chunk⟩
  case err =>
    rintro rfl
    rw [afterRead1B, nullResult_loadRx, hnull]
    rfl
  case short =>
    rintro c rfl hlen
    rw [afterRead1B_short hlen, hnull]
  case chunk =>
    rintro c rfl hlen hfirst
    rw [afterRead1B_chunk hlen hfirst, hnull]
    rfl

/-- A status frame is validated as a data frame with a payload of one byte (R164, R166); what follows its four bytes
in the row is not part of the chunk (log 7). -/
theorem exec_inStatus_bRead1 (hfsm : s.fsm = .run op .bRead1) (b lo hi : Byte) (trailing : List Byte) :
    exec (.inStatus b lo hi trailing) s = .next
      { s with rxbuf := Buffer.wiped, fsm := .idle, done := true, ctr := { s.ctr with frameTotal := 4 },
               result := if Config.crc16 [0x04#8, b] = le16 lo hi
                         then { kind := .payload, status := 0#3, len := 1#8, reason := .none }
                         else { kind := .null, status := 0#3, len := 0#8, reason := .checksum },
               env := called s (.busRead 4) s,
               mem := storedIf (Config.crc16 [0x04#8, b] = le16 lo hi) [b] s.mem } := by
  have hpart : framePart s 4 (statusFrameBytes b lo hi trailing) = dataFrameBytes 0x04#8 [b] lo hi := by
    simp [framePart, hfsm, statusFrameBytes, dataFrameBytes]
  have hread (t : State) : afterRead1B Config.params op (.data (dataFrameBytes 0x04#8 [b] lo hi)) t =
      validateB Config.params
        (loadRx (.data (dataFrameBytes 0x04#8 [b] lo hi)) { t with ctr := { t.ctr with frameTotal := 4 } }) := rfl
  rw [exec_of_encode_inbound (i := .inStatus b lo hi trailing) rfl, deliver_pending (readWant_bRead1 hfsm), hpart,
    receive_bRead1 hfsm, hread, validateB_dataFrame rfl]
  rfl

/-- Settles O45: the step as one update, and what it leaves in memory. -/
theorem modeBStatusFrameOutcome : Obligations.ModeBStatusFrameOutcome := by
  intro op b lo hi trailing s hfsm hmem
  refine ⟨_, exec_inStatus_bRead1 hfsm b lo hi trailing, rfl, storedIf_invalid, fun hcrc => ?_, fun a ha => ?_⟩
  · simpa [bytesAt] using bytesAt_storedIf (p := [b]) hmem hcrc
  · exact loadByte_storedIf_outside (by rw [List.length_singleton]; omega)

/-! ### The second read -/

/-- A tail that completes the `N` bytes is validated with those already in `RXBUF` (R163). -/
theorem receive_bRead2_complete {frame tail : List Byte} (hfsm : s.fsm = .run op .bRead2)
    (htail : tail.length = s.ctr.frameTotal - 4) (hframe : s.rxbuf.bytes ++ tail = frame) (n : Nat) :
    receive P n (.data tail) s =
      validateB P (loadRx (.data frame) (logCall (.busRead n) s)) := by
  rw [receive_bRead2 hfsm, ← hframe]
  exact if_pos htail

/-- The step of a data frame whose head is in `RXBUF`, as one update of the state (R164, R165). -/
theorem exec_inData_bRead2 {n lo hi : Byte} {p : List Byte} (hfsm : s.fsm = .run op .bRead2)
    (hwf : (Instr.inData n p lo hi).wellFormed = true) (htotal : s.ctr.frameTotal = n.toNat) (hn : 5 ≤ n.toNat)
    (hhead : s.rxbuf.bytes = (dataFrameBytes n p lo hi).take 4) :
    exec (.inData n p lo hi) s = .next
      { s with rxbuf := Buffer.wiped, fsm := .idle, done := true,
               result := if Config.crc16 (n :: p) = le16 lo hi
                         then { kind := .payload, status := 0#3, len := BitVec.ofNat 8 p.length, reason := .none }
                         else { kind := .null, status := 0#3, len := 0#8, reason := .checksum },
               env := called s (.busRead (n.toNat - 4)) s,
               mem := storedIf (Config.crc16 (n :: p) = le16 lo hi) p s.mem } := by
  obtain ⟨hlen, -⟩ := wellFormed_inData_iff.1 hwf
  have hfour : s.rxbuf.len = 4 := by
    rw [← length_bytes, hhead, List.length_take, length_dataFrameBytes]; omega
  have hpart : framePart s (n.toNat - 4) (dataFrameBytes n p lo hi) = (dataFrameBytes n p lo hi).drop 4 := by
    simp only [framePart, hfsm, hfour]
    exact List.take_of_length_le (by rw [List.length_drop, length_dataFrameBytes]; omega)
  have hframe : s.rxbuf.bytes ++ (dataFrameBytes n p lo hi).drop 4 = dataFrameBytes n p lo hi := by
    rw [hhead, List.take_append_drop]
  rw [exec_of_encode_inbound (i := .inData n p lo hi) rfl, deliver_pending (readWant_bRead2 hfsm), htotal, hpart,
    receive_bRead2_complete hfsm (by rw [List.length_drop, length_dataFrameBytes]; omega) hframe,
    validateB_dataFrame (by rw [logCall_ctr, htotal, hlen])]
  rfl

/-- Settles O47: the step as one update, and what it leaves in memory. -/
theorem modeBDataFrameOutcome : Obligations.ModeBDataFrameOutcome := by
  intro op n p lo hi s hfsm hmem hwf htotal hn hhead
  exact ⟨_, exec_inData_bRead2 hfsm hwf htotal hn hhead, rfl, storedIf_invalid, bytesAt_storedIf hmem,
    fun _ => loadByte_storedIf_outside⟩

/-- Settles O48: neither `Err` nor a tail of another length is assembled. -/
theorem modeBShortTailIsAbandoned : Obligations.ModeBShortTailIsAbandoned := by
  intro P op r s hfsm hshort
  rw [receive_bRead2 hfsm]
  cases r with
  | err => rfl
  | data t => exact if_neg (hshort t rfl)

end Sys2Proof.Machine
end

