-- ==== Sys2Proof/Proofs/ReadSafety.lean ====
section
/-! PROOFS. What a read may lead to, whatever its answer: no success without a checksum (R121, R122, R168), and no byte
left in a scratch buffer at the end of an operation (R170). -/

namespace Sys2Proof.Machine

variable {P : Params} {op : Command} {s : State} {r : ReadAnswer}

/-! ### Results that claim success (R168) -/

/-- A payload, OK, or the status Success. -/
def Result.Succeeds (a : Result) : Prop := a.kind = .payload ∨ a.kind = .ok ∨ (a.kind = .status ∧ a.status = 0#3)

/-- Every other kind of result, the cleared registers of a running operation (R107) among them. -/
theorem not_succeeds_of_kind {a : Result} (h : a.kind ∉ [.payload, .ok, .status]) : ¬ a.Succeeds := by
  simp only [List.mem_cons, List.not_mem_nil, or_false, not_or] at h
  obtain ⟨hpayload, hok, hstatus⟩ := h
  exact fun hsucc => hsucc.elim hpayload fun hrest => hrest.elim hok fun hst => hstatus hst.1

theorem not_succeeds_cleared (h : s.result = Result.cleared) : ¬ s.result.Succeeds := by
  rw [h]; exact not_succeeds_of_kind (by decide)

theorem not_succeeds_raise {kind : ResultKind} (h : kind ∉ [.payload, .ok, .status]) (why : FailReason) (s : State) :
    ¬ (raise kind why s).result.Succeeds := not_succeeds_of_kind h

theorem not_succeeds_nullResult (why : FailReason) (s : State) : ¬ (nullResult why s).result.Succeeds :=
  not_succeeds_raise (by decide) why _

/-- Any status but the first (R24). -/
theorem not_succeeds_status {st : BitVec 3} (h : st ≠ 0#3) (len : Byte) (why : FailReason) :
    ¬ Result.Succeeds { kind := .status, status := st, len := len, reason := why } := by
  rintro (hkind | hkind | ⟨-, hst⟩)
  · cases hkind
  · cases hkind
  · exact h hst

/-! ### The checksum that a success rests on, label by label -/

/-- The two bytes after the first `k` of a frame are their checksum, low byte first (R116). -/
def Carries (P : Params) (frame : List Byte) (k : Nat) : Prop :=
  P.crc16 (frame.take k) = le16 (frame.getD k 0x00) (frame.getD (k + 1) 0x00)

theorem frameChecks_iff_carries {f : List Byte} {n : Nat} (hlen : f.length = n) (hn : 3 ≤ n) :
    frameChecks P f = true ↔ Carries P f (n - 2) := by
  subst hlen
  rw [frameChecks_eq hn, decide_eq_true_eq, Carries, show f.length - 2 + 1 = f.length - 1 by omega]
  rfl

theorem frameChecks_head_iff_carries {f : List Byte} (h : 4 ≤ f.length) :
    frameChecks P (slice f 0 3) = true ↔ Carries P f 2 := by
  rw [frameChecks_head h, decide_eq_true_eq]
  rfl

/-- W_READ: only an acknowledgment ends the wake procedure with OK (R135). -/
theorem wakeAck_of_succeeds (hclear : s.result = Result.cleared) (h : (afterWakeRead P op r s).result.Succeeds) :
    wakeAck P r = true := by
  by_contra hack
  rw [afterWakeRead_of_not_acknowledges (mt wakeAck_iff.2 hack), wakeRetry] at h
  split at h
  · exact not_succeeds_raise (by decide) _ _ h
  · exact not_succeeds_cleared hclear h

/-- A wake acknowledgment is four bytes that check (R127). -/
theorem exists_of_wakeAck (h : wakeAck P r = true) :
    ∃ bytes, r = .data bytes ∧ bytes.length = 4 ∧ frameChecks P bytes = true := by
  cases r with
  | err => cases h
  | data bytes =>
    obtain ⟨hlen, hchecks⟩ := (Bool.and_eq_true _ _).mp h
    exact ⟨bytes, rfl, of_decide_eq_true hlen, hchecks⟩

/-- A_READ: an answer that is no NAK and no Communication-Error has a shape, and carries that shape's checksum (R151,
R152). -/
theorem carries_of_classifyA {n : Nat} (hn : 3 ≤ n) (hnak : classifyA P n r ≠ .nak)
    (herror : classifyA P n r ≠ .st .communicationError) :
    ∃ bytes, r = .data bytes ∧ bytes.length = n ∧
      if byteAt bytes 0 = 0x04#8 ∧ 4 ≤ n then Carries P bytes 2 else Carries P bytes (n - 2) := by
  cases r with
  | err => exact absurd rfl hnak
  | data bytes =>
    simp only [classifyA] at hnak herror
    by_cases hlen : bytes.length = n
    case neg => exact absurd (if_pos hlen) hnak
    case pos =>
      refine ⟨bytes, rfl, hlen, ?_⟩
      rw [if_neg (not_not.2 hlen)] at hnak herror
      split
      case isTrue hstatus =>
        rw [if_pos hstatus] at herror
        rw [← frameChecks_head_iff_carries (hlen ▸ hstatus.2)]
        by_contra hchecks
        exact herror (if_neg hchecks)
      case isFalse hstatus =>
        rw [if_neg hstatus] at hnak herror
        by_cases htotal : (byteAt bytes 0).toNat = n
        case neg => exact absurd (if_neg htotal) hnak
        case pos =>
          rw [if_pos htotal] at herror
          rw [← frameChecks_iff_carries hlen hn]
          by_contra hchecks
          exact herror (if_neg hchecks)

/-- A NAK is re-read, or ends Mode A with the status NAK (R155). -/
theorem not_succeeds_afterNakA (hclear : s.result = Result.cleared) : ¬ (afterNakA op s).result.Succeeds := by
  rw [afterNakA_eq]
  split
  · exact not_succeeds_cleared hclear
  · exact not_succeeds_status (by decide) _ _

theorem not_succeeds_communicationError (op : Command) (s : State) :
    ¬ (afterClassA op (.st .communicationError) s).result.Succeeds := by
  rw [afterClassA_st_final (by decide) (by decide)]
  exact not_succeeds_status (by decide) _ _

theorem classifyA_of_succeeds (hfsm : s.fsm = .run op .aRead) (hclear : s.result = Result.cleared) {n : Nat}
    (h : (receive P n r s).result.Succeeds) :
    classifyA P s.ctr.recvLen r ≠ .nak ∧ classifyA P s.ctr.recvLen r ≠ .st .communicationError := by
  refine ⟨fun hclass => ?_, fun hclass => ?_⟩
  · rw [receive_aRead_of_class hfsm hclass] at h
    exact not_succeeds_afterNakA (s := wipeRx (logCall (.busRead n) s)) hclear h
  · rw [receive_aRead_of_class hfsm hclass] at h
    exact not_succeeds_communicationError op _ h

/-- `VALIDATE` succeeds by the checksum alone (R164, R165). -/
theorem frameChecks_of_validateB {frame : List Byte} (h : (validateB P s).result.Succeeds)
    (hframe : s.rxbuf.bytes = frame) : frameChecks P frame = true := by
  subst hframe
  by_contra hchecks
  rw [validateB, if_neg hchecks] at h
  exact not_succeeds_nullResult _ _ h

/-- B_READ1: of all answers only a status frame ends Mode B with a payload (R162, R164). -/
theorem checks_of_afterRead1B (hclear : s.result = Result.cleared) (h : (afterRead1B P op r s).result.Succeeds) :
    ∃ bytes, r = .data bytes ∧ bytes.length = 4 ∧ frameChecks P bytes = true := by
  cases r with
  | err =>
    simp only [afterRead1B] at h
    split at h
    · exact absurd h (not_succeeds_cleared hclear)
    · exact absurd h (not_succeeds_nullResult _ _)
  | data c =>
    simp only [afterRead1B] at h
    split at h
    case isFalse => exact absurd h (not_succeeds_nullResult _ _)
    case isTrue hlen =>
      refine ⟨c, rfl, hlen, ?_⟩
      unfold classifyFirstB at h
      split at h
      · exact frameChecks_of_validateB h (bytes_ofBytes c)
      · split at h
        · exact absurd h (not_succeeds_cleared hclear)
        · exact absurd h (not_succeeds_nullResult _ _)

/-- B_READ2: only the announced `N` bytes end Mode B with a payload (R163, R164). -/
theorem checks_of_afterRead2B (h : (afterRead2B P r s).result.Succeeds) :
    ∃ tail, r = .data tail ∧ tail.length = s.ctr.frameTotal - 4 ∧ frameChecks P (s.rxbuf.bytes ++ tail) = true := by
  cases r with
  | err => exact absurd h (not_succeeds_nullResult _ _)
  | data tail =>
    simp only [afterRead2B] at h
    split at h
    case isTrue hlen => exact ⟨tail, rfl, hlen, frameChecks_of_validateB h (bytes_ofBytes _)⟩
    case isFalse => exact absurd h (not_succeeds_nullResult _ _)

/-! ### The statements -/

/-- Settles O57, by the label that reads: each succeeds only where its own test of the checksum does. -/
theorem checksumMismatchNeverSucceeds : Obligations.ChecksumMismatchNeverSucceeds := by
  intro P op label n r s hfsm hclear hwant hrecv hassembly hsucc
  change (receive P n r s).result.Succeeds at hsucc
  cases label with
  | wRead =>
    rw [receive_wRead hfsm] at hsucc
    obtain ⟨bytes, rfl, hlen, hchecks⟩ := exists_of_wakeAck (wakeAck_of_succeeds (s := logCall (.busRead n) s) hclear hsucc)
    exact ⟨bytes, rfl, fun _ => ⟨hlen, (frameChecks_iff_carries hlen (by decide)).1 hchecks⟩, nofun, nofun⟩
  | aRead =>
    obtain ⟨hnak, herror⟩ := classifyA_of_succeeds hfsm hclear hsucc
    obtain ⟨bytes, rfl, hlen, hcarries⟩ := carries_of_classifyA (hrecv rfl) hnak herror
    exact ⟨bytes, rfl, nofun, fun _ => ⟨hlen, hcarries⟩, nofun⟩
  | bRead1 =>
    rw [receive_bRead1 hfsm] at hsucc
    obtain ⟨bytes, rfl, hlen, hchecks⟩ := checks_of_afterRead1B (s := logCall (.busRead n) s) hclear hsucc
    exact ⟨bytes, rfl, fun _ => ⟨hlen, (frameChecks_iff_carries hlen (by decide)).1 hchecks⟩, nofun, nofun⟩
  | bRead2 =>
    rw [receive_bRead2 hfsm] at hsucc
    obtain ⟨tail, rfl, htail, hchecks⟩ := checks_of_afterRead2B hsucc
    obtain ⟨hfour, htotal⟩ := hassembly rfl
    rw [logCall_ctr] at htail
    have hlen : (s.rxbuf.bytes ++ tail).length = s.ctr.frameTotal := by
      rw [List.length_append, length_bytes]; omega
    exact ⟨tail, rfl, nofun, nofun, fun _ => ⟨hlen, (frameChecks_iff_carries hlen (by omega)).1 hchecks⟩⟩
  | sOpen | wWrite | tSleep | tClose | cWrite | aWrite | aDelay | bWrite | bDelay => simp [readWant, hfsm] at hwant

/-- Settles O58: the step keeps the invariant, which asks an IDLE block for wiped buffers. -/
theorem buffersAreWipedAtFinish : Obligations.BuffersAreWipedAtFinish := by
  intro s t hinv _ hstep hidle
  obtain ⟨htx, hrx⟩ := (everyStepKeepsInvariant s t hinv hstep).buffers_wiped hidle
  rw [htx, hrx]
  exact ⟨loadByte_wiped, rfl, loadByte_wiped, rfl⟩

end Sys2Proof.Machine
end

