-- ==== Sys2Proof/Proofs/FatalFrame.lean ====
section
/-! PROOFS. What each operation of the block does to `FATAL` (R111, R178, R179): a port step changes it by an open's
answer or by a Mode A write answered at most 1, the host never, and everything else leaves it as it is. -/

namespace Sys2Proof.Machine

variable {op : Command} {s : State}

/-! ### Answers that leave `FATAL` alone -/

@[simp] theorem startWake_fatal (op : Command) (s : State) : (startWake op s).fatal = s.fatal := rfl

@[simp] theorem afterWakeRead_fatal (P : Params) (op : Command) (r : ReadAnswer) (s : State) :
    (afterWakeRead P op r s).fatal = s.fatal := by
  unfold afterWakeRead wakeRetry
  split
  · rfl
  · split <;> rfl

@[simp] theorem afterClose_fatal (s : State) : (afterClose s).fatal = s.fatal := rfl

@[simp] theorem afterControlWrite_fatal (w : Int) (s : State) : (afterControlWrite w s).fatal = s.fatal := by
  unfold afterControlWrite; split <;> rfl

/-- The end of an outer iteration leaves `FATAL` to `done`. -/
theorem endOuter_fatal {done : State → State} (hdone : ∀ s, (done s).fatal = s.fatal) (awake : Bool) (s : State) :
    (endOuter op awake done s).fatal = s.fatal := by
  unfold endOuter
  split
  · rfl
  · exact hdone _

@[simp] theorem afterStatusA_fatal (op : Command) (c : StatusCode) (s : State) :
    (afterStatusA op c s).fatal = s.fatal := by
  rw [afterStatusA, endOuter_fatal fun _ => finish_fatal ..]

@[simp] theorem afterNakA_fatal (op : Command) (s : State) : (afterNakA op s).fatal = s.fatal := by
  unfold afterNakA
  split
  · rfl
  · exact afterStatusA_fatal op .nak _

@[simp] theorem afterClassA_fatal (op : Command) (v : Classified) (s : State) :
    (afterClassA op v s).fatal = s.fatal := by
  cases v with
  | nak => exact afterNakA_fatal op s
  | unmapped => rfl
  | dat p => rw [afterClassA, endOuter_fatal fun _ => finish_fatal ..]
  | st c =>
    simp only [afterClassA]
    split
    · exact afterNakA_fatal op s
    · exact afterStatusA_fatal op c s

@[simp] theorem copyPayload_fatal (v : Classified) (s : State) : (copyPayload v s).fatal = s.fatal := by
  cases v <;> rfl

@[simp] theorem afterReadA_fatal (P : Params) (op : Command) (r : ReadAnswer) (s : State) :
    (afterReadA P op r s).fatal = s.fatal := by simp [afterReadA]

@[simp] theorem nullResult_fatal (why : FailReason) (s : State) : (nullResult why s).fatal = s.fatal := rfl

@[simp] theorem afterWriteB_fatal (op : Command) (w : Int) (s : State) : (afterWriteB op w s).fatal = s.fatal := by
  unfold afterWriteB; split <;> rfl

@[simp] theorem validateB_fatal (P : Params) (s : State) : (validateB P s).fatal = s.fatal := by
  unfold validateB; split <;> rfl

@[simp] theorem classifyFirstB_fatal (P : Params) (op : Command) (c : List Byte) (s : State) :
    (classifyFirstB P op c s).fatal = s.fatal := by
  unfold classifyFirstB
  split
  · exact validateB_fatal P _
  · split <;> rfl

@[simp] theorem afterRead1B_fatal (P : Params) (op : Command) (r : ReadAnswer) (s : State) :
    (afterRead1B P op r s).fatal = s.fatal := by
  cases r with
  | err => simp only [afterRead1B]; split <;> rfl
  | data c => simp only [afterRead1B]; split <;> simp

@[simp] theorem afterRead2B_fatal (P : Params) (r : ReadAnswer) (s : State) : (afterRead2B P r s).fatal = s.fatal := by
  cases r with
  | err => rfl
  | data t => simp only [afterRead2B]; split <;> simp

/-- No read changes `FATAL`, whatever its answer. -/
@[simp] theorem afterRead_fatal (P : Params) (r : ReadAnswer) (s : State) : (afterRead P r s).fatal = s.fatal := by
  unfold afterRead
  cases s.fsm with
  | idle => rfl
  | run op label => cases label <;> simp

/-! ### The two answers that reach `FATAL` -/

/-- An open in `SETUP` sets `FATAL` or clears it, by its answer (R178, R179). -/
@[simp] theorem afterOpen_fatal (ok : Bool) (s : State) : (afterOpen ok s).fatal = !ok := by
  cases ok <;> rfl

/-- A Mode A write answered at most 1 sets `FATAL` (R156, R178). -/
theorem afterWriteA_fatal_short {w : Int} (h : w ≤ 1) (op : Command) (s : State) :
    (afterWriteA op w s).fatal = true := by
  rw [afterWriteA, if_pos h]; rfl

theorem afterWriteA_fatal_sent {w : Int} (h : ¬ w ≤ 1) (op : Command) (s : State) :
    (afterWriteA op w s).fatal = s.fatal := by
  rw [afterWriteA, if_neg h]; rfl

/-! ### A port step -/

/-- What a port step from `s` leaves in `t`'s `FATAL`: the verdict of an open, 1 after a short Mode A write, or the flag
as it was (R178, R179). -/
def FatalByPort (s t : State) : Prop :=
  (∃ op, s.fsm = .run op .sOpen ∧ t.fatal = !openAnswer s) ∨
    (∃ op, s.fsm = .run op .aWrite ∧ writeAnswer s.txbuf.len s ≤ 1 ∧ t.fatal = true) ∨ t.fatal = s.fatal

theorem fatalByPort_sendBytes {bytes : List Byte} (hout : outbound s = some bytes) :
    FatalByPort s (sendBytes bytes s) := by
  cases hfsm : s.fsm with
  | idle => simp [outbound, hfsm] at hout
  | run op label =>
    cases label with
    | aWrite =>
      have hbytes : s.txbuf.bytes = bytes := by simpa [outbound, hfsm] using hout
      have hlen : bytes.length = s.txbuf.len := by rw [← hbytes, length_bytes]
      rw [sendBytes_aWrite hfsm, hlen]
      by_cases hshort : writeAnswer s.txbuf.len s ≤ 1
      · exact .inr (.inl ⟨op, hfsm, hshort, afterWriteA_fatal_short hshort op _⟩)
      · exact .inr (.inr (by rw [afterWriteA_fatal_sent hshort, logCall_fatal, dropWrite_fatal]))
    | sOpen | wWrite | wRead | tSleep | tClose | cWrite | aDelay | aRead | bWrite | bRead1 | bDelay | bRead2 =>
      exact .inr (.inr (by simp [sendBytes, afterWrite, hfsm]))

theorem receive_fatal (P : Params) (n : Nat) (r : ReadAnswer) (s : State) : (receive P n r s).fatal = s.fatal := by
  rw [receive, afterRead_fatal, logCall_fatal]

theorem fatalByPort_silentStep (s : State) : FatalByPort s (silentStep s) := by
  cases hfsm : s.fsm with
  | idle => exact .inr (.inr (by simp [silentStep, hfsm]))
  | run op label =>
    cases label with
    | sOpen => exact .inl ⟨op, hfsm, by simp [silentStep, hfsm]⟩
    | wWrite | wRead | tSleep | tClose | cWrite | aWrite | aDelay | aRead | bWrite | bRead1 | bDelay | bRead2 =>
      exact .inr (.inr (by simp [silentStep, hfsm]))

theorem fatalByPort_blockStep (P : Params) (s : State) : FatalByPort s (blockStep P s) := by
  cases hout : outbound s with
  | some bytes => exact blockStep_of_outbound hout ▸ fatalByPort_sendBytes hout
  | none =>
    cases hwant : readWant s with
    | some n => exact .inr (.inr (by rw [blockStep_of_readWant hwant, receive_fatal, dropRead_fatal]))
    | none =>
      have hsilent : blockStep P s = silentStep s := by simp only [blockStep, hout, hwant]
      exact hsilent ▸ fatalByPort_silentStep s

/-! ### The host's transactions -/

theorem acceptCommand_fatal (P : Params) (op : Command) (s : State) : (acceptCommand P op s).fatal = s.fatal := by
  cases op <;> rfl

/-- A `CMD` write leaves `FATAL`, accepted or rejected (R102, R104). -/
theorem issueCommand_fatal (P : Params) (v : Byte) (s : State) : (issueCommand P v s).fatal = s.fatal := by
  unfold issueCommand
  cases commandOfCode v with
  | none => rfl
  | some op =>
    cases hcheck : rejectReason P op s with
    | some why => simp only [issue_rejected hcheck, rejectCommand_fatal, startCommon_fatal]
    | none => simp only [issue_accepted hcheck, acceptCommand_fatal, startCommon_fatal]

/-- `MemWrite` leaves `FATAL`: not even `CLEAR` releases it (R106). -/
theorem memWrite_fatal (P : Params) (a : HostAddr) (v : Byte) (s : State) : (memWrite P a v s).fatal = s.fatal := by
  by_cases hidle : s.fsm = .idle
  · rw [memWrite, whenIdle_idle hidle]
    split_ifs
    · exact issueCommand_fatal P v s
    · exact clearResult_fatal s
    · rfl
    · rw [writeByte_frame]
  · rw [memWrite, whenIdle_busy hidle]

end Sys2Proof.Machine
end

