-- ==== Sys2Proof/Proofs/ExceptionsFamily.lean ====
section
/-! PROOFS. Exceptions (60_exceptions.md): the block never stops (R178, R182), and `FATAL` changes only by the events
that the spec names (R178, R179). -/

namespace Sys2Proof.Machine

variable {s t : State}

/-! ### Progress -/

/-- The block's turn goes on: the invariant puts a running operation at a label of its own (R52). -/
theorem goesOn_of_blockTurn {rest : List Turn} (h : s.Inv) (hturn : BlockTurn s rest) : GoesOn (step s) := by
  cases hfsm : s.fsm with
  | idle => exact ⟨_, step_of_blockTurn_idle hturn hfsm⟩
  | run op label =>
    obtain ⟨-, hl, -⟩ := h.running hfsm
    exact ⟨_, step_of_fetch_eq_fetchPort (s := setAgenda rest s) (fetch_of_blockTurn hturn) hfsm hl⟩

/-- Settles O52, by whose turn it is: an instruction of the host goes on, a reset goes on, and the block's own turn does
by the invariant. -/
theorem invariantStatesAlwaysStep : Obligations.InvariantStatesAlwaysStep := by
  intro s h
  cases hagenda : s.env.agenda with
  | nil => exact goesOn_of_blockTurn h (.inr ⟨hagenda, rfl⟩)
  | cons turn rest =>
    cases turn with
    | host w => exact step_of_agenda_host hagenda ▸ exec_goes_on (decodeHost w) (setAgenda rest s)
    | port => exact goesOn_of_blockTurn h (.inl hagenda)
    | reset => exact ⟨_, step_of_agenda_reset hagenda⟩

/-! ### `FATAL` -/

/-- What a step that goes on leaves in `FATAL`: a reset clears it, and otherwise only a port step changes it. -/
theorem fatal_of_step (h : step s = .next t) :
    (∃ rest, s.env.agenda = .reset :: rest) ∧ t.fatal = false ∨ FatalByPort s t := by
  cases turnStep_of_step h with
  | reset rest hagenda => exact .inl ⟨⟨rest, hagenda⟩, rfl⟩
  | write w rest => exact .inr (.inr (.inr (memWrite_fatal _ _ _ (setAgenda rest s))))
  | read | wait => exact .inr (.inr (.inr rfl))
  | portCall rest => exact .inr (fatalByPort_blockStep Config.params (setAgenda rest s))

/-- Settles O54, by what the step left in `FATAL`. -/
theorem fatalChangesOnlyAsSpecified : Obligations.FatalChangesOnlyAsSpecified := by
  intro s t hstep
  obtain ⟨hreset, hzero⟩ | ⟨op, hfsm, hopen⟩ | ⟨op, hfsm, hshort, hone⟩ | hkept := fatal_of_step hstep
  · exact ⟨fun _ hset => absurd hset (by simp [hzero]), fun _ _ => .inr hreset⟩
  · exact ⟨fun _ hset => .inl ⟨op, hfsm, by simpa [hopen] using hset⟩,
      fun _ hclear => .inl ⟨op, hfsm, by simpa [hopen] using hclear⟩⟩
  · exact ⟨fun _ _ => .inr ⟨op, hfsm, hshort⟩, fun _ hclear => absurd hclear (by simp [hone])⟩
  · exact ⟨fun hclear hset => absurd hset (by simp [hkept, hclear]),
      fun hset hclear => absurd hclear (by simp [hkept, hset])⟩

end Sys2Proof.Machine
end

