-- ==== Sys2Proof/Proofs/ResetFamily.lean ====
section
/-! PROOFS. Reset and hazards (70_reset_and_hazards.md): a reset event during any operation (R191 to R193). -/

namespace Sys2Proof.Machine

/-- A reset leaves no piece of the block as it was: only what is outside may differ from the reset state (R191). -/
theorem resetBlock_withResetEnv (s : State) : { resetBlock s with env := State.reset.env } = State.reset := rfl

/-- A reset adds no port call, and the answer it drops (R192, R193) touches neither the later turns nor the host's byte. -/
theorem resetBlock_env_frame (s : State) :
    (resetBlock s).env.agenda = s.env.agenda ∧ (resetBlock s).env.calls = s.env.calls ∧
      (resetBlock s).env.hostData = s.env.hostData :=
  ⟨abandonCall_agenda s, abandonCall_calls s, abandonCall_hostData s⟩

/-- Settles O2: a reset turn is `resetBlock` with that turn used up, which resets the block and keeps what is outside. -/
theorem resetTurnRestoresResetBlock : Obligations.ResetTurnRestoresResetBlock := by
  intro s rest hagenda
  obtain ⟨hturns, hcalls, hdata⟩ := resetBlock_env_frame (setAgenda rest s)
  exact ⟨resetBlock (setAgenda rest s), step_of_agenda_reset hagenda, resetBlock_withResetEnv _, hturns, hcalls, hdata⟩

end Sys2Proof.Machine
end
